-- ==== Sys2Proof/Word.lean ====
section
/-! DEFINITION. The word types of huffman_encoder (spec/00_scope.md R6, R7, R9). All values are unsigned (R9). -/

namespace Sys2Proof

/-- A byte of a channel, and a symbol of the 256-entry alphabet (R6, R15). -/
abbrev Byte := BitVec 8

/-- A frequency, a symbol count, an entry of `FT` (R7, R36). -/
abbrev Word32 := BitVec 32

/-- A node id: 0 to 255 a leaf (the id is the symbol), 256 to 510 an internal node (R16). -/
abbrev NodeId := BitVec 9

/-- An element of the priority queue, `freq ‖ id` (R31); also the operand field and the response value (R80, R82). -/
abbrev Key := BitVec 41

/-- The 41-bit operand field of a command word and the 41-bit value field of a response word (R80, R82). -/
abbrev Value := BitVec 41

/-- A command word `CW` or a response word `RW` (R80, R82). -/
abbrev Word64 := BitVec 64

end Sys2Proof
end

