-- ==== Sys2Proof/Syntax.lean ====
section
/-! DEFINITION. The 22 commands of spec/opcode_table.json (spec/30_encoding.md R83), one constructor per row, with the
operands of the row's format (R81). -/

namespace Sys2Proof

/-- A command with its operands. -/
inductive Instr where
  /-- PQ_PUSH freq, id (R111). -/
  | pqPush (freq : Word32) (id : NodeId)
  /-- PQ_TOP (R112). -/
  | pqTop
  /-- PQ_POP (R113). -/
  | pqPop
  /-- PQ_SIZE (R114). -/
  | pqSize
  /-- BW_PUTBIT bit (R131). -/
  | bwPutbit (bit : Bool)
  /-- BW_PUTBYTE b, also spelt BW_PUTCHAR (R132, R89). -/
  | bwPutbyte (b : Byte)
  /-- BW_PUTINT v (R133). -/
  | bwPutint (v : Word32)
  /-- BW_CLOSE (R134). -/
  | bwClose
  /-- BR_GETBIT (R151). -/
  | brGetbit
  /-- BR_GETBYTE (R152). -/
  | brGetbyte
  /-- BR_GETINT (R153). -/
  | brGetint
  /-- FT_LOAD (R171). -/
  | ftLoad
  /-- TB_BUILD (R172). -/
  | tbBuild
  /-- TS_SERIALIZE (R180). -/
  | tsSerialize
  /-- TD_DESERIALIZE (R181). -/
  | tdDeserialize
  /-- CT_DERIVE (R201). -/
  | ctDerive
  /-- ENC_EMIT (R202). -/
  | encEmit
  /-- ENC_COMPRESS (R203). -/
  | encCompress
  /-- DEC_WALK n (R221). -/
  | decWalk (n : Word32)
  /-- DEC_DECOMPRESS (R222). -/
  | decDecompress
  /-- SYS_RESET (R240). -/
  | sysReset
  /-- SYS_RDREG idx (R241). -/
  | sysRdreg (idx : BitVec 4)
  deriving DecidableEq, Repr

end Sys2Proof
end

