-- ==== Sys2Proof/WellFormed.lean ====
section
/-! DEFINITION. Which commands a legal word spells: every operand of its field's width (the types say so), and for SYS_RDREG
a register index of at most 6 (spec/30_encoding.md R85). -/

namespace Sys2Proof

/-- The index of SYS_RDREG names a register (R45, R85: 7 to 15 are reserved). -/
def registerIndexOk (idx : BitVec 4) : Bool := decide (idx.toNat ≤ 6)

/-- A command some legal word spells. -/
def Instr.wf : Instr → Bool
  | .sysRdreg idx => registerIndexOk idx
  | .pqPush _ _ | .pqTop | .pqPop | .pqSize => true
  | .bwPutbit _ | .bwPutbyte _ | .bwPutint _ | .bwClose => true
  | .brGetbit | .brGetbyte | .brGetint => true
  | .ftLoad | .tbBuild | .tsSerialize | .tdDeserialize => true
  | .ctDerive | .encEmit | .encCompress => true
  | .decWalk _ | .decDecompress => true
  | .sysReset => true

end Sys2Proof
end

