-- ==== Sys2Proof/Decode.lean ====
section
/-! DEFINITION. The command word, its decoder and its encoder (spec/30_encoding.md R80, R81, R83, R84, R85). A command word
is handed over whole by the host (R70), so there is no fetch and no byte order: a command is one 64-bit word. -/

namespace Sys2Proof

/-- `op = CW[63:56]` (R80). -/
def opField (cw : Word64) : BitVec 8 := cw.extractLsb' 56 8

/-- `rsv = CW[55:41]` (R80). -/
def rsvField (cw : Word64) : BitVec 15 := cw.extractLsb' 41 15

/-- `arg = CW[40:0]` (R80). -/
def argField (cw : Word64) : Value := cw.extractLsb' 0 41

/-- The operand formats (R81). -/
inductive Format where
  | z | b1 | b8 | w32 | k41 | r4
  deriving DecidableEq, Repr

/-- The bits of `arg` that carry an operand (R81); all other bits of `arg` must be 0. -/
def Format.operandBits : Format → Value
  | .z => 0
  | .b1 => 0x1
  | .b8 => 0xFF
  | .w32 => 0xFFFFFFFF
  | .k41 => 0x1FFFFFFFFFF
  | .r4 => 0xF

/-- The format of each `op` of the opcode map (R83); `none` for an `op` that is not in the table. -/
def formatOf (op : BitVec 8) : Option Format :=
  match op.toNat with
  | 0x10 => some .k41
  | 0x11 => some .z
  | 0x12 => some .z
  | 0x13 => some .z
  | 0x20 => some .b1
  | 0x21 => some .b8
  | 0x22 => some .w32
  | 0x23 => some .z
  | 0x30 => some .z
  | 0x31 => some .z
  | 0x32 => some .z
  | 0x40 => some .z
  | 0x41 => some .z
  | 0x42 => some .z
  | 0x43 => some .z
  | 0x50 => some .z
  | 0x51 => some .z
  | 0x52 => some .z
  | 0x60 => some .w32
  | 0x61 => some .z
  | 0x70 => some .z
  | 0x71 => some .r4
  | _ => none

/-- Why a word is illegal (R85). -/
inductive DecodeError where
  /-- `op` is not in the table of R83. -/
  | unknownOpcode
  /-- `rsv` is not 0. -/
  | reservedBits
  /-- A bit of `arg` outside the format's operand bits is 1. -/
  | operandBits
  /-- SYS_RDREG with an index of 7 or more. -/
  | registerIndex
  deriving DecidableEq, Repr

/-- Operand `freq` of format K41, `arg[40:9]` (R81). -/
def argFreq (arg : Value) : Word32 := arg.extractLsb' 9 32

/-- Operand `id` of format K41, `arg[8:0]` (R81). -/
def argId (arg : Value) : NodeId := arg.extractLsb' 0 9

/-- Operand `bit` of format B1, `arg[0]` (R81). -/
def argBit (arg : Value) : Bool := arg.getLsbD 0

/-- Operand `b` of format B8, `arg[7:0]` (R81). -/
def argByte (arg : Value) : Byte := arg.extractLsb' 0 8

/-- Operand `v` or `n` of format W32, `arg[31:0]` (R81). -/
def argWord (arg : Value) : Word32 := arg.extractLsb' 0 32

/-- Operand `idx` of format R4, `arg[3:0]` (R81). -/
def argIdx (arg : Value) : BitVec 4 := arg.extractLsb' 0 4

/-- The command of an `op` with its operands, once the field checks of R85 have passed. -/
def buildInstr (op : BitVec 8) (arg : Value) : Except DecodeError Instr :=
  match op.toNat with
  | 0x10 => .ok (.pqPush (argFreq arg) (argId arg))
  | 0x11 => .ok .pqTop
  | 0x12 => .ok .pqPop
  | 0x13 => .ok .pqSize
  | 0x20 => .ok (.bwPutbit (argBit arg))
  | 0x21 => .ok (.bwPutbyte (argByte arg))
  | 0x22 => .ok (.bwPutint (argWord arg))
  | 0x23 => .ok .bwClose
  | 0x30 => .ok .brGetbit
  | 0x31 => .ok .brGetbyte
  | 0x32 => .ok .brGetint
  | 0x40 => .ok .ftLoad
  | 0x41 => .ok .tbBuild
  | 0x42 => .ok .tsSerialize
  | 0x43 => .ok .tdDeserialize
  | 0x50 => .ok .ctDerive
  | 0x51 => .ok .encEmit
  | 0x52 => .ok .encCompress
  | 0x60 => .ok (.decWalk (argWord arg))
  | 0x61 => .ok .decDecompress
  | 0x70 => .ok .sysReset
  | 0x71 => if registerIndexOk (argIdx arg) then .ok (.sysRdreg (argIdx arg)) else .error .registerIndex
  | _ => .error .unknownOpcode

/-- The decoder: a command with its operands, or the reason the word is illegal (R85). Total on every 64-bit word. -/
def decode (cw : Word64) : Except DecodeError Instr :=
  match formatOf (opField cw) with
  | none => .error .unknownOpcode
  | some f =>
    if rsvField cw ≠ 0 then .error .reservedBits
    else if argField cw &&& ~~~ f.operandBits ≠ 0 then .error .operandBits
    else buildInstr (opField cw) (argField cw)

/-- The `op` of a command (R83). -/
def Instr.op : Instr → BitVec 8
  | .pqPush _ _ => 0x10
  | .pqTop => 0x11
  | .pqPop => 0x12
  | .pqSize => 0x13
  | .bwPutbit _ => 0x20
  | .bwPutbyte _ => 0x21
  | .bwPutint _ => 0x22
  | .bwClose => 0x23
  | .brGetbit => 0x30
  | .brGetbyte => 0x31
  | .brGetint => 0x32
  | .ftLoad => 0x40
  | .tbBuild => 0x41
  | .tsSerialize => 0x42
  | .tdDeserialize => 0x43
  | .ctDerive => 0x50
  | .encEmit => 0x51
  | .encCompress => 0x52
  | .decWalk _ => 0x60
  | .decDecompress => 0x61
  | .sysReset => 0x70
  | .sysRdreg _ => 0x71

/-- The `arg` field of a command: its operands at their places, 0 elsewhere (R81). -/
def Instr.arg : Instr → Value
  | .pqPush freq id => freq ++ id
  | .bwPutbit bit => (BitVec.ofBool bit).setWidth 41
  | .bwPutbyte b => b.setWidth 41
  | .bwPutint v => v.setWidth 41
  | .decWalk n => n.setWidth 41
  | .sysRdreg idx => idx.setWidth 41
  | .pqTop | .pqPop | .pqSize | .bwClose => 0
  | .brGetbit | .brGetbyte | .brGetint => 0
  | .ftLoad | .tbBuild | .tsSerialize | .tdDeserialize => 0
  | .ctDerive | .encEmit | .encCompress | .decDecompress => 0
  | .sysReset => 0

/-- The encoder: `op << 56 | arg` with `rsv = 0` (R80, R89). -/
def encode (i : Instr) : Word64 := i.op ++ (0#15) ++ i.arg

/-- A row of spec/opcode_table.json: a word spells its command iff `CW and mask = match` (R84). -/
structure OpcodeRow where
  mnemonic : String
  pattern : Word64
  mask : Word64
  deriving DecidableEq, Repr

/-- The opcode table as the spec prints it (spec/opcode_table.json, R84), row by row. -/
def opcodeTable : List OpcodeRow :=
  [ ⟨"PQ_PUSH", 0x1000000000000000, 0xFFFFFE0000000000⟩,
    ⟨"PQ_TOP", 0x1100000000000000, 0xFFFFFFFFFFFFFFFF⟩,
    ⟨"PQ_POP", 0x1200000000000000, 0xFFFFFFFFFFFFFFFF⟩,
    ⟨"PQ_SIZE", 0x1300000000000000, 0xFFFFFFFFFFFFFFFF⟩,
    ⟨"BW_PUTBIT", 0x2000000000000000, 0xFFFFFFFFFFFFFFFE⟩,
    ⟨"BW_PUTBYTE", 0x2100000000000000, 0xFFFFFFFFFFFFFF00⟩,
    ⟨"BW_PUTINT", 0x2200000000000000, 0xFFFFFFFF00000000⟩,
    ⟨"BW_CLOSE", 0x2300000000000000, 0xFFFFFFFFFFFFFFFF⟩,
    ⟨"BR_GETBIT", 0x3000000000000000, 0xFFFFFFFFFFFFFFFF⟩,
    ⟨"BR_GETBYTE", 0x3100000000000000, 0xFFFFFFFFFFFFFFFF⟩,
    ⟨"BR_GETINT", 0x3200000000000000, 0xFFFFFFFFFFFFFFFF⟩ ] ++
  [ ⟨"FT_LOAD", 0x4000000000000000, 0xFFFFFFFFFFFFFFFF⟩,
    ⟨"TB_BUILD", 0x4100000000000000, 0xFFFFFFFFFFFFFFFF⟩,
    ⟨"TS_SERIALIZE", 0x4200000000000000, 0xFFFFFFFFFFFFFFFF⟩,
    ⟨"TD_DESERIALIZE", 0x4300000000000000, 0xFFFFFFFFFFFFFFFF⟩,
    ⟨"CT_DERIVE", 0x5000000000000000, 0xFFFFFFFFFFFFFFFF⟩,
    ⟨"ENC_EMIT", 0x5100000000000000, 0xFFFFFFFFFFFFFFFF⟩,
    ⟨"ENC_COMPRESS", 0x5200000000000000, 0xFFFFFFFFFFFFFFFF⟩,
    ⟨"DEC_WALK", 0x6000000000000000, 0xFFFFFFFF00000000⟩,
    ⟨"DEC_DECOMPRESS", 0x6100000000000000, 0xFFFFFFFFFFFFFFFF⟩,
    ⟨"SYS_RESET", 0x7000000000000000, 0xFFFFFFFFFFFFFFFF⟩,
    ⟨"SYS_RDREG", 0x7100000000000000, 0xFFFFFFFFFFFFFFF0⟩ ]

/-- The mnemonic of a command as the table spells it. -/
def Instr.mnemonic : Instr → String
  | .pqPush _ _ => "PQ_PUSH"
  | .pqTop => "PQ_TOP"
  | .pqPop => "PQ_POP"
  | .pqSize => "PQ_SIZE"
  | .bwPutbit _ => "BW_PUTBIT"
  | .bwPutbyte _ => "BW_PUTBYTE"
  | .bwPutint _ => "BW_PUTINT"
  | .bwClose => "BW_CLOSE"
  | .brGetbit => "BR_GETBIT"
  | .brGetbyte => "BR_GETBYTE"
  | .brGetint => "BR_GETINT"
  | .ftLoad => "FT_LOAD"
  | .tbBuild => "TB_BUILD"
  | .tsSerialize => "TS_SERIALIZE"
  | .tdDeserialize => "TD_DESERIALIZE"
  | .ctDerive => "CT_DERIVE"
  | .encEmit => "ENC_EMIT"
  | .encCompress => "ENC_COMPRESS"
  | .decWalk _ => "DEC_WALK"
  | .decDecompress => "DEC_DECOMPRESS"
  | .sysReset => "SYS_RESET"
  | .sysRdreg _ => "SYS_RDREG"

/-- The word whose low `nbits` bits are those of `w` and whose other bits are 0. -/
def tableWord (nbits w : Nat) : Word64 := BitVec.ofNat 64 (w % 2 ^ nbits)

/-- The command the decoder reads from the word whose low `nbits` bits are `w`; `none` where it refuses. The only word of a
command is its first, so the table's bit numbering is the word's own (R80, R9). -/
def decodeTableWord (nbits w : Nat) : Option Instr :=
  match decode (tableWord nbits w) with
  | .ok i => some i
  | .error _ => none

end Sys2Proof
end

