-- ==== Sys2Proof/Config.lean ====
section
/-! DEFINITION. The parameters of the block: the sizes fixed by the spec (spec/00_scope.md R6, R7) and the one open size
`IB_CAP` (R8). The other open parameter, `io_fault` (R8, R258), is answered access by access: field `io` of State. -/

namespace Sys2Proof

/-- `IB_CAP`, the capacity in bytes of the input buffer (R8): an argument of the model, held as a record that State carries
and no step writes (R22). `1 <= IB_CAP <= 2^32 - 1`; the upper bound is the width, the lower one `Config.Ok`. -/
structure Config where
  ibCap : Word32
  deriving DecidableEq, Repr

/-- The default of `IB_CAP`, "the default and maximum is `2^32 - 1`" (R8). -/
def Config.default : Config := ⟨0xFFFFFFFF#32⟩

/-- `IB_CAP` is at least 1 (R8). -/
abbrev Config.Ok (c : Config) : Prop := 1 ≤ c.ibCap.toNat

/-- `ALPHA`, the number of symbols (R6). -/
def alphabetSize : Nat := 256

/-- `HEAP_CAP`, the capacity of the priority queue (R7). -/
def heapCap : Nat := 256

/-- `NM_SIZE`, the number of entries of node memory (R7). -/
def nodeMemSize : Nat := 511

/-- `CODE_MAX`, the greatest length of a code (R7). -/
def codeMax : Nat := 255

/-- `DEPTH_MAX`, the greatest number of nodes on a path from the root to a leaf (R7). -/
def depthMax : Nat := 256

end Sys2Proof
end

