-- ==== Sys2Proof/Machine/Store.lean ====
section
/-! DEFINITION. A sparse table: the internal memories `NM`, `FT` and `CT` (spec/10_state.md R33, R36, R38) as lists of
(index, value) pairs in one canonical form, indices strictly rising. An index that is not listed holds nothing. -/

namespace Sys2Proof.Machine

/-- A sparse table. -/
abbrev Store (α : Type) := List (Nat × α)

/-- The value listed at an index. -/
def storeGet {α : Type} : Store α → Nat → Option α
  | [], _ => none
  | (k, v) :: rest, i => if k = i then some v else storeGet rest i

/-- Write a value at an index, keeping the indices strictly rising. -/
def storePut {α : Type} : Store α → Nat → α → Store α
  | [], i, x => [(i, x)]
  | (k, v) :: rest, i, x =>
    if i < k then (i, x) :: (k, v) :: rest
    else if i = k then (i, x) :: rest
    else (k, v) :: storePut rest i x

/-- Take the entry at an index out of the list. -/
def storeDel {α : Type} : Store α → Nat → Store α
  | [], _ => []
  | (k, v) :: rest, i => if k = i then rest else (k, v) :: storeDel rest i

/-- The canonical form: indices strictly rising. -/
abbrev storeSorted {α : Type} (m : Store α) : Prop := m.Pairwise (fun a b => a.1 < b.1)

/-- An entry of a table of 32-bit counts; an index that is not listed holds 0 (R36, R280). -/
def countGet (m : Store Word32) (i : Nat) : Word32 := (storeGet m i).getD 0

/-- Write an entry of a table of counts: a 0 is not listed. -/
def countPut (m : Store Word32) (i : Nat) (x : Word32) : Store Word32 :=
  if x = 0 then storeDel m i else storePut m i x

end Sys2Proof.Machine
end

