-- ==== Sys2Proof/Machine/State.lean ====
section
/-! DEFINITION. The state of the block and of its environment (spec/10_state.md), the reset state (spec/70_reset_and_hazards.md
R280), and the ways a step or a rule's body can end. -/

namespace Sys2Proof.Machine

/-- The errors `ERR` can hold besides None (R250). Codes 6 and 7 are reserved and never written, so they have no
constructor (U11). -/
inductive ErrorKind where
  /-- Code 1: PQ_TOP or PQ_POP on an empty queue. -/
  | underflow
  /-- Code 2: a BR_GET command finds `src` empty at a refill. -/
  | endOfStream
  /-- Code 3: a decode command meets the end of `src`, a repeated leaf or a node too deep. -/
  | corruptStream
  /-- Code 4: a channel access failed. -/
  | ioError
  /-- Code 5: an illegal word, or a command refused by state (R87). -/
  | illegalOperation
  deriving DecidableEq, Repr

/-- A valid entry of node memory (R33): its frequency and, for an internal node, its children `left` and `right`. The
children of a leaf do not exist, and an entry with `valid = 0` is not listed at all (U2). -/
structure Node where
  freq : Word32
  kids : Option (NodeId × NodeId)
  deriving DecidableEq, Repr

/-- The abstract tree T(id) of R35, the document's HuffmanTree. -/
inductive Tree where
  | leaf (sym : Byte)
  | node (left right : Tree)
  deriving DecidableEq, Repr

/-- One act of the host (R16, R40, R41, R280, R282). The host acts only between commands. -/
inductive HostEvent where
  /-- It hands over a command word (R80, R86). -/
  | command (cw : Word64)
  /-- It places the whole input in `src` (R40, R282). -/
  | setSrc (bytes : List Byte)
  /-- It empties `snk` (R41). -/
  | emptySnk
  /-- It asserts the hardware reset (R280). -/
  | hardReset
  deriving DecidableEq, Repr

/-- Everything the spec gives the machine, and the environment it speaks to. -/
structure State where
  /-- `ERR` (R23), `none` for code 0. -/
  err : Option ErrorKind
  /-- `WBUF` (R24). -/
  wbuf : Byte
  /-- `WCNT` (R24). -/
  wcnt : BitVec 4
  /-- `RBUF` (R25). -/
  rbuf : Byte
  /-- `RCNT` (R25). -/
  rcnt : BitVec 4
  /-- `NINT` (R27). -/
  nint : BitVec 9
  /-- `ROOT` (R28). -/
  root : NodeId
  /-- `ROOT_VALID` (R28). -/
  rootValid : Bool
  /-- `HP[0 .. HSIZE-1]` (R31); its length is `HSIZE` (R26, U1). -/
  hp : List Key
  /-- `NM` (R33): the valid entries by node id. -/
  nm : Store Node
  /-- `FT` (R36): the non-zero entries by symbol. -/
  ft : Store Word32
  /-- `IB[0 .. ILEN-1]` (R37); its length is `ILEN` (R29, U3). -/
  ib : List Byte
  /-- `CT` (R38): the codes of the bound symbols, first bit first. -/
  ct : Store (List Bool)
  /-- `src` (R40), head first. -/
  src : List Byte
  /-- `snk` (R41), oldest first. -/
  snk : List Byte
  /-- The parameter `IB_CAP` (R8); no step writes it (R22). -/
  cfg : Config
  /-- The parameter `io_fault` (R8, R258) as the answers to the coming channel accesses, `true` where the access fails; an
  access past the end of the list succeeds, so the empty list is the default "never". -/
  io : List Bool
  /-- What the host will do next, first act first. -/
  host : List HostEvent
  /-- The response words the host has received (R82), oldest first. -/
  rsp : List Word64
  deriving DecidableEq, Repr

/-- `HSIZE` (R26): the number of live elements of the queue. -/
def State.hsize (s : State) : BitVec 9 := BitVec.ofNat 9 s.hp.length

/-- `ILEN` (R29): the number of live bytes of the input buffer. -/
def State.ilen (s : State) : Word32 := BitVec.ofNat 32 s.ib.length

/-- The machine right after reset (R280), with `IB_CAP` and `io_fault` at their defaults (R8). The spec leaves `src` and
`snk` to the host; DESIGN CHOICE: both are empty here, as are the host's plans and the responses (log entry 10). -/
def State.reset : State where
  err := none
  wbuf := 0
  wcnt := 0
  rbuf := 0
  rcnt := 0
  nint := 0
  root := 0
  rootValid := false
  hp := []
  nm := []
  ft := []
  ib := []
  ct := []
  src := []
  snk := []
  cfg := Config.default
  io := []
  host := []
  rsp := []

/-- How the machine stops. Every error of the spec is a NEXT state that records it in `ERR` (R252, R265); this type holds
only what no reachable state shows. -/
inductive Fault where
  /-- TS_SERIALIZE, CT_DERIVE or DEC_WALK with `ROOT_VALID = 1` finds that node memory holds no tree under `ROOT`: a node
  without a valid entry, or a path that never ends. The tree invariants R34 rule it out in every reachable state. Safe: the
  model stops where the spec says nothing. -/
  | brokenTree
  deriving DecidableEq, Repr

/-- A command the model has no meaning for. -/
inductive Refusal where
  /-- Raised by no meaning: the name of an arm of `exec` without a meaning, of which there is none. Safe: the model stops. -/
  | notModelled (mnemonic : String)
  deriving DecidableEq, Repr

/-- How the body of a rule ends (R11, R252): with a value, at a `raise` whose earlier writes stand, or on a broken tree. -/
inductive Res (α : Type) where
  | ok (a : α) (s : State)
  | raised (e : ErrorKind) (s : State)
  | broken
  deriving DecidableEq, Repr

/-- Go on with the next statement of the rule; a `raise` ends it (R252). -/
def Res.bind {α β : Type} (r : Res α) (f : α → State → Res β) : Res β :=
  match r with
  | .ok a s => f a s
  | .raised e s => .raised e s
  | .broken => .broken

end Sys2Proof.Machine
end

