-- ==== Sys2Proof/Machine/Flags.lean ====
section
/-! DEFINITION. The status the block shows: the error code, the response word and the register map (spec/60_exceptions.md
R250, spec/30_encoding.md R82, spec/10_state.md R45). The two status flags are `ERR` and `ROOT_VALID`; there are no
condition codes. -/

namespace Sys2Proof.Machine

/-- The 3-bit code of `ERR` (R250). -/
def errCode : Option ErrorKind → BitVec 3
  | none => 0
  | some .underflow => 1
  | some .endOfStream => 2
  | some .corruptStream => 3
  | some .ioError => 4
  | some .illegalOperation => 5

/-- The response word (R82): `RW[63:61] = ERR`, `RW[60:41] = 0`, `RW[40:0] = value`. -/
def responseWord (err : Option ErrorKind) (value : Value) : Word64 := errCode err ++ (0#20) ++ value

/-- `REGMAP(idx)`, zero-extended to 41 bits (R45, R241); `none` for the reserved indices 7 to 15. -/
def regMap (s : State) (idx : BitVec 4) : Option Value :=
  match idx.toNat with
  | 0 => some ((BitVec.ofBool s.rootValid ++ errCode s.err).setWidth 41)
  | 1 => some ((s.wcnt ++ s.wbuf).setWidth 41)
  | 2 => some ((s.rcnt ++ s.rbuf).setWidth 41)
  | 3 => some (s.hsize.setWidth 41)
  | 4 => some (s.ilen.setWidth 41)
  | 5 => some (s.root.setWidth 41)
  | 6 => some (s.nint.setWidth 41)
  | _ => none

end Sys2Proof.Machine
end

