-- ==== Sys2Proof/Machine/Operands.lean ====
section
/-! DEFINITION. The operand forms of the rules: keys, node ids, most-significant-first bit sequences, and the register map of
SYS_RDREG (spec/10_state.md R31, R33, R45; spec/20_memory.md R63). The operand fields of a command word are taken apart in
Sys2Proof/Decode.lean (R81). -/

namespace Sys2Proof.Machine

/-- The key `freq ‖ id` (R31). -/
def mkKey (freq : Word32) (id : NodeId) : Key := freq ++ id

/-- `A.freq = A[40:9]` (R172). -/
def keyFreq (k : Key) : Word32 := k.extractLsb' 9 32

/-- `A.id = A[8:0]` (R172). -/
def keyId (k : Key) : NodeId := k.extractLsb' 0 9

/-- The id of the leaf of a symbol (R16). -/
def leafId (sym : Byte) : NodeId := sym.setWidth 9

/-- A node id below 256 is a leaf (R16, R33). -/
def isLeafId (id : NodeId) : Bool := decide (id.toNat < 256)

/-- The symbol `id[7:0]` of a leaf (R180, R221). -/
def leafSym (id : NodeId) : Byte := id.setWidth 8

/-- The id of the next internal node, `256 + NINT` (R27). -/
def nextInnerId (nint : BitVec 9) : NodeId := 256 + nint

/-- The bits of a value, most significant first (R63). -/
def bitsMsb {w : Nat} (v : BitVec w) : List Bool := (List.range w).map v.getMsbD

/-- `(v << 1) | bit` at the value's width (R152, R153). -/
def shiftIn {w : Nat} (v : BitVec w) (bit : Bool) : BitVec w := (v <<< 1) ||| (BitVec.ofBool bit).setWidth w

end Sys2Proof.Machine
end

