-- ==== Sys2Proof/Machine/Ops.lean ====
section
/-! DEFINITION. The operations the commands share: the channel primitives (spec/20_memory.md R61, R62), the response and
command entry (spec/30_encoding.md R82, R86), taking an error and leaving the error state by reset (spec/60_exceptions.md
R252, R261; spec/47_system.md R240), promotion (R256), and reading the tree T(id) (spec/10_state.md R35). -/

namespace Sys2Proof.Machine

/-- Respond with a value and the standing `ERR` (R82). -/
def State.respond (s : State) (value : Value) : State :=
  { s with rsp := s.rsp ++ [responseWord s.err value] }

/-- TAKING AN ERROR (R252): `ERR` takes the error, the command ends with every earlier write standing, and the response
carries the new `ERR` and value 0. There is no saved pc, vector, mode or handler (R260). -/
def takeError (e : ErrorKind) (s : State) : State := ({ s with err := some e } : State).respond 0

/-- LEAVING THE ERROR STATE (R240, R261, R280): the block's own state takes its reset value. `src` and `snk`, the parameters,
the host's plans and the responses received are not the block's and stay. -/
def resetBlock (s : State) : State :=
  { State.reset with src := s.src, snk := s.snk, cfg := s.cfg, io := s.io, host := s.host, rsp := s.rsp }

/-- Command entry for every command but SYS_RESET and SYS_RDREG (R86): with `ERR != 0` the command is ignored and answered
with the standing `ERR` and value 0; otherwise its rule is performed and answered. -/
def command (body : State → Res Value) (s : State) : Host.Outcome State Fault Refusal :=
  match s.err with
  | some _ => .next (s.respond 0)
  | none =>
    match body s with
    | .ok v t => .next (t.respond v)
    | .raised e t => .next (takeError e t)
    | .broken => .fault .brokenTree

/-- A rule's body without a result answers value 0 (R82). -/
def noResult (r : Res Unit) : Res Value := r.bind fun _ t => .ok 0 t

/-- Command entry for an illegal word (R85, R86): IllegalOperation with `ERR = 0`, ignored otherwise. -/
def illegalWord (s : State) : Host.Outcome State Fault Refusal :=
  command (fun s => .raised .illegalOperation s) s

/-- The environment's answer to one channel access (R258): where `io_fault` holds, the access does not happen and the
command raises IOError there. -/
def ioAccess (s : State) : Res Unit :=
  match s.io with
  | [] => .ok () s
  | true :: rest => .raised .ioError { s with io := rest }
  | false :: rest => .ok () { s with io := rest }

/-- `SrcRead()` (R61). -/
def srcRead (s : State) : Res (Option Byte) :=
  (ioAccess s).bind fun _ t =>
    match t.src with
    | [] => .ok none t
    | b :: rest => .ok (some b) { t with src := rest }

/-- `SnkWrite(b)` (R62). -/
def snkWrite (b : Byte) (s : State) : Res Unit :=
  (ioAccess s).bind fun _ t => .ok () { t with snk := t.snk ++ [b] }

/-- The decode boundary (R256): inside it every `raise EndOfStream` is performed as `raise CorruptStream`. -/
def promote {α : Type} (r : Res α) : Res α :=
  match r with
  | .raised .endOfStream s => .raised .corruptStream s
  | r => r

/-- The tree T(id) (R35), on fuel: the number of nodes a path may still hold. A leaf is its id; an internal node is read from
node memory (R180, R201, R221 read nothing else). `none` where there is no tree. -/
def treeAt (nm : Store Node) : Nat → NodeId → Option Tree
  | 0, _ => none
  | fuel + 1, id =>
    if isLeafId id then some (.leaf (leafSym id))
    else
      match storeGet nm id.toNat with
      | some ⟨_, some (l, r)⟩ =>
        match treeAt nm fuel l, treeAt nm fuel r with
        | some tl, some tr => some (.node tl tr)
        | _, _ => none
      | _ => none

/-- `T(ROOT)` (R35). A path that visits no node twice holds at most all 511 nodes. -/
def State.tree (s : State) : Option Tree := treeAt s.nm nodeMemSize s.root

/-- Go on with the current tree: `raise IllegalOperation` with `ROOT_VALID = 0` (R87). -/
def withTree {α : Type} (s : State) (f : Tree → Res α) : Res α :=
  if s.rootValid then
    match s.tree with
    | some t => f t
    | none => .broken
  else .raised .illegalOperation s

end Sys2Proof.Machine
end

