-- ==== Sys2Proof/Machine/BitReader.lean ====
section
/-! DEFINITION. The bit reader (spec/43_bit_reader.md R151 to R153): `RBUF`, `RCNT` over `SrcRead`. -/

namespace Sys2Proof.Machine

/-- The refill of `GetBit` (R151): one byte, only when no bit is left. -/
def refill (s : State) : Res Unit :=
  if s.rcnt = 0 then
    (srcRead s).bind fun x t =>
      match x with
      | none => .raised .endOfStream t
      | some b => .ok () { t with rbuf := b, rcnt := 8 }
  else .ok () s

/-- `GetBit()` (R151). -/
def getBit (s : State) : Res Bool :=
  (refill s).bind fun _ t =>
    let u := { t with rcnt := t.rcnt - 1 }
    .ok (u.rbuf.getLsbD u.rcnt.toNat) u

/-- `repeat n times: v <- (v << 1) | GetBit()` at the width of `v` (R152, R153). -/
def getBits {w : Nat} : Nat → BitVec w → State → Res (BitVec w)
  | 0, v, s => .ok v s
  | n + 1, v, s => (getBit s).bind fun b t => getBits n (shiftIn v b) t

/-- `GetByte()` (R152). -/
def getByte (s : State) : Res Byte := getBits 8 0 s

/-- `GetInt()` (R153). -/
def getInt (s : State) : Res Word32 := getBits 32 0 s

/-- BR_GETBIT (R151). -/
def execBrGetbit (s : State) : Host.Outcome State Fault Refusal :=
  command (fun s => (getBit s).bind fun b t => .ok ((BitVec.ofBool b).setWidth 41) t) s

/-- BR_GETBYTE (R152). -/
def execBrGetbyte (s : State) : Host.Outcome State Fault Refusal :=
  command (fun s => (getByte s).bind fun b t => .ok (b.setWidth 41) t) s

/-- BR_GETINT (R153). -/
def execBrGetint (s : State) : Host.Outcome State Fault Refusal :=
  command (fun s => (getInt s).bind fun v t => .ok (v.setWidth 41) t) s

end Sys2Proof.Machine
end

