-- ==== Sys2Proof/Machine/BitWriter.lean ====
section
/-! DEFINITION. The bit writer (spec/42_bit_writer.md R131 to R134): `WBUF`, `WCNT` over `SnkWrite`. -/

namespace Sys2Proof.Machine

/-- `PutBit(bit)` (R131). -/
def putBit (bit : Bool) (s : State) : Res Unit :=
  let t := { s with wbuf := shiftIn s.wbuf bit, wcnt := s.wcnt + 1 }
  if t.wcnt = 8 then (snkWrite t.wbuf t).bind fun _ u => .ok () { u with wbuf := 0, wcnt := 0 }
  else .ok () t

/-- `PutBit` of each bit of a sequence, first bit first. -/
def putBits : List Bool → State → Res Unit
  | [], s => .ok () s
  | b :: rest, s => (putBit b s).bind fun _ t => putBits rest t

/-- `PutByte(b)` (R132). -/
def putByte (b : Byte) (s : State) : Res Unit := putBits (bitsMsb b) s

/-- `PutInt(v)` (R133). -/
def putInt (v : Word32) (s : State) : Res Unit := putBits (bitsMsb v) s

/-- `Close()` (R134). -/
def closeWriter (s : State) : Res Unit :=
  if s.wcnt = 0 then .ok () s
  else (snkWrite (s.wbuf <<< (8 - s.wcnt.toNat)) s).bind fun _ t => .ok () { t with wbuf := 0, wcnt := 0 }

/-- BW_PUTBIT bit (R131). -/
def execBwPutbit (bit : Bool) (s : State) : Host.Outcome State Fault Refusal :=
  command (fun s => noResult (putBit bit s)) s

/-- BW_PUTBYTE b (R132). -/
def execBwPutbyte (b : Byte) (s : State) : Host.Outcome State Fault Refusal :=
  command (fun s => noResult (putByte b s)) s

/-- BW_PUTINT v (R133). -/
def execBwPutint (v : Word32) (s : State) : Host.Outcome State Fault Refusal :=
  command (fun s => noResult (putInt v s)) s

/-- BW_CLOSE (R134). -/
def execBwClose (s : State) : Host.Outcome State Fault Refusal := command (fun s => noResult (closeWriter s)) s

end Sys2Proof.Machine
end

