-- ==== Sys2Proof/Machine/PriorityQueue.lean ====
section
/-! DEFINITION. priority_queue_heap (spec/41_priority_queue.md R110 to R114): the heap `HP[0 .. HSIZE-1]` as a list, the root
first, and the four queue commands. -/

namespace Sys2Proof.Machine

/-- `HP[i]`; the rules index live elements only. -/
def hpGet (hp : List Key) (i : Nat) : Key := hp.getD i 0

/-- `swap HP[i], HP[j]`. -/
def hpSwap (hp : List Key) (i j : Nat) : List Key := (hp.set i (hpGet hp j)).set j (hpGet hp i)

/-- The parent of position `i > 0` (R110). -/
def parentPos (i : Nat) : Nat := (i - 1) / 2

/-- The upward percolation of `Push` (R111) from position `i`. Each pass lowers `i`, so fuel `i` is enough. -/
def siftUp : Nat → Nat → List Key → List Key
  | 0, _, hp => hp
  | fuel + 1, i, hp =>
    if 0 < i ∧ hpGet hp i < hpGet hp (parentPos i) then
      siftUp fuel (parentPos i) (hpSwap hp i (parentPos i))
    else hp

/-- The child the downward percolation of `Pop` compares with (R113): the right one when it exists and precedes the left. -/
def smallerChild (hp : List Key) (i : Nat) : Nat :=
  if 2 * i + 2 < hp.length ∧ hpGet hp (2 * i + 2) < hpGet hp (2 * i + 1) then 2 * i + 2 else 2 * i + 1

/-- The downward percolation of `Pop` (R113) from position `i`. Each pass raises `i` below `HSIZE`, so fuel `HSIZE` is
enough. -/
def siftDown : Nat → Nat → List Key → List Key
  | 0, _, hp => hp
  | fuel + 1, i, hp =>
    if hp.length ≤ 2 * i + 1 then hp
    else if hpGet hp (smallerChild hp i) < hpGet hp i then
      siftDown fuel (smallerChild hp i) (hpSwap hp (smallerChild hp i) i)
    else hp

/-- The array after `Push(k)` on a queue that is not full (R111). -/
def heapPush (k : Key) (hp : List Key) : List Key := siftUp hp.length hp.length (hp ++ [k])

/-- The array after `Pop()` on a queue that is not empty (R113): the last element takes the root position and percolates
down. -/
def heapPop (hp : List Key) : List Key :=
  if hp.length ≤ 1 then []
  else siftDown (hp.length - 1) 0 (hp.dropLast.set 0 (hpGet hp (hp.length - 1)))

/-- `Push(k)` (R111). -/
def pushKey (k : Key) (s : State) : Res Unit :=
  if heapCap ≤ s.hp.length then .raised .illegalOperation s
  else .ok () { s with hp := heapPush k s.hp }

/-- `Top()` (R112). -/
def topKey (s : State) : Res Key :=
  match s.hp with
  | [] => .raised .underflow s
  | k :: _ => .ok k s

/-- `Pop()` (R113). -/
def popKey (s : State) : Res Unit :=
  match s.hp with
  | [] => .raised .underflow s
  | _ :: _ => .ok () { s with hp := heapPop s.hp }

/-- PQ_PUSH freq, id (R111). -/
def execPqPush (freq : Word32) (id : NodeId) (s : State) : Host.Outcome State Fault Refusal :=
  command (fun s => noResult (pushKey (mkKey freq id) s)) s

/-- PQ_TOP (R112). -/
def execPqTop (s : State) : Host.Outcome State Fault Refusal := command topKey s

/-- PQ_POP (R113). -/
def execPqPop (s : State) : Host.Outcome State Fault Refusal := command (fun s => noResult (popKey s)) s

/-- PQ_SIZE (R114). -/
def execPqSize (s : State) : Host.Outcome State Fault Refusal :=
  command (fun s => .ok (s.hsize.setWidth 41) s) s

end Sys2Proof.Machine
end

