-- ==== Sys2Proof/Machine/TreeBuilder.lean ====
section
/-! DEFINITION. huffman_tree_builder (spec/44_tree_builder.md R171, R172, R180, R181): loading the input, building the tree,
writing it to the bit stream and reading it back. -/

namespace Sys2Proof.Machine

/-- The loop of `FtLoad` (R171). Each pass takes one byte of `src`, so fuel `|src| + 1` is enough. -/
def loadLoop : Nat → State → Res Unit
  | 0, s => .ok () s
  | fuel + 1, s =>
    (srcRead s).bind fun x t =>
      match x with
      | none => .ok () t
      | some b =>
        loadLoop fuel { t with ib := t.ib ++ [b], ft := countPut t.ft b.toNat (countGet t.ft b.toNat + 1) }

/-- `FtLoad()` (R171). -/
def loadInput (s : State) : Res Word32 :=
  if s.cfg.ibCap.toNat < s.src.length then .raised .illegalOperation s
  else (loadLoop (s.src.length + 1) { s with ib := [], ft := [] }).bind fun _ t => .ok t.ilen t

/-- Every `valid` bit, `NINT` and `ROOT_VALID` cleared, as TB_BUILD and TD_DESERIALIZE begin (R172, R181). -/
def clearTree (s : State) : State := { s with nm := [], nint := 0, rootValid := false }

/-- The leaf pass of `TbBuild` (R172) over the symbols still to come. -/
def pushLeaves : List Nat → State → Res Unit
  | [], s => .ok () s
  | sym :: rest, s =>
    let f := countGet s.ft sym
    if f = 0 then pushLeaves rest s
    else
      (pushKey (mkKey f (BitVec.ofNat 9 sym)) { s with nm := storePut s.nm sym ⟨f, none⟩ }).bind fun _ t =>
        pushLeaves rest t

/-- One merge of `TbBuild` (R172): the two minimal keys become the children of the next internal node. -/
def mergeOnce (s : State) : Res Unit :=
  (topKey s).bind fun a s =>
  (popKey s).bind fun _ s =>
  (topKey s).bind fun b s =>
  (popKey s).bind fun _ s =>
    let id := nextInnerId s.nint
    let f := keyFreq a + keyFreq b
    pushKey (mkKey f id)
      { s with nint := s.nint + 1, nm := storePut s.nm id.toNat ⟨f, some (keyId a, keyId b)⟩ }

/-- The merge loop of `TbBuild` (R172). Each pass shortens the queue by one, so fuel `HSIZE` is enough. -/
def mergeLoop : Nat → State → Res Unit
  | 0, s => .ok () s
  | fuel + 1, s => if s.hp.length ≤ 1 then .ok () s else (mergeOnce s).bind fun _ t => mergeLoop fuel t

/-- The end of `TbBuild` (R172): the sentinel leaf of an empty input (R174), or the merges and the root. -/
def finishTree (s : State) : Res Unit :=
  if s.hp.length = 0 then .ok () { s with nm := storePut s.nm 0 ⟨0, none⟩, root := 0, rootValid := true }
  else
    (mergeLoop s.hp.length s).bind fun _ s =>
    (topKey s).bind fun k s =>
    (popKey s).bind fun _ s => .ok () { s with root := keyId k, rootValid := true }

/-- `TbBuild()` (R172). -/
def buildTree (s : State) : Res Unit :=
  (pushLeaves (List.range alphabetSize) { clearTree s with hp := [] }).bind fun _ t => finishTree t

/-- `Ser` (R180) over T(id). -/
def serialize : Tree → State → Res Unit
  | .leaf sym, s => (putBit true s).bind fun _ t => putByte sym t
  | .node l r, s => (putBit false s).bind fun _ t => (serialize l t).bind fun _ u => serialize r u

/-- `TsSerialize()` (R180). -/
def serializeTree (s : State) : Res Unit := withTree s fun t => serialize t s

/-- The leaf branch of `Des` (R181): 8 symbol bits, the check for a repeated symbol, the leaf with frequency 0. -/
def readLeaf (s : State) : Res NodeId :=
  (getByte s).bind fun sym t =>
    if (storeGet t.nm sym.toNat).isSome then .raised .corruptStream t
    else .ok (leafId sym) { t with nm := storePut t.nm sym.toNat ⟨0, none⟩ }

/-- `NM[id].freq` of a node `Des` has just made (R181). -/
def nodeFreq (s : State) (id : NodeId) : Word32 :=
  match storeGet s.nm id.toNat with
  | some n => n.freq
  | none => 0

/-- The end of the internal branch of `Des` (R181): the next internal node over the two subtrees just read. -/
def makeInner (l r : NodeId) (s : State) : Res NodeId :=
  let id := nextInnerId s.nint
  .ok id
    { s with nint := s.nint + 1, nm := storePut s.nm id.toNat ⟨nodeFreq s l + nodeFreq s r, some (l, r)⟩ }

/-- `Des(d)` (R181) with `257 - d` levels left: none left is `d > 256`, refused before the flag bit is read. -/
def deserialize : Nat → State → Res NodeId
  | 0, s => .raised .corruptStream s
  | levels + 1, s =>
    (getBit s).bind fun flag t =>
      if flag then readLeaf t
      else
        (deserialize levels t).bind fun l u =>
        (deserialize levels u).bind fun r v => makeInner l r v

/-- `TdDeserialize()` (R181), inside the decode boundary (R256). -/
def deserializeTree (s : State) : Res Unit :=
  promote ((deserialize depthMax (clearTree s)).bind fun r t => .ok () { t with root := r, rootValid := true })

/-- FT_LOAD (R171). -/
def execFtLoad (s : State) : Host.Outcome State Fault Refusal :=
  command (fun s => (loadInput s).bind fun n t => .ok (n.setWidth 41) t) s

/-- TB_BUILD (R172). -/
def execTbBuild (s : State) : Host.Outcome State Fault Refusal := command (fun s => noResult (buildTree s)) s

/-- TS_SERIALIZE (R180). -/
def execTsSerialize (s : State) : Host.Outcome State Fault Refusal :=
  command (fun s => noResult (serializeTree s)) s

/-- TD_DESERIALIZE (R181). -/
def execTdDeserialize (s : State) : Host.Outcome State Fault Refusal :=
  command (fun s => noResult (deserializeTree s)) s

end Sys2Proof.Machine
end

