-- ==== Sys2Proof/Machine/Decoder.lean ====
section
/-! DEFINITION. huffman_decoder (spec/46_decoder.md R221, R222): the tree walk and the decompress pipeline. Neither reads nor
writes the code table (R220). -/

namespace Sys2Proof.Machine

/-- The inner loop of `DecWalk` (R221): from a node down to a leaf, one bit an edge, left on 0 and right on 1. -/
def walkToLeaf : Tree → State → Res Byte
  | .leaf sym, s => .ok sym s
  | .node l r, s => (getBit s).bind fun b t => if b then walkToLeaf r t else walkToLeaf l t

/-- `repeat n times: SnkWrite(b)` (R221). -/
def writeRepeated (b : Byte) : Nat → State → Res Unit
  | 0, s => .ok () s
  | n + 1, s => (snkWrite b s).bind fun _ t => writeRepeated b n t

/-- The outer loop of `DecWalk` (R221) with `rem` symbols to go. -/
def decodeLoop (t : Tree) : Nat → State → Res Unit
  | 0, s => .ok () s
  | rem + 1, s => (walkToLeaf t s).bind fun sym u => (snkWrite sym u).bind fun _ v => decodeLoop t rem v

/-- `DecWalk(n)` (R221): a single-leaf tree reads no bits. -/
def walkTree (t : Tree) (n : Nat) (s : State) : Res Unit :=
  match t with
  | .leaf sym => writeRepeated sym n s
  | .node _ _ => decodeLoop t n s

/-- `DecWalk(n)` (R221), inside the decode boundary (R256). -/
def decodeSymbols (n : Word32) (s : State) : Res Unit := promote (withTree s fun t => walkTree t n.toNat s)

/-- `DecDecompress()` (R222), inside the decode boundary (R256). -/
def decompress (s : State) : Res Word32 :=
  promote
    ((deserializeTree { s with rbuf := 0, rcnt := 0 }).bind fun _ s =>
      (getInt s).bind fun n s =>
      (decodeSymbols n s).bind fun _ s => .ok n s)

/-- DEC_WALK n (R221). -/
def execDecWalk (n : Word32) (s : State) : Host.Outcome State Fault Refusal :=
  command (fun s => noResult (decodeSymbols n s)) s

/-- DEC_DECOMPRESS (R222). -/
def execDecDecompress (s : State) : Host.Outcome State Fault Refusal :=
  command (fun s => (decompress s).bind fun n t => .ok (n.setWidth 41) t) s

end Sys2Proof.Machine
end

