-- ==== Sys2Proof/Machine/Encoder.lean ====
section
/-! DEFINITION. huffman_encoder (spec/45_encoder.md R200 to R203): the code table and the compress pipeline. -/

namespace Sys2Proof.Machine

/-- The code of a symbol, the empty sequence where `CT[s].len = 0` (R38). -/
def codeOf (ct : Store (List Bool)) (sym : Byte) : List Bool := (storeGet ct sym.toNat).getD []

/-- `Walk` (R201) over T(id): `path` holds the bits of the path so far, first edge first. -/
def walkCodes : Tree → List Bool → Store (List Bool) → Store (List Bool)
  | .leaf sym, path, ct => storePut ct sym.toNat path
  | .node l r, path, ct => walkCodes r (path ++ [true]) (walkCodes l (path ++ [false]) ct)

/-- The code table of a tree (R201): a single leaf has the code "0". -/
def codesOf : Tree → Store (List Bool)
  | .leaf sym => storePut [] sym.toNat [false]
  | t@(.node _ _) => walkCodes t [] []

/-- `CtDerive()` (R201). -/
def deriveCodes (s : State) : Res Unit := withTree s fun t => .ok () { s with ct := codesOf t }

/-- `EncEmit()` (R202) over the bytes still to be written. -/
def emitCodes : List Byte → State → Res Unit
  | [], s => .ok () s
  | b :: rest, s =>
    if codeOf s.ct b = [] then .raised .illegalOperation s
    else (putBits (codeOf s.ct b) s).bind fun _ t => emitCodes rest t

/-- `EncEmit()` (R202). -/
def emitInput (s : State) : Res Unit := emitCodes s.ib s

/-- `EncCompress()` (R203). -/
def compress (s : State) : Res Word32 :=
  (loadInput { s with wbuf := 0, wcnt := 0 }).bind fun _ s =>
  (buildTree s).bind fun _ s =>
  (serializeTree s).bind fun _ s =>
  (putInt s.ilen s).bind fun _ s =>
  (deriveCodes s).bind fun _ s =>
  (emitInput s).bind fun _ s =>
  (closeWriter s).bind fun _ s => .ok s.ilen s

/-- CT_DERIVE (R201). -/
def execCtDerive (s : State) : Host.Outcome State Fault Refusal := command (fun s => noResult (deriveCodes s)) s

/-- ENC_EMIT (R202). -/
def execEncEmit (s : State) : Host.Outcome State Fault Refusal := command (fun s => noResult (emitInput s)) s

/-- ENC_COMPRESS (R203). -/
def execEncCompress (s : State) : Host.Outcome State Fault Refusal :=
  command (fun s => (compress s).bind fun n t => .ok (n.setWidth 41) t) s

end Sys2Proof.Machine
end

