-- ==== Sys2Proof/Machine/System.lean ====
section
/-! DEFINITION. The system commands (spec/47_system.md R240, R241): the two that are performed whatever `ERR` holds (R86). -/

namespace Sys2Proof.Machine

/-- SYS_RESET (R240): performed whatever `ERR` holds; the response is all zero. -/
def execSysReset (s : State) : Host.Outcome State Fault Refusal := .next ((resetBlock s).respond 0)

/-- SYS_RDREG idx (R241): performed whatever `ERR` holds, and the one command that answers a value while `ERR != 0`. An index
of 7 to 15 names no register, so its word is illegal (R85); the decoder never gives one. -/
def execSysRdreg (idx : BitVec 4) (s : State) : Host.Outcome State Fault Refusal :=
  match regMap s idx with
  | some v => .next (s.respond v)
  | none => illegalWord s

end Sys2Proof.Machine
end

