-- ==== Sys2Proof/Machine/Dispatch.lean ====
section
/-! DEFINITION. The meaning of every command: one arm per row of spec/opcode_table.json. Each meaning holds its own command
entry (spec/30_encoding.md R86) and its response (R82). -/

namespace Sys2Proof.Machine

def exec (i : Instr) (s : State) : Host.Outcome State Fault Refusal :=
  match i with
  | .pqPush freq id => Sys2Proof.Machine.execPqPush freq id s
  | .pqTop => Sys2Proof.Machine.execPqTop s
  | .pqPop => Sys2Proof.Machine.execPqPop s
  | .pqSize => Sys2Proof.Machine.execPqSize s
  | .bwPutbit bit => Sys2Proof.Machine.execBwPutbit bit s
  | .bwPutbyte b => Sys2Proof.Machine.execBwPutbyte b s
  | .bwPutint v => Sys2Proof.Machine.execBwPutint v s
  | .bwClose => Sys2Proof.Machine.execBwClose s
  | .brGetbit => Sys2Proof.Machine.execBrGetbit s
  | .brGetbyte => Sys2Proof.Machine.execBrGetbyte s
  | .brGetint => Sys2Proof.Machine.execBrGetint s
  | .ftLoad => Sys2Proof.Machine.execFtLoad s
  | .tbBuild => Sys2Proof.Machine.execTbBuild s
  | .tsSerialize => Sys2Proof.Machine.execTsSerialize s
  | .tdDeserialize => Sys2Proof.Machine.execTdDeserialize s
  | .ctDerive => Sys2Proof.Machine.execCtDerive s
  | .encEmit => Sys2Proof.Machine.execEncEmit s
  | .encCompress => Sys2Proof.Machine.execEncCompress s
  | .decWalk n => Sys2Proof.Machine.execDecWalk n s
  | .decDecompress => Sys2Proof.Machine.execDecDecompress s
  | .sysReset => Sys2Proof.Machine.execSysReset s
  | .sysRdreg idx => Sys2Proof.Machine.execSysRdreg idx s

end Sys2Proof.Machine
end

