-- ==== Sys2Proof/Machine/HostPort.lean ====
section
/-! DEFINITION. What the host does to the block: it hands over command words (spec/30_encoding.md R86) and, between commands,
places `src`, empties `snk` or asserts the hardware reset (spec/10_state.md R40, R41; spec/70_reset_and_hazards.md R280,
R282). -/

namespace Sys2Proof.Machine

/-- The block receives a command word (R86). -/
def receive (cw : Word64) (s : State) : Host.Outcome State Fault Refusal :=
  match decode cw with
  | .ok i => exec i s
  | .error _ => illegalWord s

/-- The next act of the host. With none, the block holds its state and does nothing (R264). -/
def hostStep (s : State) : Host.Outcome State Fault Refusal :=
  match s.host with
  | [] => .next s
  | .command cw :: rest => receive cw { s with host := rest }
  | .setSrc bytes :: rest => .next { s with host := rest, src := bytes }
  | .emptySnk :: rest => .next { s with host := rest, snk := [] }
  | .hardReset :: rest => .next (resetBlock { s with host := rest })

/-- The host's next act becomes handing over the word whose low `nbits` bits are those of `w`. -/
def placeWord (s : State) (nbits w : Nat) : State :=
  { s with host := .command (tableWord nbits w) :: s.host }

end Sys2Proof.Machine
end

