-- ==== Sys2Proof/Machine/Step.lean ====
section
/-! DEFINITION. The step: the next act of the host, which is one command or one act between two commands. -/

namespace Sys2Proof.Machine

/-- One step. -/
def step (s : State) : Host.Outcome State Fault Refusal := Sys2Proof.Machine.hostStep s

/-- `s` with the word `w` of `nbits` bits as the command the host hands over next. -/
def State.withFetchWord (s : State) (nbits w : Nat) : State := Sys2Proof.Machine.placeWord s nbits w

end Sys2Proof.Machine
end

