-- ==== Sys2Proof/Machine/Assembler.lean ====
section
/-! DEFINITION. The assembler syntax (spec/30_encoding.md R89): the command word a written line stands for. No step reads it;
the host's programs are written in it (spec/95_test_vectors.md part 3). -/

namespace Sys2Proof

/-- A line without its comment; a `;` inside a character operand starts none. -/
def asmStrip : List Char → List Char
  | [] => []
  | '\'' :: c :: '\'' :: rest => '\'' :: c :: '\'' :: asmStrip rest
  | c :: rest => if c = ';' then [] else c :: asmStrip rest

/-- Text without the blanks around it. -/
def asmTrim (text : List Char) : List Char :=
  ((text.dropWhile (· = ' ')).reverse.dropWhile (· = ' ')).reverse

/-- The value of a digit character. -/
def asmDigit (c : Char) : Option Nat :=
  let n := c.toNat
  if 48 ≤ n ∧ n ≤ 57 then some (n - 48)
  else if 65 ≤ n ∧ n ≤ 70 then some (n - 55)
  else if 97 ≤ n ∧ n ≤ 102 then some (n - 87)
  else none

/-- The value of a sequence of digits of a base, after the value of those before. -/
def asmDigits (base : Nat) : List Char → Nat → Option Nat
  | [], acc => some acc
  | c :: rest, acc =>
    match asmDigit c with
    | some d => if d < base then asmDigits base rest (acc * base + d) else none
    | none => none

/-- An unsigned numeral, decimal or `0x` hexadecimal. -/
def asmNumeral : List Char → Option Nat
  | [] => none
  | ['0', 'x'] => none
  | '0' :: 'x' :: rest => asmDigits 16 rest 0
  | text => asmDigits 10 text 0

/-- A numeral below a bound. -/
def asmBelow (bound : Nat) (text : List Char) : Option Nat :=
  match asmNumeral text with
  | some n => if n < bound then some n else none
  | none => none

/-- The `arg` field written after the mnemonic of a command of a format (R81, R89); a byte may be a character in quotes. -/
def asmArg (f : Format) (text : List Char) : Option Value :=
  match f with
  | .z => if text = [] then some 0 else none
  | .b1 => (asmBelow 2 text).map (BitVec.ofNat 41)
  | .b8 =>
    match text with
    | ['\'', c, '\''] => if c.toNat < 128 then some (BitVec.ofNat 41 c.toNat) else none
    | _ => (asmBelow 256 text).map (BitVec.ofNat 41)
  | .w32 => (asmBelow (2 ^ 32) text).map (BitVec.ofNat 41)
  | .r4 => (asmBelow 16 text).map (BitVec.ofNat 41)
  | .k41 =>
    match asmBelow (2 ^ 32) (asmTrim (text.takeWhile (· ≠ ','))),
        asmBelow (2 ^ 9) (asmTrim ((text.dropWhile (· ≠ ',')).drop 1)) with
    | some freq, some id => some (BitVec.ofNat 41 (freq * 2 ^ 9 + id))
    | _, _ => none

/-- The pseudo-command `BW_PUTCHAR b` is `BW_PUTBYTE b` (R89). -/
def asmMnemonic (name : List Char) : List Char :=
  if name = "BW_PUTCHAR".toList then "BW_PUTBYTE".toList else name

/-- The command word of a written line, `op << 56 | arg` (R89); `none` for a line that is no command. -/
def assemble (line : List Char) : Option Word64 :=
  let text := asmTrim (asmStrip line)
  let name := asmMnemonic (text.takeWhile (· ≠ ' '))
  match opcodeTable.find? (fun row => row.mnemonic.toList = name) with
  | none => none
  | some row =>
    match formatOf (opField row.pattern) with
    | none => none
    | some f => (asmArg f (asmTrim (text.dropWhile (· ≠ ' ')))).map fun arg => row.pattern ||| arg.setWidth 64

end Sys2Proof
end

