-- ==== Sys2Proof/Safety.lean ====
section
/-! DEFINITION. The terms claims use: bit streams (spec/00_scope.md R10), what a tree spells and which codes it gives
(spec/30_encoding.md R101, R103), the order of the queue (spec/41_priority_queue.md R110), the invariants that hold between
operations, which command may raise what (spec/60_exceptions.md R251), what each command leaves unchanged, the launch premises of a run
(spec/70_reset_and_hazards.md R282), and the runs of command lists. -/

namespace Sys2Proof.Machine

/-! ### Bit streams -/

/-- The bit stream a byte sequence carries (R10): bit 7 of the first byte first. -/
def bitsOfBytes (bytes : List Byte) : List Bool := bytes.flatMap bitsMsb

/-- `v[n-1:0]`, bit `n-1` first. -/
def lowBits (n : Nat) (v : Byte) : List Bool := (List.range n).map fun i => v.getLsbD (n - 1 - i)

/-- Every bit ever given to the bit writer, in order: those in `snk`, then those waiting in `WBUF` (R24, R42). -/
def written (s : State) : List Bool := bitsOfBytes s.snk ++ lowBits s.wcnt.toNat s.wbuf

/-- The bits the bit reader has still to return, in order: those left in `RBUF`, then those of `src` (R25, R42). -/
def unread (s : State) : List Bool := lowBits s.rcnt.toNat s.rbuf ++ bitsOfBytes s.src

/-- The zero bits that complete a stream of `n` bits to whole bytes (R104, R135). -/
def padding (n : Nat) : List Bool := List.replicate ((8 - n % 8) % 8) false

/-- The value whose bits, most significant first, are the last bits of the sequence (R63). -/
def valueOfBits (w : Nat) (bits : List Bool) : BitVec w := bits.foldl shiftIn 0

/-- The bit writer's buffer invariant (R130). -/
abbrev WriterOk (s : State) : Prop := s.wcnt.toNat ≤ 7 ∧ s.wbuf.toNat < 2 ^ s.wcnt.toNat

/-- The bit reader's buffer invariant (R150). -/
abbrev ReaderOk (s : State) : Prop := s.rcnt.toNat ≤ 7

/-! ### Trees -/

/-- The symbols of the leaves, left to right. -/
def treeSymbols : Tree → List Byte
  | .leaf sym => [sym]
  | .node l r => treeSymbols l ++ treeSymbols r

/-- The number of nodes on the longest path from the root to a leaf (R34 (f)). -/
def treeDepth : Tree → Nat
  | .leaf _ => 1
  | .node l r => max (treeDepth l) (treeDepth r) + 1

/-- The serialized tree (R101). -/
def treeBits : Tree → List Bool
  | .leaf sym => true :: bitsMsb sym
  | .node l r => false :: (treeBits l ++ treeBits r)

/-- The edge labels from the root to the first leaf of a symbol, left 0 and right 1 (R103). -/
def treePath : Tree → Byte → Option (List Bool)
  | .leaf sym, b => if sym = b then some [] else none
  | .node l r, b =>
    match treePath l b with
    | some p => some (false :: p)
    | none => (treePath r b).map (true :: ·)

/-- The code a tree gives a symbol, empty for a symbol without a leaf; a single leaf's symbol has the code 0 (R103, R201). -/
def treeCode (t : Tree) (b : Byte) : List Bool :=
  match t with
  | .leaf sym => if sym = b then [false] else []
  | .node _ _ => (treePath t b).getD []

/-- The codes of a byte sequence, in order (R103). -/
def encodeBytes (t : Tree) (bytes : List Byte) : List Bool := bytes.flatMap (treeCode t)

/-- The bits the decoder reads for a symbol sequence: none for a single leaf (R103, R221). -/
def decoderBits (t : Tree) (bytes : List Byte) : List Bool :=
  match t with
  | .leaf _ => []
  | .node _ _ => encodeBytes t bytes

/-- The node ids of T(id) in pre-order, on fuel, a node met on two paths listed twice. -/
def treeIds (nm : Store Node) : Nat → NodeId → List Nat
  | 0, _ => []
  | fuel + 1, id =>
    if isLeafId id then [id.toNat]
    else
      match storeGet nm id.toNat with
      | some ⟨_, some (l, r)⟩ => id.toNat :: (treeIds nm fuel l ++ treeIds nm fuel r)
      | _ => [id.toNat]

/-- `NM[id].valid` (R33). -/
abbrev nodeValid (nm : Store Node) (id : Nat) : Prop := (storeGet nm id).isSome

/-- What node memory holds whether or not there is a current tree: ids 0 to 510, leaves below 256, the internal nodes exactly
256 to 255 + NINT, children valid, below their parent and different (R27, R33, R34 (b), (e)). -/
abbrev NodesOk (s : State) : Prop :=
  storeSorted s.nm ∧ s.nint.toNat ≤ 255 ∧
  (∀ e ∈ s.nm, e.1 < nodeMemSize ∧ (e.2.kids.isSome ↔ 256 ≤ e.1) ∧
    (256 ≤ e.1 → e.1 < 256 + s.nint.toNat) ∧
    (∀ k ∈ e.2.kids, k.1.toNat < e.1 ∧ k.2.toNat < e.1 ∧ k.1 ≠ k.2 ∧
      nodeValid s.nm k.1.toNat ∧ nodeValid s.nm k.2.toNat)) ∧
  (∀ k < s.nint.toNat, nodeValid s.nm (256 + k))

/-- The tree invariants (R34) of the current tree: (a) and (c) the valid nodes are those of T(ROOT), each met once; (b), (d)
and the first half of (e) are `NodesOk`; (e) there is one leaf more than internal nodes; (f) no path exceeds 256 nodes. -/
abbrev TreeOk (s : State) : Prop :=
  NodesOk s ∧
  (∃ t, s.tree = some t ∧ treeDepth t ≤ depthMax ∧ (treeSymbols t).Nodup ∧
    (treeSymbols t).length = s.nint.toNat + 1) ∧
  (treeIds s.nm nodeMemSize s.root).Nodup ∧
  (∀ id < nodeMemSize, nodeValid s.nm id ↔ id ∈ treeIds s.nm nodeMemSize s.root)

/-- Node memory between operations: `NodesOk` always, the tree invariants whenever `ROOT_VALID = 1` (R34). -/
abbrev TreeInv (s : State) : Prop := NodesOk s ∧ (s.rootValid = true → TreeOk s)

/-! ### The queue -/

/-- The heap property (R110): no element precedes its parent. -/
abbrev HeapOrdered (hp : List Key) : Prop := ∀ i < hp.length, 0 < i → hpGet hp (parentPos i) ≤ hpGet hp i

/-- The queue between operations: at most 256 elements, in heap order (R26, R110). -/
abbrev QueueInv (s : State) : Prop := s.hp.length ≤ heapCap ∧ HeapOrdered s.hp

/-- Insertion into an ascending list of keys. -/
def insertKey (k : Key) : List Key → List Key
  | [] => [k]
  | x :: rest => if k ≤ x then k :: x :: rest else x :: insertKey k rest

/-- The queue as an ascending list: a push inserts, a pop drops the head (R115). -/
def queueSpec : List Instr → List Key → List Key
  | [], q => q
  | .pqPush freq id :: rest, q => queueSpec rest (insertKey (mkKey freq id) q)
  | .pqPop :: rest, q => queueSpec rest q.tail
  | _ :: rest, q => queueSpec rest q

/-- A push or a pop. -/
def isPushPop : Instr → Bool
  | .pqPush _ _ | .pqPop => true
  | _ => false

/-- The leaf keys of a frequency table in ascending symbol order (R172). -/
def leafKeys (ft : Store Word32) : List Key :=
  (List.range alphabetSize).filterMap fun sym =>
    if countGet ft sym = 0 then none else some (mkKey (countGet ft sym) (BitVec.ofNat 9 sym))

/-- The merges of R172 over an ascending list: the two smallest keys become the children of the next internal node. The
answer is the last key, NINT and node memory. -/
def mergeSpec : Nat → List Key → BitVec 9 → Store Node → List Key × BitVec 9 × Store Node
  | fuel + 1, a :: b :: rest, nint, nm =>
    mergeSpec fuel (insertKey (mkKey (keyFreq a + keyFreq b) (nextInnerId nint)) rest) (nint + 1)
      (storePut nm (nextInnerId nint).toNat ⟨keyFreq a + keyFreq b, some (keyId a, keyId b)⟩)
  | _, q, nint, nm => (q, nint, nm)

/-! ### The other invariants -/

/-- The bit buffers between operations (R24, R25, R130, R150). A failed `SnkWrite` inside PutBit ends the command with the
eighth bit still held (R252), so after an IOError `WCNT` may be 8. -/
abbrev BufferInv (s : State) : Prop :=
  ReaderOk s ∧ (if s.err = some .ioError then s.wcnt.toNat ≤ 8 else WriterOk s)

/-- The sparse tables are in canonical form: indices strictly rising and inside the memory, no 0 listed in `FT`. -/
abbrev Memory.wf (s : State) : Prop :=
  (storeSorted s.nm ∧ ∀ e ∈ s.nm, e.1 < nodeMemSize) ∧
  (storeSorted s.ft ∧ ∀ e ∈ s.ft, e.1 < alphabetSize ∧ e.2 ≠ 0) ∧
  (storeSorted s.ct ∧ ∀ e ∈ s.ct, e.1 < alphabetSize ∧ e.2 ≠ [])

/-- The input buffer fits `IB_CAP`, and `FT` counts its bytes (R29, R36). -/
abbrev InputInv (s : State) : Prop :=
  s.cfg.Ok ∧ s.ib.length ≤ s.cfg.ibCap.toNat ∧
  ∀ sym < alphabetSize, (countGet s.ft sym).toNat = s.ib.count (BitVec.ofNat 8 sym)

/-- The bound codes have 1 to 255 bits and none is a prefix of another (R38, R200). -/
abbrev CodeInv (s : State) : Prop :=
  ∀ e ∈ s.ct, 1 ≤ e.2.length ∧ e.2.length ≤ codeMax ∧ ∀ f ∈ s.ct, e.2 <+: f.2 → e = f

/-! ### Errors and frames -/

/-- A command's word has `op` in bits 63:56, 0 in bits 55:41 and `arg` in bits 40:0 (R80): the "Encoding" clause of its rule. -/
abbrev SpeltBy (i : Instr) (op : BitVec 8) (arg : Value) : Prop := decode (op ++ (0#15) ++ arg) = .ok i

/-- What a command may raise (R251). -/
def mayRaise : Instr → ErrorKind → Bool
  | .pqPush _ _, .illegalOperation => true
  | .pqTop, .underflow | .pqPop, .underflow => true
  | .brGetbit, .endOfStream | .brGetbyte, .endOfStream | .brGetint, .endOfStream => true
  | .ftLoad, .illegalOperation | .tsSerialize, .illegalOperation => true
  | .tdDeserialize, .corruptStream => true
  | .ctDerive, .illegalOperation | .encEmit, .illegalOperation | .encCompress, .illegalOperation => true
  | .decWalk _, .illegalOperation | .decWalk _, .corruptStream => true
  | .decDecompress, .corruptStream => true
  | _, _ => false

/-- The commands that call `SrcRead` or `SnkWrite`, which alone can raise IOError (R251, R258). -/
def usesChannel : Instr → Bool
  | .bwPutbit _ | .bwPutbyte _ | .bwPutint _ | .bwClose => true
  | .brGetbit | .brGetbyte | .brGetint => true
  | .ftLoad | .tsSerialize | .tdDeserialize | .encEmit | .encCompress | .decWalk _ | .decDecompress => true
  | _ => false

/-- The commands whose response carries a result (R82). -/
def hasResult : Instr → Bool
  | .pqTop | .pqSize | .brGetbit | .brGetbyte | .brGetint => true
  | .ftLoad | .encCompress | .decDecompress | .sysRdreg _ => true
  | _ => false

/-- What a command leaves unchanged when it answers state `t` from state `s`: `t` differs from `s` in the named fields alone.
Every command may write `ERR` (but SYS_RDREG with a legal index) and the responses; the channel commands use up answers of
`io`. The writers of each field are those of R23 to R41. -/
def Frame : Instr → State → State → Prop
  | .pqPush _ _, s, t | .pqPop, s, t => t = { s with err := t.err, rsp := t.rsp, hp := t.hp }
  | .pqTop, s, t | .pqSize, s, t => t = { s with err := t.err, rsp := t.rsp }
  | .bwPutbit _, s, t | .bwPutbyte _, s, t | .bwPutint _, s, t | .bwClose, s, t | .tsSerialize, s, t | .encEmit, s, t =>
    t = { s with err := t.err, rsp := t.rsp, io := t.io, wbuf := t.wbuf, wcnt := t.wcnt, snk := t.snk }
  | .brGetbit, s, t | .brGetbyte, s, t | .brGetint, s, t =>
    t = { s with err := t.err, rsp := t.rsp, io := t.io, rbuf := t.rbuf, rcnt := t.rcnt, src := t.src }
  | .ftLoad, s, t => t = { s with err := t.err, rsp := t.rsp, io := t.io, ft := t.ft, ib := t.ib, src := t.src }
  | .tbBuild, s, t =>
    t = { s with err := t.err, rsp := t.rsp, hp := t.hp, nm := t.nm, nint := t.nint, root := t.root,
                 rootValid := t.rootValid }
  | .tdDeserialize, s, t =>
    t = { s with err := t.err, rsp := t.rsp, io := t.io, rbuf := t.rbuf, rcnt := t.rcnt, src := t.src, nm := t.nm,
                 nint := t.nint, root := t.root, rootValid := t.rootValid }
  | .ctDerive, s, t => t = { s with err := t.err, rsp := t.rsp, ct := t.ct }
  | .encCompress, s, t =>
    t = { s with err := t.err, rsp := t.rsp, io := t.io, wbuf := t.wbuf, wcnt := t.wcnt, snk := t.snk, src := t.src,
                 ft := t.ft, ib := t.ib, hp := t.hp, nm := t.nm, nint := t.nint, root := t.root,
                 rootValid := t.rootValid, ct := t.ct }
  | .decWalk _, s, t =>
    t = { s with err := t.err, rsp := t.rsp, io := t.io, rbuf := t.rbuf, rcnt := t.rcnt, src := t.src, snk := t.snk }
  | .decDecompress, s, t =>
    t = { s with err := t.err, rsp := t.rsp, io := t.io, rbuf := t.rbuf, rcnt := t.rcnt, src := t.src, snk := t.snk,
                 nm := t.nm, nint := t.nint, root := t.root, rootValid := t.rootValid }
  | .sysReset, s, t =>
    t = { State.reset with src := s.src, snk := s.snk, cfg := s.cfg, io := s.io, host := s.host, rsp := t.rsp }
  | .sysRdreg _, s, t => t = { s with err := t.err, rsp := t.rsp }

/-- The commands that take bytes of `src` through the bit reader as it stands. -/
def readsBits : Instr → Bool
  | .brGetbit | .brGetbyte | .brGetint | .tdDeserialize | .decWalk _ => true
  | _ => false

/-- `RBUF` is the last byte taken from `src`, unchanged (R25, R150); `before` when none was taken. -/
abbrev LastByteHeld (before : Byte) (s t : State) : Prop :=
  (t.src = s.src ∧ t.rbuf = before) ∨ ∃ pre : List Byte, s.src = pre ++ t.rbuf :: t.src

/-! ### Launch premises (R282) -/

/-- R282 (a): before the command the host has placed the whole input in `src`. -/
abbrev InputPlaced (input : List Byte) (s : State) : Prop := s.src = input

/-- R282 (b): what the host does in this step is hand over the word `cw` and nothing else. The command runs whole inside the
step, so `src` and `snk` are left alone while it runs. -/
abbrev HandsOver (cw : Word64) (s : State) : Prop := s.host.head? = some (.command cw)

/-- R282 (c): the result of a command is the bytes appended to `snk` during it. -/
abbrev Appended (out : List Byte) (s t : State) : Prop := t.snk = s.snk ++ out

/-- R282 (d): while an error stands, the host's next act, if it plans one, is SYS_RESET. -/
abbrev ResetsAfterError (s : State) : Prop :=
  s.err ≠ none → s.host = [] ∨ HandsOver (encode .sysReset) s

/-- R282 (e): the input fits the input buffer, `|src| <= IB_CAP`. -/
abbrev InputFits (s : State) : Prop := s.src.length ≤ s.cfg.ibCap.toNat

/-- The launch premises of a command `i` over an input (R282): (a), (b), (d), and (e) for ENC_COMPRESS. With (b), (d) leaves
`ERR = 0` for every command but SYS_RESET. -/
abbrev Launch (i : Instr) (input : List Byte) (s : State) : Prop :=
  InputPlaced input s ∧ HandsOver (encode i) s ∧ ResetsAfterError s ∧ (i = .encCompress → InputFits s)

/-! ### Runs of command lists -/

/-- Commands one after another, as the host issues them; stops at a fault or a refusal. -/
def execAll : List Instr → State → Host.Outcome State Fault Refusal
  | [], s => .next s
  | i :: rest, s =>
    match exec i s with
    | .next t => execAll rest t
    | .fault f => .fault f
    | .refused r => .refused r

/-- The bits a bit writer command writes; `none` for every other command. -/
def putBitsOf : Instr → Option (List Bool)
  | .bwPutbit bit => some [bit]
  | .bwPutbyte b => some (bitsMsb b)
  | .bwPutint v => some (bitsMsb v)
  | _ => none

/-- The bit reader command of the width a bit writer command writes. -/
def readerOf : Instr → Instr
  | .bwPutbit _ => .brGetbit
  | .bwPutbyte _ => .brGetbyte
  | .bwPutint _ => .brGetint
  | i => i

end Sys2Proof.Machine
end

