-- ==== Sys2Proof/Certificates/Slice0/Obligations.lean ====
section
/-! DEFINITION. The statements for the provers. Each names the rules it formalises; those whose docstring says "derived" rest
on a reading of the cited sections. A premise `s.io = []` is the spec's default `io_fault = never` (R8, R258); what happens
when an access fails is stated by `IoFaultRaisesIOError`. `rsp` is the model's record of the response words (log entry 2):
`rsp := s.rsp ++ [rw]` says that the command's response word is `rw`. -/

open Sys2Proof Sys2Proof.Machine

/-! ### Encoding -/

/-- Every well-formed command is what the decoder reads from its own word, with every operand at every value (derived from
R80, R81, R83, R89). -/
def Obligations.DecodeInvertsEncode : Prop :=
  ∀ i : Instr, i.wf = true → decode (encode i) = .ok i

/-- A legal word spells one well-formed command and is that command's only word (derived from R81, R85). -/
def Obligations.LegalWordIsItsCommandsEncoding : Prop :=
  ∀ (cw : Word64) (i : Instr), decode cw = .ok i → i.wf = true ∧ encode i = cw

/-- R84: a word spells the command of a row iff `CW and mask = match`, and for SYS_RDREG the index must be at most 6;
no word matches two rows. -/
def Obligations.WordSpellsTheRowItMatches : Prop :=
  (∀ a ∈ opcodeTable, ∀ b ∈ opcodeTable, ∀ cw : Word64,
    cw &&& a.mask = a.pattern → cw &&& b.mask = b.pattern → a = b) ∧
  ∀ (cw : Word64) (m : String),
    (∃ i, decode cw = .ok i ∧ i.mnemonic = m) ↔
      ∃ row ∈ opcodeTable, row.mnemonic = m ∧ cw &&& row.mask = row.pattern ∧
        (m = "SYS_RDREG" → (cw &&& 0xF).toNat ≤ 6)

/-- Words the spec prints decode to the commands it says they are (derived from spec/95_test_vectors.md part 3). -/
def Obligations.PrintedWordsDecode : Prop :=
  decode 0x1000000000000661 = .ok (.pqPush 3 97) ∧
  decode 0x100001FFFFFFFFFE = .ok (.pqPush 0xFFFFFFFF 510) ∧
  decode 0x2000000000000001 = .ok (.bwPutbit true) ∧
  decode 0x2100000000000061 = .ok (.bwPutbyte 0x61) ∧
  decode 0x2200000001020304 = .ok (.bwPutint 0x01020304) ∧
  decode 0x6000000000000004 = .ok (.decWalk 4) ∧
  decode 0x7100000000000005 = .ok (.sysRdreg 5) ∧
  decode 0x5200000000000000 = .ok .encCompress ∧
  decode 0x1100000000000001 = .error .operandBits ∧
  decode 0x1000020000000000 = .error .reservedBits ∧
  decode 0x7100000000000007 = .error .registerIndex ∧
  decode 0 = .error .unknownOpcode

/-- R89: lines the spec prints stand for the words it prints beside them (derived from R89 and spec/95_test_vectors.md). -/
def Obligations.PrintedLinesAssemble : Prop :=
  assemble "PQ_PUSH 0xFFFFFFFF, 510".toList = some 0x100001FFFFFFFFFE ∧
  assemble "PQ_PUSH 5, 97".toList = some 0x1000000000000A61 ∧
  assemble "BW_PUTBIT 1".toList = some 0x2000000000000001 ∧
  assemble "BW_PUTCHAR 'a'".toList = some 0x2100000000000061 ∧
  assemble "BW_PUTINT 0x01020304".toList = some 0x2200000001020304 ∧
  assemble "DEC_WALK 4".toList = some 0x6000000000000004 ∧
  assemble "SYS_RDREG 9".toList = some 0x7100000000000009 ∧
  assemble "ENC_COMPRESS".toList = some 0x5200000000000000

/-! ### Command entry, responses, the host -/

/-- The host's next command word, when it decodes to `i`, makes the step `exec` of `i` on the state without that word in the
host's plans; `exec` holds the command entry of R86 and the response of R82 (derived from R86; that the word waits in `host`
is the model's choice, log entry 1). -/
def Obligations.StepRunsTheDecodedCommand : Prop :=
  ∀ (s : State) (cw : Word64) (rest : List HostEvent) (i : Instr),
    s.host = .command cw :: rest → decode cw = .ok i → step s = exec i { s with host := rest }

/-- R85, R86: an illegal word raises IllegalOperation when `ERR = 0` (the response is 0xA000000000000000) and is ignored
otherwise, the response carrying the standing `ERR` and value 0 (derived: the host's plans are the model's). -/
def Obligations.IllegalWordRaisesOrIsIgnored : Prop :=
  ∀ (s : State) (cw : Word64) (rest : List HostEvent) (e : DecodeError),
    s.host = .command cw :: rest → decode cw = .error e →
      step s =
        match s.err with
        | none => .next { s with host := rest, err := some .illegalOperation, rsp := s.rsp ++ [0xA000000000000000] }
        | some k => .next { s with host := rest, rsp := s.rsp ++ [responseWord (some k) 0] }

/-- Between commands the host places `src`, empties `snk` or asserts the hardware reset, and nothing else changes; with no
plan the block holds its state (derived from R40, R41, R264, R280; the list of plans is the model's, log entry 1). -/
def Obligations.HostActsBetweenCommands : Prop :=
  ∀ (s : State) (rest : List HostEvent) (bytes : List Byte),
    (s.host = [] → step s = .next s) ∧
    (s.host = .setSrc bytes :: rest → step s = .next { s with host := rest, src := bytes }) ∧
    (s.host = .emptySnk :: rest → step s = .next { s with host := rest, snk := [] }) ∧
    (s.host = .hardReset :: rest →
      step s =
        .next { State.reset with src := s.src, snk := s.snk, cfg := s.cfg, io := s.io, host := rest, rsp := s.rsp })

/-- R254: while `ERR != 0` every command except a legal SYS_RESET and a legal SYS_RDREG is ignored: it changes no state and
responds with the standing `ERR` and value 0; nothing but SYS_RESET changes a standing `ERR`. -/
def Obligations.ErrorStateIgnoresCommands : Prop :=
  (∀ (i : Instr) (s : State) (e : ErrorKind), s.err = some e →
    i ≠ .sysReset → (∀ idx, i = .sysRdreg idx → 7 ≤ idx.toNat) →
      exec i s = .next { s with rsp := s.rsp ++ [responseWord (some e) 0] }) ∧
  ∀ (i : Instr) (s t : State) (e : ErrorKind), s.err = some e → i ≠ .sysReset → exec i s = .next t → t.err = some e

/-- R82: every command that answers gives exactly one response word, with `ERR` as it stands after the command in bits 63:61,
0 in bits 60:41 and the value in bits 40:0; the value is 0 for a command without a result, and for every command but
SYS_RDREG when `ERR` is not 0 afterwards (derived: R241 excepts SYS_RDREG, log entry 12). -/
def Obligations.EveryCommandAnswersOnce : Prop :=
  ∀ (i : Instr) (s t : State), exec i s = .next t →
    ∃ (rw : Word64) (v : Value), t.rsp = s.rsp ++ [rw] ∧
      rw.extractLsb' 61 3 = errCode t.err ∧ rw.extractLsb' 41 20 = 0 ∧ rw.extractLsb' 0 41 = v ∧
      (hasResult i = false → v = 0) ∧ (t.err ≠ none → (∀ idx, i ≠ .sysRdreg idx) → v = 0)

/-- R251: which operations can raise what, complete. An error other than IOError is one of the command's own; IOError comes
from a failing channel access of a command that uses a channel; ENC_COMPRESS raises IllegalOperation for the length only; a
word that decodes to no command raises IllegalOperation. -/
def Obligations.OnlyListedErrorsAreRaised : Prop :=
  (∀ (i : Instr) (s t : State) (e : ErrorKind), i.wf = true → s.err = none → exec i s = .next t → t.err = some e →
    (e ≠ .ioError → mayRaise i e = true) ∧
    (e = .ioError → usesChannel i = true ∧ true ∈ s.io) ∧
    (i = .encCompress → e = .illegalOperation → s.cfg.ibCap.toNat < s.src.length)) ∧
  (∀ (cw : Word64) (k : DecodeError) (s : State), decode cw = .error k → s.err = none →
    ∃ t, receive cw s = .next t ∧ t.err = some .illegalOperation)

/-- R251: each command does raise, in some state, each error the rule lists for it, and IOError when it uses a channel
(derived: R251 says which errors are possible). -/
def Obligations.ListedErrorsCanBeRaised : Prop :=
  ∀ (i : Instr) (e : ErrorKind), mayRaise i e = true ∨ (e = .ioError ∧ usesChannel i = true) →
    (∀ n, i = .decWalk n → n ≠ 0 ∨ e = .illegalOperation) →
      ∃ s t, s.err = none ∧ exec i s = .next t ∧ t.err = some e

/-- R250: the numeric codes of `ERR`. -/
def Obligations.ErrorCodes : Prop :=
  errCode none = 0 ∧ errCode (some .underflow) = 1 ∧ errCode (some .endOfStream) = 2 ∧
  errCode (some .corruptStream) = 3 ∧ errCode (some .ioError) = 4 ∧ errCode (some .illegalOperation) = 5

/-! ### Reset and the register map -/

/-- R280: the values the spec gives for reset: every register 0, no live queue element, no valid node, every `FT` entry 0,
no live input byte, no symbol bound; the hardware reset gives them whatever the state, `src` and `snk` unchanged (derived: the
invariants R280 names are stated apart). -/
def Obligations.ResetValues : Prop :=
  (State.reset.err = none ∧ State.reset.wbuf = 0 ∧ State.reset.wcnt = 0 ∧ State.reset.rbuf = 0 ∧ State.reset.rcnt = 0 ∧
    State.reset.hsize = 0 ∧ State.reset.nint = 0 ∧ State.reset.root = 0 ∧ State.reset.rootValid = false ∧
    State.reset.ilen = 0 ∧ (∀ id, storeGet State.reset.nm id = none) ∧ (∀ sym, countGet State.reset.ft sym = 0) ∧
    (∀ sym, codeOf State.reset.ct sym = [])) ∧
  ∀ (s : State) (rest : List HostEvent), s.host = .hardReset :: rest →
    step s = .next { State.reset with src := s.src, snk := s.snk, cfg := s.cfg, io := s.io, host := rest, rsp := s.rsp }

/-- R240: SYS_RESET is performed whatever `ERR` holds, gives the reset state with `src` and `snk` (and the environment)
unchanged, and its response word is all zero. -/
def Obligations.SysResetResult : Prop :=
  SpeltBy .sysReset 0x70 0 ∧
  ∀ s : State,
    exec .sysReset s =
      .next { State.reset with
              src := s.src, snk := s.snk, cfg := s.cfg, io := s.io, host := s.host, rsp := s.rsp ++ [0] }

/-- R45, R241: SYS_RDREG returns the register named by its index, whatever `ERR` holds, and changes nothing else; an index of
7 to 15 is answered as an illegal word. `HSIZE` is the number of elements of a queue of at most 256, `ILEN` that of the bytes of
a buffer below 2^32. -/
def Obligations.SysRdregResult : Prop :=
  (∀ idx : BitVec 4, idx.toNat ≤ 6 → SpeltBy (.sysRdreg idx) 0x71 (idx.setWidth 41)) ∧
  ∀ (s : State) (idx : BitVec 4),
    (∀ v : Value,
      (idx = 0 ∧ v.toNat = 8 * s.rootValid.toNat + (errCode s.err).toNat) ∨
      (idx = 1 ∧ v.toNat = 256 * s.wcnt.toNat + s.wbuf.toNat) ∨
      (idx = 2 ∧ v.toNat = 256 * s.rcnt.toNat + s.rbuf.toNat) ∨
      (idx = 3 ∧ v.toNat = s.hsize.toNat) ∨ (idx = 4 ∧ v.toNat = s.ilen.toNat) ∨
      (idx = 5 ∧ v.toNat = s.root.toNat) ∨ (idx = 6 ∧ v.toNat = s.nint.toNat) →
        exec (.sysRdreg idx) s = .next { s with rsp := s.rsp ++ [responseWord s.err v] }) ∧
    (7 ≤ idx.toNat →
      exec (.sysRdreg idx) s =
        .next { s with err := some (s.err.getD .illegalOperation),
                       rsp := s.rsp ++ [responseWord (some (s.err.getD .illegalOperation)) 0] }) ∧
    (s.hp.length ≤ 256 →
      exec (.sysRdreg 3) s = .next { s with rsp := s.rsp ++ [responseWord s.err (BitVec.ofNat 41 s.hp.length)] }) ∧
    (s.ib.length < 2 ^ 32 →
      exec (.sysRdreg 4) s = .next { s with rsp := s.rsp ++ [responseWord s.err (BitVec.ofNat 41 s.ib.length)] })

/-! ### priority_queue_heap -/

/-- R111: PQ_PUSH on a queue of fewer than 256 elements adds the key to the queue, keeps the heap property and changes nothing
else; on a full queue it raises IllegalOperation and changes nothing else (derived: the array is stated as a multiset). -/
def Obligations.PushAddsTheKey : Prop :=
  ∀ (freq : Word32) (id : NodeId) (s : State), s.err = none →
    (s.hp.length < 256 →
      ∃ hp : List Key,
        exec (.pqPush freq id) s = .next { s with hp := hp, rsp := s.rsp ++ [0] } ∧
        hp.Perm (mkKey freq id :: s.hp) ∧ (HeapOrdered s.hp → HeapOrdered hp)) ∧
    (256 ≤ s.hp.length →
      exec (.pqPush freq id) s =
        .next { s with err := some .illegalOperation, rsp := s.rsp ++ [responseWord (some .illegalOperation) 0] })

/-- R112: PQ_TOP returns `HP[0]` without removing it, and raises Underflow iff the queue is empty; no state changes. -/
def Obligations.TopReturnsTheRoot : Prop :=
  SpeltBy .pqTop 0x11 0 ∧
  ∀ s : State, s.err = none →
    (∀ (k : Key) (rest : List Key), s.hp = k :: rest →
      exec .pqTop s = .next { s with rsp := s.rsp ++ [responseWord none k] }) ∧
    (s.hp = [] →
      exec .pqTop s = .next { s with err := some .underflow, rsp := s.rsp ++ [responseWord (some .underflow) 0] })

/-- R113: PQ_POP takes `HP[0]` out of the queue, keeps the heap property and changes nothing else; on an empty queue it raises
Underflow and changes nothing else (derived: the array is stated as a multiset). -/
def Obligations.PopRemovesTheRoot : Prop :=
  ∀ s : State, s.err = none →
    (∀ (k : Key) (rest : List Key), s.hp = k :: rest →
      ∃ hp : List Key,
        exec .pqPop s = .next { s with hp := hp, rsp := s.rsp ++ [0] } ∧
        (k :: hp).Perm s.hp ∧ (HeapOrdered s.hp → HeapOrdered hp)) ∧
    (s.hp = [] →
      exec .pqPop s = .next { s with err := some .underflow, rsp := s.rsp ++ [responseWord (some .underflow) 0] })

/-- R114: PQ_SIZE returns `HSIZE`, the number of elements of a queue of at most 256 (R26); no state changes. -/
def Obligations.SizeReturnsTheCount : Prop :=
  SpeltBy .pqSize 0x13 0 ∧
  ∀ s : State, s.err = none →
    exec .pqSize s = .next { s with rsp := s.rsp ++ [responseWord none (s.hsize.setWidth 41)] } ∧
    (s.hp.length ≤ 256 →
      exec .pqSize s = .next { s with rsp := s.rsp ++ [responseWord none (BitVec.ofNat 41 s.hp.length)] })

/-- R115: after any pushes and pops none of which raised, the heap property holds and the queue is that of an ascending list
under insertion and removal of the head; so PQ_TOP answers a minimum and the size is pushes minus pops. -/
def Obligations.QueueRefinesAnAscendingList : Prop :=
  ∀ (is : List Instr) (s t : State) (q : List Key), (∀ i ∈ is, isPushPop i = true) → s.err = none →
    HeapOrdered s.hp → s.hp.Perm q → q.Pairwise (· ≤ ·) → execAll is s = .next t → t.err = none →
      HeapOrdered t.hp ∧ t.hp.Perm (queueSpec is q) ∧ (queueSpec is q).Pairwise (· ≤ ·) ∧
      t.hp.head? = (queueSpec is q).head? ∧
      t.hp.length + is.countP (· == .pqPop) = s.hp.length + is.countP (· != .pqPop)

/-! ### The bit writer -/

/-- R131: PutBit shifts the bit in; the eighth bit emits the byte and resets the buffer. -/
def Obligations.PutBitResult : Prop :=
  (∀ bit : Bool, SpeltBy (.bwPutbit bit) 0x20 ((BitVec.ofBool bit).setWidth 41)) ∧
  ∀ (bit : Bool) (s : State), s.err = none → s.io = [] →
    (s.wcnt ≠ 7 →
      exec (.bwPutbit bit) s =
        .next { s with wbuf := (s.wbuf <<< 1) ||| (BitVec.ofBool bit).setWidth 8, wcnt := s.wcnt + 1,
                       rsp := s.rsp ++ [0] }) ∧
    (s.wcnt = 7 →
      exec (.bwPutbit bit) s =
        .next { s with wbuf := 0, wcnt := 0,
                       snk := s.snk ++ [(s.wbuf <<< 1) ||| (BitVec.ofBool bit).setWidth 8], rsp := s.rsp ++ [0] })

/-- R132: with `c = WCNT` before, BW_PUTBYTE appends exactly one byte `(WBUF << (8-c) | b >> c)[7:0]` and leaves `WCNT = c`,
`WBUF = b[c-1:0]`; nothing else changes. -/
def Obligations.PutByteResult : Prop :=
  (∀ b : Byte, SpeltBy (.bwPutbyte b) 0x21 (b.setWidth 41)) ∧
  ∀ (b : Byte) (s : State), s.err = none → s.io = [] → WriterOk s →
    exec (.bwPutbyte b) s =
      .next { s with snk := s.snk ++ [(s.wbuf <<< (8 - s.wcnt.toNat)) ||| (b >>> s.wcnt.toNat)],
                     wbuf := BitVec.ofNat 8 (b.toNat % 2 ^ s.wcnt.toNat), rsp := s.rsp ++ [0] }

/-- R133: BW_PUTINT appends exactly four bytes, `WCNT` is unchanged, and the bits given to the writer grow by the 32 bits of
`v`, most significant first; with `WCNT = 0` the four bytes are `v[31:24]`, `v[23:16]`, `v[15:8]`, `v[7:0]`. -/
def Obligations.PutIntResult : Prop :=
  (∀ v : Word32, SpeltBy (.bwPutint v) 0x22 (v.setWidth 41)) ∧
  ∀ (v : Word32) (s : State), s.err = none → s.io = [] → WriterOk s →
    ∃ (bytes : List Byte) (w : Byte),
      exec (.bwPutint v) s = .next { s with snk := s.snk ++ bytes, wbuf := w, rsp := s.rsp ++ [0] } ∧
      bytes.length = 4 ∧ w.toNat < 2 ^ s.wcnt.toNat ∧
      written { s with snk := s.snk ++ bytes, wbuf := w } = written s ++ (List.range 32).map v.getMsbD ∧
      (s.wcnt = 0 →
        bytes = [v.extractLsb' 24 8, v.extractLsb' 16 8, v.extractLsb' 8 8, v.extractLsb' 0 8] ∧ w = 0)

/-- R134: Close left-shifts a partially filled buffer to the byte boundary and flushes it with zero padding; with nothing
buffered nothing changes. -/
def Obligations.CloseResult : Prop :=
  SpeltBy .bwClose 0x23 0 ∧
  ∀ s : State, s.err = none → s.io = [] →
    (s.wcnt = 0 → exec .bwClose s = .next { s with rsp := s.rsp ++ [0] }) ∧
    (s.wcnt ≠ 0 →
      exec .bwClose s =
        .next { s with snk := s.snk ++ [s.wbuf <<< (8 - s.wcnt.toNat)], wbuf := 0, wcnt := 0, rsp := s.rsp ++ [0] })

/-- R135: after any sequence of PutBit, PutByte, PutInt from `WCNT = 0` followed by Close, the bytes appended are
`ceil(|s| / 8)` bytes whose bit stream is the bits written followed by the zero padding. -/
def Obligations.WriterStreamLaw : Prop :=
  ∀ (is : List Instr) (s : State), (∀ i ∈ is, (putBitsOf i).isSome) → s.err = none → s.io = [] →
    s.wcnt = 0 → s.wbuf = 0 →
      ∃ (bytes : List Byte) (rsp : List Word64),
        execAll (is ++ [.bwClose]) s = .next { s with snk := s.snk ++ bytes, rsp := rsp } ∧
        bytes.length = ((is.flatMap fun i => (putBitsOf i).getD []).length + 7) / 8 ∧
        bitsOfBytes bytes =
          (is.flatMap fun i => (putBitsOf i).getD []) ++
            padding (is.flatMap fun i => (putBitsOf i).getD []).length

/-! ### The bit reader -/

/-- R151: GetBit returns the next bit, most significant first, refilling only when no bit is left; EndOfStream iff a refill
finds `src` empty, and then nothing else changes. -/
def Obligations.GetBitResult : Prop :=
  SpeltBy .brGetbit 0x30 0 ∧
  ∀ s : State, s.err = none → s.io = [] →
    (s.rcnt ≠ 0 →
      exec .brGetbit s =
        .next { s with rcnt := s.rcnt - 1,
                       rsp := s.rsp ++ [responseWord none
                         ((BitVec.ofBool (s.rbuf.getLsbD (s.rcnt.toNat - 1))).setWidth 41)] }) ∧
    (∀ (b : Byte) (rest : List Byte), s.rcnt = 0 → s.src = b :: rest →
      exec .brGetbit s =
        .next { s with rbuf := b, rcnt := 7, src := rest,
                       rsp := s.rsp ++ [responseWord none ((BitVec.ofBool b.msb).setWidth 41)] }) ∧
    (s.rcnt = 0 → s.src = [] →
      exec .brGetbit s =
        .next { s with err := some .endOfStream, rsp := s.rsp ++ [responseWord (some .endOfStream) 0] })

/-- R152: BR_GETBYTE returns the next 8 unread bits, the first in bit 7, and consumes them, `RCNT` unchanged; with fewer left
it raises EndOfStream, every bit read stays consumed. `RBUF` holds the
last byte taken from `src`. -/
def Obligations.GetByteResult : Prop :=
  SpeltBy .brGetbyte 0x31 0 ∧
  ∀ s : State, s.err = none → s.io = [] → ReaderOk s →
    (8 ≤ (unread s).length →
      ∃ (rbuf : Byte) (src : List Byte),
        exec .brGetbyte s =
          .next { s with rbuf := rbuf, src := src,
                         rsp := s.rsp ++ [responseWord none ((valueOfBits 8 ((unread s).take 8)).setWidth 41)] } ∧
        unread { s with rbuf := rbuf, src := src } = (unread s).drop 8 ∧
        LastByteHeld s.rbuf s { s with rbuf := rbuf, src := src }) ∧
    ((unread s).length < 8 →
      ∃ rbuf : Byte,
        exec .brGetbyte s =
          .next { s with err := some .endOfStream, rbuf := rbuf, rcnt := 0, src := [],
                         rsp := s.rsp ++ [responseWord (some .endOfStream) 0] } ∧
        LastByteHeld s.rbuf s { s with rbuf := rbuf, src := [] })

/-- R153: BR_GETINT returns the next 32 unread bits, the first in bit 31, consumes exactly four bytes of `src`, `RCNT`
unchanged; with fewer left it raises EndOfStream, every bit read stays consumed. `RBUF` holds the
last byte taken from `src`. -/
def Obligations.GetIntResult : Prop :=
  SpeltBy .brGetint 0x32 0 ∧
  ∀ s : State, s.err = none → s.io = [] → ReaderOk s →
    (32 ≤ (unread s).length →
      ∃ rbuf : Byte,
        exec .brGetint s =
          .next { s with rbuf := rbuf, src := s.src.drop 4,
                         rsp := s.rsp ++ [responseWord none ((valueOfBits 32 ((unread s).take 32)).setWidth 41)] } ∧
        unread { s with rbuf := rbuf, src := s.src.drop 4 } = (unread s).drop 32 ∧
        LastByteHeld s.rbuf s { s with rbuf := rbuf, src := s.src.drop 4 }) ∧
    ((unread s).length < 32 →
      ∃ rbuf : Byte,
        exec .brGetint s =
          .next { s with err := some .endOfStream, rbuf := rbuf, rcnt := 0, src := [],
                         rsp := s.rsp ++ [responseWord (some .endOfStream) 0] } ∧
        LastByteHeld s.rbuf s { s with rbuf := rbuf, src := [] })

/-- R154: the bytes a closed sequence of writes appended, made the `src` of a reader with `RCNT = 0`, give back bit by bit the
bits written, and, read at the widths written, each bit, byte and integer; what then remains are zero bits. -/
def Obligations.ReaderInvertsWriter : Prop :=
  ∀ (is : List Instr) (s t r : State) (bytes : List Byte), (∀ i ∈ is, (putBitsOf i).isSome) →
    s.err = none → s.io = [] → s.wcnt = 0 → s.wbuf = 0 → execAll (is ++ [.bwClose]) s = .next t →
    t.snk = s.snk ++ bytes → r.err = none → r.io = [] → r.rcnt = 0 → r.src = bytes →
      (∃ u, execAll (is.map readerOf) r = .next u ∧ u.err = none ∧
        u.rsp = r.rsp ++ is.map (fun i => responseWord none i.arg) ∧
        unread u = padding (is.flatMap fun i => (putBitsOf i).getD []).length) ∧
      ∃ v, execAll (List.replicate (is.flatMap fun i => (putBitsOf i).getD []).length .brGetbit) r = .next v ∧
        v.err = none ∧
        v.rsp = r.rsp ++ (is.flatMap fun i => (putBitsOf i).getD []).map
          (fun b => responseWord none ((BitVec.ofBool b).setWidth 41)) ∧
        unread v = padding (is.flatMap fun i => (putBitsOf i).getD []).length

/-! ### huffman_tree_builder -/

/-- R171: FT_LOAD of an input that fits moves all of `src` to `IB`, counts its bytes in `FT` and returns `ILEN`; a longer
input raises IllegalOperation before anything is consumed or written. -/
def Obligations.FtLoadResult : Prop :=
  SpeltBy .ftLoad 0x40 0 ∧
  ∀ s : State, s.err = none → s.io = [] →
    (InputFits s →
      ∃ ft : Store Word32,
        exec .ftLoad s =
          .next { s with ft := ft, ib := s.src, src := [],
                         rsp := s.rsp ++ [responseWord none (BitVec.ofNat 41 s.src.length)] } ∧
        ∀ sym < 256, (countGet ft sym).toNat = s.src.count (BitVec.ofNat 8 sym)) ∧
    (s.cfg.ibCap.toNat < s.src.length →
      exec .ftLoad s =
        .next { s with err := some .illegalOperation, rsp := s.rsp ++ [responseWord (some .illegalOperation) 0] })

/-- R172, R34: TB_BUILD always completes; it leaves an empty queue and a current tree that meets the tree invariants, whose
leaves are exactly the symbols with `FT[s] > 0` (the sentinel leaf 0x00 when there is none) with their frequencies, with
`NINT = L - 1` and `ROOT = 254 + L` for L of at least 2; it changes nothing else (derived: R172 is stated in part). -/
def Obligations.BuildMakesATree : Prop :=
  ∀ s : State, s.err = none →
    ∃ (nm : Store Node) (nint : BitVec 9) (root : NodeId),
      exec .tbBuild s =
        .next { s with hp := [], nm := nm, nint := nint, root := root, rootValid := true, rsp := s.rsp ++ [0] } ∧
      TreeOk { s with nm := nm, nint := nint, root := root } ∧
      (leafKeys s.ft ≠ [] →
        (∀ sym < 256, storeGet nm sym =
          if countGet s.ft sym = 0 then none else some ⟨countGet s.ft sym, none⟩) ∧
        nint.toNat + 1 = (leafKeys s.ft).length ∧
        (2 ≤ (leafKeys s.ft).length → root.toNat = 254 + (leafKeys s.ft).length)) ∧
      (leafKeys s.ft = [] → nm = [(0, ⟨0, none⟩)] ∧ nint = 0 ∧ root = 0)

/-- R116, R172: the tree TB_BUILD makes is the one the document's algorithm makes over an ascending list of keys: at every
merge the two smallest become left and right child, whatever the layout of the heap (derived from R116 and R172). -/
def Obligations.BuildMergesTheTwoSmallest : Prop :=
  ∀ s t : State, s.err = none → exec .tbBuild s = .next t → leafKeys s.ft ≠ [] →
    ∃ k : Key,
      mergeSpec (leafKeys s.ft).length ((leafKeys s.ft).foldr insertKey []) 0
        ((List.range 256).foldl
          (fun nm sym => if countGet s.ft sym = 0 then nm else storePut nm sym ⟨countGet s.ft sym, none⟩) []) =
        ([k], t.nint, t.nm) ∧ t.root = keyId k

/-- R180: TS_SERIALIZE with a current tree writes its canonical serialization (R101) through the bit writer from where the
buffer stands, `10L - 1` bits, and changes nothing else; with none it raises IllegalOperation and changes nothing else. -/
def Obligations.SerializeWritesTheTree : Prop :=
  SpeltBy .tsSerialize 0x42 0 ∧
  (∀ s : State, s.err = none → s.rootValid = false →
    exec .tsSerialize s =
      .next { s with err := some .illegalOperation, rsp := s.rsp ++ [responseWord (some .illegalOperation) 0] }) ∧
  ∀ (s : State) (tr : Tree), s.err = none → s.io = [] → s.rootValid = true → s.tree = some tr → WriterOk s →
    ∃ (wbuf : Byte) (wcnt : BitVec 4) (bytes : List Byte),
      exec .tsSerialize s =
        .next { s with wbuf := wbuf, wcnt := wcnt, snk := s.snk ++ bytes, rsp := s.rsp ++ [0] } ∧
      WriterOk { s with wbuf := wbuf, wcnt := wcnt } ∧
      written { s with wbuf := wbuf, wcnt := wcnt, snk := s.snk ++ bytes } = written s ++ treeBits tr ∧
      (treeBits tr).length + 1 = 10 * (treeSymbols tr).length

/-- R181: when the unread bits begin with the serialization of a tree with distinct symbols, TD_DESERIALIZE makes it the
current tree with every frequency 0, the tree invariants hold, exactly its bits are consumed, and nothing else changes
(derived: the stream grammar is R101). -/
def Obligations.DeserializeReadsTheTree : Prop :=
  ∀ (s : State) (tr : Tree) (rest : List Bool), s.err = none → s.io = [] → ReaderOk s → (treeSymbols tr).Nodup →
    unread s = treeBits tr ++ rest →
      ∃ (rbuf : Byte) (rcnt : BitVec 4) (src : List Byte) (nm : Store Node) (nint : BitVec 9) (root : NodeId),
        exec .tdDeserialize s =
          .next { s with rbuf := rbuf, rcnt := rcnt, src := src, nm := nm, nint := nint, root := root,
                         rootValid := true, rsp := s.rsp ++ [0] } ∧
        ({ s with nm := nm, root := root } : State).tree = some tr ∧
        TreeOk { s with nm := nm, nint := nint, root := root } ∧ (∀ e ∈ nm, e.2.freq = 0) ∧
        rcnt.toNat ≤ 7 ∧ unread { s with rbuf := rbuf, rcnt := rcnt, src := src } = rest

/-- R107, R181, R256: TD_DESERIALIZE always completes, and succeeds exactly when the unread bits begin with the serialization
of a tree with distinct symbols; otherwise `ERR` is CorruptStream, there is no current tree, and the nodes made
before the error stand, well-formed and of frequency 0 (derived: R107 also speaks of
the count and the codes). -/
def Obligations.DeserializeAcceptsExactlyTrees : Prop :=
  ∀ s : State, s.err = none → s.io = [] → ReaderOk s →
    ∃ t, exec .tdDeserialize s = .next t ∧
      (t.err = none ↔ ∃ (tr : Tree) (rest : List Bool), (treeSymbols tr).Nodup ∧ unread s = treeBits tr ++ rest) ∧
      (t.err ≠ none → t.err = some .corruptStream ∧ t.rootValid = false ∧
        t.rsp = s.rsp ++ [responseWord (some .corruptStream) 0] ∧ NodesOk t ∧ ∀ e ∈ t.nm, e.2.freq = 0)

/-- R184: a current tree written by TS_SERIALIZE from `WCNT = 0` and closed, and read back by TD_DESERIALIZE from `RCNT = 0`,
is the same tree. -/
def Obligations.TreeRoundTrip : Prop :=
  ∀ (s t r : State) (bytes : List Byte), s.err = none → s.io = [] → s.wcnt = 0 → s.wbuf = 0 → s.rootValid = true →
    TreeOk s → execAll [.tsSerialize, .bwClose] s = .next t → t.snk = s.snk ++ bytes →
    r.err = none → r.io = [] → r.rcnt = 0 → r.src = bytes →
      ∃ u, exec .tdDeserialize r = .next u ∧ u.err = none ∧ u.rootValid = true ∧ u.tree = s.tree

/-! ### huffman_encoder -/

/-- R201: CT_DERIVE with a current tree binds exactly the symbols of its leaves, each to the edge labels of its path, a single
leaf to the one-bit code 0, no code a prefix of another, and changes nothing else; with none it raises IllegalOperation and changes nothing else. -/
def Obligations.DeriveBindsThePaths : Prop :=
  SpeltBy .ctDerive 0x50 0 ∧
  (∀ s : State, s.err = none → s.rootValid = false →
    exec .ctDerive s =
      .next { s with err := some .illegalOperation, rsp := s.rsp ++ [responseWord (some .illegalOperation) 0] }) ∧
  ∀ (s : State) (tr : Tree), s.err = none → s.rootValid = true → s.tree = some tr → (treeSymbols tr).Nodup →
    ∃ ct : Store (List Bool),
      exec .ctDerive s = .next { s with ct := ct, rsp := s.rsp ++ [0] } ∧
      (∀ b : Byte, codeOf ct b = treeCode tr b) ∧ (∀ b : Byte, treeCode tr b ≠ [] ↔ b ∈ treeSymbols tr) ∧
      (∀ b : Byte, (treeCode tr b).length ≤ 255) ∧
      (∀ a b : Byte, treeCode tr a ≠ [] → treeCode tr a <+: treeCode tr b → a = b)

/-- R202: ENC_EMIT writes the bound code of every input byte, in order, through the bit writer, and changes nothing else; at
the first byte without a code it raises IllegalOperation, the codes before it written. -/
def Obligations.EmitWritesTheCodes : Prop :=
  SpeltBy .encEmit 0x51 0 ∧
  ∀ s : State, s.err = none → s.io = [] → WriterOk s →
    ((∀ b ∈ s.ib, codeOf s.ct b ≠ []) →
      ∃ (wbuf : Byte) (wcnt : BitVec 4) (bytes : List Byte),
        exec .encEmit s =
          .next { s with wbuf := wbuf, wcnt := wcnt, snk := s.snk ++ bytes, rsp := s.rsp ++ [0] } ∧
        WriterOk { s with wbuf := wbuf, wcnt := wcnt } ∧
        written { s with wbuf := wbuf, wcnt := wcnt, snk := s.snk ++ bytes } =
          written s ++ s.ib.flatMap (codeOf s.ct)) ∧
    (∀ (pre post : List Byte) (b : Byte), s.ib = pre ++ b :: post → (∀ x ∈ pre, codeOf s.ct x ≠ []) →
      codeOf s.ct b = [] →
        ∃ (wbuf : Byte) (wcnt : BitVec 4) (bytes : List Byte),
          exec .encEmit s =
            .next { s with wbuf := wbuf, wcnt := wcnt, snk := s.snk ++ bytes, err := some .illegalOperation,
                           rsp := s.rsp ++ [responseWord (some .illegalOperation) 0] } ∧
          written { s with wbuf := wbuf, wcnt := wcnt, snk := s.snk ++ bytes } =
            written s ++ pre.flatMap (codeOf s.ct))

/-- R100, R203: ENC_COMPRESS of an input that fits appends whole bytes that spell, with nothing between, the serialized tree,
the 32-bit count, the codes of the input in order and the zero padding; the tree's leaves are the symbols of the input (the
sentinel 0x00 for the empty input); a longer input raises IllegalOperation with nothing consumed or appended (derived: R203
is stated by its effects). -/
def Obligations.CompressWritesTheStream : Prop :=
  ∀ s : State, s.err = none → s.io = [] →
    (InputFits s →
      ∃ (t : State) (tr : Tree) (bytes : List Byte),
        exec .encCompress s = .next t ∧ Frame .encCompress s t ∧ t.err = none ∧
        t.rsp = s.rsp ++ [responseWord none (BitVec.ofNat 41 s.src.length)] ∧
        t.src = [] ∧ t.ib = s.src ∧ t.hp = [] ∧ t.wcnt = 0 ∧ t.wbuf = 0 ∧ t.rootValid = true ∧ t.tree = some tr ∧
        (treeSymbols tr).Nodup ∧ (∀ b, b ∈ treeSymbols tr ↔ b ∈ s.src ∨ (s.src = [] ∧ b = 0)) ∧
        t.snk = s.snk ++ bytes ∧
        (let body := treeBits tr ++ bitsMsb (BitVec.ofNat 32 s.src.length) ++ encodeBytes tr s.src
         bitsOfBytes bytes = body ++ padding body.length)) ∧
    (s.cfg.ibCap.toNat < s.src.length →
      exec .encCompress s =
        .next { s with wbuf := 0, wcnt := 0, err := some .illegalOperation,
                       rsp := s.rsp ++ [responseWord (some .illegalOperation) 0] })

/-- R204: the bytes ENC_COMPRESS appends, and the tables it leaves, are a function of `src` alone. -/
def Obligations.CompressDependsOnTheSourceOnly : Prop :=
  ∀ s₁ s₂ t₁ t₂ : State, s₁.err = none → s₂.err = none → s₁.io = [] → s₂.io = [] → s₁.src = s₂.src →
    InputFits s₁ → InputFits s₂ →
    exec .encCompress s₁ = .next t₁ → exec .encCompress s₂ = .next t₂ →
      (∃ bytes : List Byte, t₁.snk = s₁.snk ++ bytes ∧ t₂.snk = s₂.snk ++ bytes) ∧
      t₁.ft = t₂.ft ∧ t₁.ib = t₂.ib ∧ t₁.nm = t₂.nm ∧ t₁.nint = t₂.nint ∧ t₁.root = t₂.root ∧ t₁.ct = t₂.ct

/-- R283: from `WCNT = 0` the unit-level steps in the document's order have exactly the effect of ENC_COMPRESS, the responses
apart, and whether or not a channel access fails (derived: the first half of R283). -/
def Obligations.CompressIsItsUnitSteps : Prop :=
  ∀ s t : State, s.err = none → s.wcnt = 0 → s.wbuf = 0 → exec .encCompress s = .next t →
    ∃ rsp : List Word64,
      execAll [.ftLoad, .tbBuild, .tsSerialize, .bwPutint (BitVec.ofNat 32 s.src.length), .ctDerive, .encEmit, .bwClose]
        s = .next { t with rsp := rsp }

/-! ### huffman_decoder -/

/-- R221: DEC_WALK over a single-leaf tree emits the root's symbol `n` times and reads no bit; without a current tree it
raises IllegalOperation and changes nothing else (derived: two cases of R221). -/
def Obligations.WalkOfASingleLeaf : Prop :=
  ∀ (s : State) (n : Word32), s.err = none →
    (s.io = [] → s.rootValid = true → s.root.toNat < 256 →
      exec (.decWalk n) s =
        .next { s with snk := s.snk ++ List.replicate n.toNat (s.root.setWidth 8), rsp := s.rsp ++ [0] }) ∧
    (s.rootValid = false →
      exec (.decWalk n) s =
        .next { s with err := some .illegalOperation, rsp := s.rsp ++ [responseWord (some .illegalOperation) 0] })

/-- R221: when the unread bits begin with the codes of `n` symbols of the current tree, DEC_WALK `n` appends exactly those
symbols, raw, consumes exactly their bits and changes nothing else (derived: one case of R221). -/
def Obligations.WalkDecodesTheCodes : Prop :=
  ∀ (s : State) (tr : Tree) (n : Word32) (syms : List Byte) (rest : List Bool), s.err = none → s.io = [] →
    ReaderOk s → s.rootValid = true → s.tree = some tr → (∀ b ∈ syms, b ∈ treeSymbols tr) →
    syms.length = n.toNat → unread s = decoderBits tr syms ++ rest →
      ∃ (rbuf : Byte) (rcnt : BitVec 4) (src : List Byte),
        exec (.decWalk n) s =
          .next { s with rbuf := rbuf, rcnt := rcnt, src := src, snk := s.snk ++ syms, rsp := s.rsp ++ [0] } ∧
        rcnt.toNat ≤ 7 ∧ unread { s with rbuf := rbuf, rcnt := rcnt, src := src } = rest

/-- R221, R256: when the source ends before `n` symbols are complete, DEC_WALK raises CorruptStream; the symbols completed
before that are in `snk` and every bit is consumed (derived: one case of R221). -/
def Obligations.WalkOfATruncatedSource : Prop :=
  ∀ (s : State) (l r : Tree) (n : Word32) (syms : List Byte) (part : List Bool) (b : Byte), s.err = none →
    s.io = [] → ReaderOk s → s.rootValid = true → s.tree = some (.node l r) →
    (∀ x ∈ syms, x ∈ treeSymbols (.node l r)) → syms.length < n.toNat → b ∈ treeSymbols (.node l r) →
    part <+: treeCode (.node l r) b → part ≠ treeCode (.node l r) b →
    unread s = encodeBytes (.node l r) syms ++ part →
      ∃ rbuf : Byte,
        exec (.decWalk n) s =
          .next { s with rbuf := rbuf, rcnt := 0, src := [], snk := s.snk ++ syms, err := some .corruptStream,
                         rsp := s.rsp ++ [responseWord (some .corruptStream) 0] }

/-- R222: when `src` begins with a serialized tree of distinct symbols, the 32-bit count and the codes of that many symbols
(no codes for a single leaf), DEC_DECOMPRESS appends exactly those symbols, returns the count, and consumes exactly those
bits; the tree is the current tree (derived: the refusals of R222 are stated by `DecompressRefusesEveryOtherSource`). -/
def Obligations.DecompressReadsTheStream : Prop :=
  ∀ (s : State) (tr : Tree) (n : Word32) (syms : List Byte) (rest : List Bool), s.err = none → s.io = [] →
    (treeSymbols tr).Nodup → (∀ b ∈ syms, b ∈ treeSymbols tr) → syms.length = n.toNat →
    bitsOfBytes s.src = treeBits tr ++ bitsMsb n ++ decoderBits tr syms ++ rest →
      ∃ t, exec .decDecompress s = .next t ∧ Frame .decDecompress s t ∧ t.err = none ∧ t.rootValid = true ∧
        t.tree = some tr ∧ t.snk = s.snk ++ syms ∧ unread t = rest ∧
        t.rsp = s.rsp ++ [responseWord none (n.setWidth 41)]

/-- R107, R222, R256: DEC_DECOMPRESS always answers, and succeeds exactly on a serialized tree of distinct symbols, a count
and that many codes; every other source is CorruptStream, never EndOfStream. Where the tree does not parse nothing is appended
and there is no current tree; where the source ends inside the count nothing is appended and the tree is the current tree;
where it ends inside the walk the symbols completed before that are appended and every bit is consumed (derived: R107 lists the
refusals, R222 their effects). -/
def Obligations.DecompressRefusesEveryOtherSource : Prop :=
  ∀ s : State, s.err = none → s.io = [] →
    ∃ t, exec .decDecompress s = .next t ∧
      (t.err = none ↔
        ∃ (tr : Tree) (n : Word32) (syms : List Byte) (rest : List Bool), (treeSymbols tr).Nodup ∧
          (∀ b ∈ syms, b ∈ treeSymbols tr) ∧ syms.length = n.toNat ∧
          bitsOfBytes s.src = treeBits tr ++ bitsMsb n ++ decoderBits tr syms ++ rest) ∧
      (t.err ≠ none → t.err = some .corruptStream ∧ t.rsp = s.rsp ++ [responseWord (some .corruptStream) 0]) ∧
      ((¬ ∃ (tr : Tree) (rest : List Bool), (treeSymbols tr).Nodup ∧ bitsOfBytes s.src = treeBits tr ++ rest) →
        t.err = some .corruptStream ∧ t.snk = s.snk ∧ t.rootValid = false) ∧
      (∀ (tr : Tree) (rest : List Bool), (treeSymbols tr).Nodup → bitsOfBytes s.src = treeBits tr ++ rest →
        rest.length < 32 →
          t.err = some .corruptStream ∧ t.snk = s.snk ∧ t.rootValid = true ∧ t.tree = some tr ∧ t.rcnt = 0 ∧ t.src = []) ∧
      (∀ (l r : Tree) (n : Word32) (syms : List Byte) (part : List Bool) (b : Byte),
        (treeSymbols (.node l r)).Nodup → (∀ x ∈ syms, x ∈ treeSymbols (.node l r)) → syms.length < n.toNat →
        b ∈ treeSymbols (.node l r) → part <+: treeCode (.node l r) b → part ≠ treeCode (.node l r) b →
        bitsOfBytes s.src = treeBits (.node l r) ++ bitsMsb n ++ encodeBytes (.node l r) syms ++ part →
          t.err = some .corruptStream ∧ t.snk = s.snk ++ syms ∧ t.rootValid = true ∧ t.tree = some (.node l r) ∧
          t.rcnt = 0 ∧ t.src = [])

/-- R283: from `RCNT = 0` a successful DEC_DECOMPRESS has exactly the effect of TD_DESERIALIZE, BR_GETINT and DEC_WALK of its
result, the responses apart. With `RBUF = 0` as well, and whether or not a channel access fails, a failing one has it too: the
unit-level steps stop at the same point in the same state with the same error, except that a source that ends inside the count
is EndOfStream there and CorruptStream here (derived: the second half of R283; DEC_DECOMPRESS starts from `RBUF = 0`). -/
def Obligations.DecompressIsItsUnitSteps : Prop :=
  (∀ (s t : State) (n : Word32), s.err = none → s.rcnt = 0 → exec .decDecompress s = .next t → t.err = none →
    t.rsp = s.rsp ++ [responseWord none (n.setWidth 41)] →
      ∃ rsp : List Word64, execAll [.tdDeserialize, .brGetint, .decWalk n] s = .next { t with rsp := rsp }) ∧
  ∀ s t : State, s.err = none → s.rcnt = 0 → s.rbuf = 0 → exec .decDecompress s = .next t →
    ∃ m : State, execAll [.tdDeserialize, .brGetint] s = .next m ∧
      (m.err ≠ none →
        m = { t with err := m.err, rsp := m.rsp } ∧
        (m.err = t.err ∨ (m.err = some .endOfStream ∧ t.err = some .corruptStream ∧ t.rootValid = true))) ∧
      (m.err = none →
        ∃ (n : Word32) (u : State), m.rsp = s.rsp ++ [0, responseWord none (n.setWidth 41)] ∧
          exec (.decWalk n) m = .next u ∧ u = { t with rsp := u.rsp })

/-- R224: for every `b` that fits, from any state with `ERR = 0`, ENC_COMPRESS with `src = b` appends `z`, and DEC_DECOMPRESS
with `src = z`, or `z` followed by anything, then appends exactly `b` and raises nothing. -/
def Obligations.DecompressInvertsCompress : Prop :=
  ∀ s : State, s.err = none → s.io = [] → InputFits s →
    ∃ (t : State) (z : List Byte), exec .encCompress s = .next t ∧ t.err = none ∧ t.snk = s.snk ++ z ∧
      ∀ (r : State) (more : List Byte), r.err = none → r.io = [] → r.src = z ++ more →
        ∃ u, exec .decDecompress r = .next u ∧ u.err = none ∧ u.snk = r.snk ++ s.src

/-! ### Launch premises -/

/-- R282: what the launch premises give. What the host plans after a command has no part in it, for the outcome is the same
whatever it plans; under the premises ENC_COMPRESS succeeds, and DEC_DECOMPRESS over what it appended, followed by anything,
appends the input; and after a failed command the SYS_RESET of (d) clears the error with `src` and `snk` kept (derived from
R224, R240, R282; that a command is one step of the host's list is the model's choice, log entries 1 and 22). -/
def Obligations.LaunchPremisesSuffice : Prop :=
  (∀ (s t : State) (cw : Word64) (rest rest' : List HostEvent),
    step { s with host := .command cw :: rest } = .next t →
      t.host = rest ∧ step { s with host := .command cw :: rest' } = .next { t with host := rest' }) ∧
  (∀ (s : State) (input : List Byte), s.io = [] → Launch .encCompress input s →
    ∃ (t : State) (z : List Byte), step s = .next t ∧ t.err = none ∧ Appended z s t ∧
      ∀ (r : State) (more : List Byte), r.io = [] → Launch .decDecompress (z ++ more) r →
        ∃ u, step r = .next u ∧ u.err = none ∧ Appended input r u) ∧
  (∀ s : State, s.err ≠ none → ResetsAfterError s → s.host ≠ [] →
    ∃ t, step s = .next t ∧ t.err = none ∧ t.src = s.src ∧ t.snk = s.snk ∧ t.rsp = s.rsp ++ [0])

/-! ### The whole machine -/

/-- R280: the reset state satisfies every between-operations invariant (derived: the invariants are those of R24, R25, R29,
R34, R36, R38, R110). -/
def Obligations.InvariantsHoldAtReset : Prop :=
  BufferInv State.reset ∧ QueueInv State.reset ∧ Memory.wf State.reset ∧ InputInv State.reset ∧
  TreeInv State.reset ∧ CodeInv State.reset

/-- R130, R150: every step keeps the buffer invariants, from every state that meets them (derived: the case of an IOError
inside PutBit follows R252, log entry 13). -/
def Obligations.StepKeepsTheBufferInvariants : Prop :=
  ∀ s t : State, BufferInv s → step s = .next t → BufferInv t

/-- R110: every step keeps the heap property and the capacity of the queue (derived from R26, R110). -/
def Obligations.StepKeepsTheHeapProperty : Prop :=
  ∀ s t : State, QueueInv s → step s = .next t → QueueInv t

/-- Every step keeps the sparse tables in canonical form and inside their memories (derived from R33, R36, R38; the form is
the model's, log entry 7). -/
def Obligations.StepKeepsTheTablesCanonical : Prop :=
  ∀ s t : State, Memory.wf s → step s = .next t → Memory.wf t

/-- R29, R36: every step keeps `ILEN <= IB_CAP` and `FT` the counts of the bytes of `IB` (derived from R8, R29, R36). -/
def Obligations.StepKeepsTheInputInvariant : Prop :=
  ∀ s t : State, InputInv s → step s = .next t → InputInv t

/-- R34: every step keeps the tree invariants (derived: R34 is put in the model's terms). -/
def Obligations.StepKeepsTheTreeInvariants : Prop :=
  ∀ s t : State, TreeInv s → step s = .next t → TreeInv t

/-- R38, R200: with the tree invariants, every step keeps the bound codes non-empty, at most 255 bits long and prefix-free
(derived from R38, R200, R201). -/
def Obligations.StepKeepsTheCodesPrefixFree : Prop :=
  ∀ s t : State, TreeInv s → CodeInv s → step s = .next t → CodeInv t

/-- R265: no command is ever stuck: with the tree invariants every step answers a next state, and so does every command
(derived: R265 says it of every state the spec allows). -/
def Obligations.EveryStepAnswers : Prop :=
  ∀ s : State, TreeInv s → (∃ t, step s = .next t) ∧ ∀ i : Instr, ∃ t, exec i s = .next t

/-- Each command changes only what its rule writes; what it emits is appended to `snk` and what it reads is taken from the head
of `src`; after a command that reads bits `RBUF` holds the last byte it took from `src`, and is as before when it took none, 0
for DEC_DECOMPRESS, which starts from there (derived from the "written by" clauses of R23 to R41 and from R25, R222, R288). -/
def Obligations.FrameOfEveryCommand : Prop :=
  (∀ (i : Instr) (s t : State), exec i s = .next t → Frame i s t ∧ s.snk <+: t.snk ∧ t.src <:+ s.src) ∧
  (∀ (i : Instr) (s t : State), readsBits i = true → exec i s = .next t → LastByteHeld s.rbuf s t) ∧
  (∀ s t : State, s.err = none → exec .decDecompress s = .next t → LastByteHeld 0 s t)

/-- R258: where the environment makes a channel access fail, the access does not happen and the command raises IOError there,
unpromoted: a failing SnkWrite of BW_CLOSE and of BW_PUTBIT and a failing SrcRead of BR_GETBIT, FT_LOAD and TD_DESERIALIZE
(derived: these accesses stand for all). That the failing BW_PUTBIT leaves the eighth bit in `WBUF` and `WCNT = 8` is the
model's inference from the order of its writes (log entry 13, DEDUCED). -/
def Obligations.IoFaultRaisesIOError : Prop :=
  ∀ (s : State) (rest : List Bool), s.err = none → s.io = true :: rest →
    (s.wcnt ≠ 0 → exec .bwClose s =
      .next { s with io := rest, err := some .ioError, rsp := s.rsp ++ [responseWord (some .ioError) 0] }) ∧
    (∀ bit : Bool, s.wcnt = 7 → exec (.bwPutbit bit) s =
      .next { s with io := rest, wbuf := (s.wbuf <<< 1) ||| (BitVec.ofBool bit).setWidth 8, wcnt := 8,
                     err := some .ioError, rsp := s.rsp ++ [responseWord (some .ioError) 0] }) ∧
    (s.rcnt = 0 → exec .brGetbit s =
      .next { s with io := rest, err := some .ioError, rsp := s.rsp ++ [responseWord (some .ioError) 0] }) ∧
    (InputFits s → exec .ftLoad s =
      .next { s with io := rest, ib := [], ft := [], err := some .ioError,
                     rsp := s.rsp ++ [responseWord (some .ioError) 0] }) ∧
    (s.rcnt = 0 → exec .tdDeserialize s =
      .next { s with io := rest, nm := [], nint := 0, rootValid := false, err := some .ioError,
                     rsp := s.rsp ++ [responseWord (some .ioError) 0] })
end

