-- ==== Sys2Proof/Laws/Res.lean ====
section
/-! SUPPORT. How the body of a rule goes on (`Res.bind`), the decode boundary (`promote`), and command entry (`command`): one
inversion lemma each. -/

namespace Sys2Proof.Machine

variable {α β γ : Type}

@[simp] theorem bind_ok (a : α) (s : State) (f : α → State → Res β) : (Res.ok a s).bind f = f a s := rfl
@[simp] theorem bind_raised (e : ErrorKind) (s : State) (f : α → State → Res β) :
    (Res.raised e s).bind f = .raised e s := rfl
@[simp] theorem bind_broken (f : α → State → Res β) : (Res.broken).bind f = .broken := rfl

theorem bind_assoc (r : Res α) (f : α → State → Res β) (g : β → State → Res γ) :
    (r.bind f).bind g = r.bind fun a s => (f a s).bind g := by
  cases r <;> rfl

/-- A sequence answers a value exactly when its first part does and the rest does from there. -/
theorem bind_eq_ok_iff {r : Res α} {f : α → State → Res β} {b : β} {t : State} :
    r.bind f = .ok b t ↔ ∃ a s, r = .ok a s ∧ f a s = .ok b t := by
  cases r <;> simp

/-- A sequence raises exactly when its first part does, or the rest does from there. -/
theorem bind_eq_raised_iff {r : Res α} {f : α → State → Res β} {e : ErrorKind} {t : State} :
    r.bind f = .raised e t ↔ r = .raised e t ∨ ∃ a s, r = .ok a s ∧ f a s = .raised e t := by
  cases r <;> simp

/-- A sequence meets a broken tree exactly when its first part does, or the rest does from there. -/
theorem bind_eq_broken_iff {r : Res α} {f : α → State → Res β} :
    r.bind f = .broken ↔ r = .broken ∨ ∃ a s, r = .ok a s ∧ f a s = .broken := by
  cases r <;> simp

/-- What holds of every way two parts end holds of every way their sequence ends. -/
theorem bind_induct {P : State → Prop} {r : Res α} {f : α → State → Res β}
    (hr : (∀ a s, r = .ok a s → P s) ∧ ∀ e s, r = .raised e s → P s)
    (hf : ∀ a s, P s → (∀ b t, f a s = .ok b t → P t) ∧ ∀ e t, f a s = .raised e t → P t) :
    (∀ b t, r.bind f = .ok b t → P t) ∧ ∀ e t, r.bind f = .raised e t → P t := by
  cases r with
  | ok a s => exact hf a s (hr.1 a s rfl)
  | raised e s => exact ⟨by simp, fun e' t h => by simp at h; exact h.2 ▸ hr.2 e s rfl⟩
  | broken => simp

@[simp] theorem promote_ok (a : α) (s : State) : promote (Res.ok a s) = .ok a s := rfl
@[simp] theorem promote_broken : promote (Res.broken : Res α) = .broken := rfl
@[simp] theorem promote_endOfStream (s : State) :
    promote (Res.raised .endOfStream s : Res α) = .raised .corruptStream s := rfl

theorem promote_raised {e : ErrorKind} (s : State) (h : e ≠ .endOfStream) :
    promote (Res.raised e s : Res α) = .raised e s := by
  cases e <;> first | rfl | exact absurd rfl h

/-- The decode boundary changes no value. -/
theorem promote_eq_ok_iff {r : Res α} {a : α} {s : State} : promote r = .ok a s ↔ r = .ok a s := by
  rcases r with ⟨b, t⟩ | ⟨e, t⟩ | _
  · rfl
  · cases e <;> simp [promote]
  · rfl

/-- The decode boundary changes no state, and the error EndOfStream alone (R256). -/
theorem promote_eq_raised_iff {r : Res α} {e : ErrorKind} {s : State} :
    promote r = .raised e s ↔
      (r = .raised e s ∧ e ≠ .endOfStream) ∨ (r = .raised .endOfStream s ∧ e = .corruptStream) := by
  rcases r with ⟨b, t⟩ | ⟨k, t⟩ | _
  · simp
  · cases k <;> cases e <;> simp [promote]
  · simp

theorem promote_eq_broken_iff {r : Res α} : promote r = .broken ↔ r = .broken := by
  rcases r with ⟨b, t⟩ | ⟨e, t⟩ | _
  · rfl
  · cases e <;> simp [promote]
  · rfl

@[simp] theorem noResult_ok (u : Unit) (s : State) : noResult (.ok u s) = .ok 0 s := rfl
@[simp] theorem noResult_raised (e : ErrorKind) (s : State) : noResult (.raised e s) = .raised e s := rfl
@[simp] theorem noResult_broken : noResult .broken = .broken := rfl

variable {body : State → Res Value} {s t : State}

/-- With `ERR != 0` a command is ignored (R86, R254). -/
theorem command_ignored {e : ErrorKind} (h : s.err = some e) : command body s = .next (s.respond 0) := by
  simp [command, h]

/-- A command whose rule ends with a value. -/
theorem command_ok {v : Value} (h : s.err = none) (hb : body s = .ok v t) : command body s = .next (t.respond v) := by
  simp [command, h, hb]

/-- A command whose rule ends at a `raise` (R252). -/
theorem command_raised {e : ErrorKind} (h : s.err = none) (hb : body s = .raised e t) :
    command body s = .next (takeError e t) := by
  simp [command, h, hb]

/-- Everything command entry can answer (R86). -/
theorem command_eq_next {u : State} (h : command body s = .next u) :
    (∃ e, s.err = some e ∧ u = s.respond 0) ∨
    (s.err = none ∧ ∃ v t, body s = .ok v t ∧ u = t.respond v) ∨
    (s.err = none ∧ ∃ e t, body s = .raised e t ∧ u = takeError e t) := by
  cases he : s.err with
  | some e =>
    rw [command_ignored he] at h
    exact .inl ⟨e, rfl, by injection h with h; exact h.symm⟩
  | none =>
    cases hb : body s with
    | ok v t =>
      rw [command_ok he hb] at h
      exact .inr (.inl ⟨rfl, v, t, rfl, by injection h with h; exact h.symm⟩)
    | raised e t =>
      rw [command_raised he hb] at h
      exact .inr (.inr ⟨rfl, e, t, rfl, by injection h with h; exact h.symm⟩)
    | broken => simp [command, he, hb] at h

/-- A command answers a next state unless its rule meets a broken tree with `ERR = 0`. -/
theorem command_answers (h : s.err = none → body s ≠ .broken) : ∃ u, command body s = .next u := by
  cases he : s.err with
  | some e => exact ⟨_, command_ignored he⟩
  | none =>
    cases hb : body s with
    | ok v t => exact ⟨_, command_ok he hb⟩
    | raised e t => exact ⟨_, command_raised he hb⟩
    | broken => exact absurd hb (h he)

/-- Command entry of an illegal word (R85, R86). -/
theorem illegalWord_eq (s : State) :
    illegalWord s =
      match s.err with
      | none => .next (takeError .illegalOperation s)
      | some _ => .next (s.respond 0) := by
  cases h : s.err <;> simp [illegalWord, command, h]

end Sys2Proof.Machine
end

