-- ==== Sys2Proof/Laws/Channel.lean ====
section
/-! SUPPORT. Everything a channel access can do (R61, R62, R258). -/

namespace Sys2Proof.Machine

variable {s : State}

/-- The three answers of the environment (R258). -/
theorem ioAccess_cases (s : State) :
    (s.io = [] ∧ ioAccess s = .ok () s) ∨
    (∃ rest, s.io = false :: rest ∧ ioAccess s = .ok () { s with io := rest }) ∨
    (∃ rest, s.io = true :: rest ∧ ioAccess s = .raised .ioError { s with io := rest }) := by
  unfold ioAccess
  rcases s.io with _ | ⟨_ | _, rest⟩ <;> simp

theorem ioAccess_never (h : s.io = []) : ioAccess s = .ok () s := by simp [ioAccess, h]

/-- SrcRead at the end of the input (R61). -/
theorem srcRead_none (h : s.io = []) (hs : s.src = []) : srcRead s = .ok none s := by
  simp [srcRead, ioAccess_never h, hs]

/-- SrcRead of a byte (R61). -/
theorem srcRead_some {b : Byte} {rest : List Byte} (h : s.io = []) (hs : s.src = b :: rest) :
    srcRead s = .ok (some b) { s with src := rest } := by
  simp [srcRead, ioAccess_never h, hs]

/-- Everything SrcRead can do. -/
theorem srcRead_cases (s : State) :
    (∃ io, srcRead s = .ok none { s with io := io } ∧ s.src = []) ∨
    (∃ io b rest, srcRead s = .ok (some b) { s with io := io, src := rest } ∧ s.src = b :: rest) ∨
    (∃ io, srcRead s = .raised .ioError { s with io := io } ∧ s.io = true :: io) := by
  have hsrc : s.src = [] ∨ ∃ b rest, s.src = b :: rest := by cases s.src <;> simp
  unfold srcRead
  rcases ioAccess_cases s with ⟨h, hr⟩ | ⟨io, h, hr⟩ | ⟨io, h, hr⟩
  · rcases hsrc with hs | ⟨b, rest, hs⟩
    · exact .inl ⟨s.io, by rw [hr, bind_ok]; split; exacts [rfl, by simp_all], hs⟩
    · exact .inr (.inl ⟨s.io, b, rest, by simp [hr, hs], hs⟩)
  · rcases hsrc with hs | ⟨b, rest, hs⟩
    · exact .inl ⟨io, by rw [hr, bind_ok]; split; exacts [rfl, by simp_all], hs⟩
    · exact .inr (.inl ⟨io, b, rest, by simp [hr, hs], hs⟩)
  · exact .inr (.inr ⟨io, by simp [hr], h⟩)

/-- SnkWrite (R62). -/
theorem snkWrite_never (b : Byte) (h : s.io = []) : snkWrite b s = .ok () { s with snk := s.snk ++ [b] } := by
  simp [snkWrite, ioAccess_never h]

/-- Everything SnkWrite can do. -/
theorem snkWrite_cases (b : Byte) (s : State) :
    (∃ io, snkWrite b s = .ok () { s with io := io, snk := s.snk ++ [b] }) ∨
    (∃ io, snkWrite b s = .raised .ioError { s with io := io } ∧ s.io = true :: io) := by
  unfold snkWrite
  rcases ioAccess_cases s with ⟨h, hr⟩ | ⟨io, h, hr⟩ | ⟨io, h, hr⟩
  · exact .inl ⟨s.io, by simp [hr]⟩
  · exact .inl ⟨io, by simp [hr]⟩
  · exact .inr ⟨io, by simp [hr], h⟩

end Sys2Proof.Machine
end

