-- ==== Sys2Proof/Laws/Bits.lean ====
section
/-! SUPPORT. The bit writer and the bit reader as bit streams: what one bit, a sequence of bits and the close do to the bits
written, and what a bit and a sequence of bits do to the bits unread (R131 to R135, R151 to R154). -/

namespace Sys2Proof.Machine

@[simp] theorem length_bitsMsb {w : Nat} (v : BitVec w) : (bitsMsb v).length = w := by simp [bitsMsb]
@[simp] theorem length_lowBits (n : Nat) (v : Byte) : (lowBits n v).length = n := by simp [lowBits]
@[simp] theorem lowBits_zero (v : Byte) : lowBits 0 v = [] := rfl
@[simp] theorem bitsOfBytes_nil : bitsOfBytes [] = [] := rfl
@[simp] theorem bitsOfBytes_cons (b : Byte) (bs : List Byte) : bitsOfBytes (b :: bs) = bitsMsb b ++ bitsOfBytes bs := rfl

@[simp] theorem bitsOfBytes_append (as bs : List Byte) : bitsOfBytes (as ++ bs) = bitsOfBytes as ++ bitsOfBytes bs := by
  simp [bitsOfBytes]

@[simp] theorem length_bitsOfBytes (bs : List Byte) : (bitsOfBytes bs).length = 8 * bs.length := by
  induction bs with
  | nil => rfl
  | cons b bs ih => simp [ih]; omega

/-- A byte's stream is its eight low bits (R10). -/
theorem bitsMsb_eq_lowBits (v : Byte) : bitsMsb v = lowBits 8 v := by
  apply List.ext_getElem (by simp)
  intro i h _
  simp at h
  simp [bitsMsb, lowBits, BitVec.getMsbD, h]

/-- The bits below position `n` are those below `n - 1` after the bit at `n - 1`. -/
theorem lowBits_succ (n : Nat) (v : Byte) : lowBits (n + 1) v = v.getLsbD n :: lowBits n v := by
  apply List.ext_getElem (by simp)
  intro i h _
  simp at h
  rcases i with _ | i
  · simp [lowBits]
  · simp [lowBits]
    congr 1
    omega

theorem getLsbD_shiftIn (v : Byte) (b : Bool) (i : Nat) :
    (shiftIn v b).getLsbD i = if i = 0 then b else (decide (i < 8) && v.getLsbD (i - 1)) := by
  rcases i with _ | i
  · cases b <;> simp [shiftIn]
  · simp [shiftIn, BitVec.getLsbD_shiftLeft, BitVec.getLsbD_setWidth]

/-- Shifting a bit in puts it after the bits held. -/
theorem lowBits_shiftIn {n : Nat} (hn : n ≤ 7) (v : Byte) (b : Bool) :
    lowBits (n + 1) (shiftIn v b) = lowBits n v ++ [b] := by
  apply List.ext_getElem (by simp)
  intro i h _
  simp only [length_lowBits] at h
  rcases Nat.lt_or_ge i n with hi | hi
  · rw [List.getElem_append_left (by simpa using hi)]
    simp only [lowBits, List.getElem_map, List.getElem_range, getLsbD_shiftIn]
    rw [if_neg (by omega), show n + 1 - 1 - i - 1 = n - 1 - i by omega]
    simp
    omega
  · obtain rfl : i = n := by omega
    rw [List.getElem_append_right (by simp)]
    simp [lowBits, getLsbD_shiftIn]

theorem toNat_shiftIn (v : Byte) (b : Bool) : (shiftIn v b).toNat = (2 * v.toNat + b.toNat) % 256 := by
  revert v b
  decide

/-- A writer that meets its invariant has the bits it holds in range. -/
theorem shiftIn_lt {n : Nat} {v : Byte} (b : Bool) (hv : v.toNat < 2 ^ n) : (shiftIn v b).toNat < 2 ^ (n + 1) := by
  rw [toNat_shiftIn]
  have : b.toNat ≤ 1 := Bool.toNat_le b
  have := Nat.mod_le (2 * v.toNat + b.toNat) 256
  rw [Nat.pow_succ]
  omega

/-! ### Which fields the bit writer and the bit reader touch -/

/-- Only the bit writer's fields and the channel answers differ. -/
def WriterFrame (s t : State) : Prop := t = { s with io := t.io, wbuf := t.wbuf, wcnt := t.wcnt, snk := t.snk }

/-- Only the bit reader's fields and the channel answers differ. -/
def ReaderFrame (s t : State) : Prop := t = { s with io := t.io, rbuf := t.rbuf, rcnt := t.rcnt, src := t.src }

theorem WriterFrame.refl (s : State) : WriterFrame s s := rfl
theorem ReaderFrame.refl (s : State) : ReaderFrame s s := rfl

theorem WriterFrame.trans {s t u : State} (h₁ : WriterFrame s t) (h₂ : WriterFrame t u) : WriterFrame s u := by
  unfold WriterFrame at *
  rw [h₂, h₁]

theorem ReaderFrame.trans {s t u : State} (h₁ : ReaderFrame s t) (h₂ : ReaderFrame t u) : ReaderFrame s u := by
  unfold ReaderFrame at *
  rw [h₂, h₁]

/-- A property of states that a result has wherever it ends, at its value or at a `raise`. -/
def Res.Ends {α : Type} (P : State → Prop) (r : Res α) : Prop :=
  (∀ a t, r = .ok a t → P t) ∧ ∀ e t, r = .raised e t → P t

theorem ends_ok {α : Type} {P : State → Prop} {a : α} {s : State} (h : P s) : (Res.ok a s).Ends P :=
  ⟨fun _ _ h' => (by injection h' with _ h'; exact h' ▸ h), fun _ _ h' => (by cases h')⟩

theorem ends_raised {α : Type} {P : State → Prop} {e : ErrorKind} {s : State} (h : P s) :
    (Res.raised e s : Res α).Ends P :=
  ⟨fun _ _ h' => (by cases h'), fun _ _ h' => (by injection h' with _ h'; exact h' ▸ h)⟩

theorem ends_broken {α : Type} {P : State → Prop} : (Res.broken : Res α).Ends P :=
  ⟨fun _ _ h' => (by cases h'), fun _ _ h' => (by cases h')⟩

/-- A sequence ends in `P` when its first part ends in `Q` and the rest leads from `Q` to `P`; `Q` itself must do where the
first part raises. -/
theorem ends_bind {α β : Type} {P Q : State → Prop} {r : Res α} {f : α → State → Res β} (hr : r.Ends Q)
    (hQ : ∀ s, Q s → P s) (hf : ∀ a s, Q s → (f a s).Ends P) : (r.bind f).Ends P := by
  cases r with
  | ok a s => exact hf a s (hr.1 a s rfl)
  | raised e s => exact ends_raised (hQ s (hr.2 e s rfl))
  | broken => exact ends_broken

theorem ends_promote {α : Type} {P : State → Prop} {r : Res α} (h : r.Ends P) : (promote r).Ends P := by
  rcases r with ⟨a, s⟩ | ⟨e, s⟩ | _
  · exact h
  · cases e <;> exact ends_raised (h.2 _ s rfl)
  · exact ends_broken

theorem putBit_frame (b : Bool) (s : State) : (putBit b s).Ends (WriterFrame s) := by
  unfold putBit
  dsimp only
  split
  · rcases snkWrite_cases (shiftIn s.wbuf b) { s with wbuf := shiftIn s.wbuf b, wcnt := s.wcnt + 1 } with
      ⟨io, h⟩ | ⟨io, h, _⟩
    · rw [h]; exact ends_ok rfl
    · rw [h]; exact ends_raised rfl
  · exact ends_ok rfl

theorem putBits_frame (bs : List Bool) (s : State) : (putBits bs s).Ends (WriterFrame s) := by
  induction bs generalizing s with
  | nil => exact ends_ok (WriterFrame.refl s)
  | cons b bs ih =>
    exact ends_bind (putBit_frame b s) (fun _ h => h) fun _ t ht =>
      ⟨fun a u h => ht.trans ((ih t).1 a u h), fun e u h => ht.trans ((ih t).2 e u h)⟩

theorem closeWriter_frame (s : State) : (closeWriter s).Ends (WriterFrame s) := by
  unfold closeWriter
  split
  · exact ends_ok (WriterFrame.refl s)
  · rcases snkWrite_cases (s.wbuf <<< (8 - s.wcnt.toNat)) s with ⟨io, h⟩ | ⟨io, h, _⟩
    · rw [h]; exact ends_ok rfl
    · rw [h]; exact ends_raised rfl

theorem refill_frame (s : State) : (refill s).Ends (ReaderFrame s) := by
  unfold refill
  split
  · rcases srcRead_cases s with ⟨io, h, _⟩ | ⟨io, b, rest, h, _⟩ | ⟨io, h, _⟩
    · rw [h]; exact ends_raised rfl
    · rw [h]; exact ends_ok rfl
    · rw [h]; exact ends_raised rfl
  · exact ends_ok (ReaderFrame.refl s)

theorem getBit_frame (s : State) : (getBit s).Ends (ReaderFrame s) :=
  ends_bind (refill_frame s) (fun _ h => h) fun _ _ ht => ends_ok (ht.trans rfl)

theorem getBits_frame {w : Nat} (n : Nat) (v : BitVec w) (s : State) : (getBits n v s).Ends (ReaderFrame s) := by
  induction n generalizing v s with
  | zero => exact ends_ok (ReaderFrame.refl s)
  | succ n ih =>
    exact ends_bind (getBit_frame s) (fun _ h => h) fun b t ht =>
      ⟨fun a u h => ht.trans ((ih (shiftIn v b) t).1 a u h), fun e u h => ht.trans ((ih (shiftIn v b) t).2 e u h)⟩

/-! ### Writing -/

/-- One bit: it always goes through with `io_fault = never`, and the bits written grow by it (R131). -/
theorem putBit_written (b : Bool) {s : State} (hio : s.io = []) (hw : WriterOk s) :
    ∃ (wbuf : Byte) (wcnt : BitVec 4) (bytes : List Byte),
      putBit b s = .ok () { s with wbuf := wbuf, wcnt := wcnt, snk := s.snk ++ bytes } ∧
      WriterOk { s with wbuf := wbuf, wcnt := wcnt } ∧
      written { s with wbuf := wbuf, wcnt := wcnt, snk := s.snk ++ bytes } = written s ++ [b] := by
  obtain ⟨hc, hb⟩ := hw
  by_cases h7 : s.wcnt = 7#4
  · refine ⟨0, 0, [shiftIn s.wbuf b], ?_, ⟨Nat.zero_le _, Nat.one_pos⟩, ?_⟩
    · unfold putBit
      dsimp only
      rw [if_pos (by rw [h7]; rfl), snkWrite_never _ (by exact hio)]
      rfl
    · have := lowBits_shiftIn (n := 7) (by omega) s.wbuf b
      simp [written, bitsMsb_eq_lowBits, this, h7]
  · have h7' : s.wcnt.toNat ≠ 7 := fun h => h7 (BitVec.eq_of_toNat_eq h)
    have h8 : s.wcnt + 1 ≠ 8 := fun h => h7 (by
      have := congrArg (· - 1) h
      simpa using this)
    have hn : (s.wcnt + 1).toNat = s.wcnt.toNat + 1 := by
      rw [BitVec.toNat_add]
      simp
      omega
    refine ⟨shiftIn s.wbuf b, s.wcnt + 1, [], ?_, ⟨by simp only [hn]; omega, by simp only [hn]; exact shiftIn_lt b hb⟩, ?_⟩
    · unfold putBit
      dsimp only
      rw [if_neg h8, List.append_nil]
    · simp only [written, hn, lowBits_shiftIn (show s.wcnt.toNat ≤ 7 by omega), List.append_nil, List.append_assoc]

/-- A bit sequence goes through, and the bits written grow by it (R132, R133, R135). -/
theorem putBits_written (bs : List Bool) {s : State} (hio : s.io = []) (hw : WriterOk s) :
    ∃ (wbuf : Byte) (wcnt : BitVec 4) (bytes : List Byte),
      putBits bs s = .ok () { s with wbuf := wbuf, wcnt := wcnt, snk := s.snk ++ bytes } ∧
      WriterOk { s with wbuf := wbuf, wcnt := wcnt } ∧
      written { s with wbuf := wbuf, wcnt := wcnt, snk := s.snk ++ bytes } = written s ++ bs := by
  induction bs generalizing s with
  | nil => exact ⟨s.wbuf, s.wcnt, [], by simp [putBits], hw, by simp⟩
  | cons b bs ih =>
    obtain ⟨wb, wc, by1, h1, hw1, hr1⟩ := putBit_written b hio hw
    obtain ⟨wb2, wc2, by2, h2, hw2, hr2⟩ := ih (s := { s with wbuf := wb, wcnt := wc, snk := s.snk ++ by1 }) hio hw1
    refine ⟨wb2, wc2, by1 ++ by2, ?_, hw2, ?_⟩
    · simp [putBits, h1, h2, List.append_assoc]
    · simp only [List.append_assoc] at hr2
      rw [hr2, hr1]
      simp

theorem putBits_append (as bs : List Bool) (s : State) :
    putBits (as ++ bs) s = (putBits as s).bind fun _ t => putBits bs t := by
  induction as generalizing s with
  | nil => rfl
  | cons a as ih =>
    simp only [List.cons_append, putBits, bind_assoc]
    congr 1
    funext _ t
    exact ih t

/-- The serializer writes the bits of the tree (R101, R180). -/
theorem serialize_eq_putBits (t : Tree) (s : State) : serialize t s = putBits (treeBits t) s := by
  induction t generalizing s with
  | leaf sym => rfl
  | node l r ihl ihr =>
    simp only [serialize, treeBits, putBits]
    congr 1
    funext _ u
    rw [putBits_append, ihl]
    congr 1
    funext _ v
    exact ihr v

theorem lowBits_shiftLeft {n : Nat} (hn : n ≤ 8) (v : Byte) :
    lowBits 8 (v <<< (8 - n)) = lowBits n v ++ List.replicate (8 - n) false := by
  apply List.ext_getElem (by simp; omega)
  intro i h _
  simp at h
  rw [List.getElem_append]
  simp only [lowBits, List.getElem_map, List.getElem_range, List.length_map, List.length_range, List.getElem_replicate,
    BitVec.getLsbD_shiftLeft]
  split
  · rw [show 8 - 1 - i - (8 - n) = n - 1 - i by omega]
    simp
    omega
  · simp
    omega

/-- Close brings the bits written to whole bytes with zero bits (R134). -/
theorem closeWriter_written {s : State} (hio : s.io = []) (hw : WriterOk s) :
    ∃ bytes : List Byte,
      closeWriter s = .ok () { s with wbuf := 0, wcnt := 0, snk := s.snk ++ bytes } ∧
      bitsOfBytes (s.snk ++ bytes) = written s ++ padding s.wcnt.toNat := by
  obtain ⟨hc, hb⟩ := hw
  by_cases h0 : s.wcnt = 0
  · have hz : s.wbuf = 0 := by
      apply BitVec.eq_of_toNat_eq
      simp [h0] at hb
      simp [hb]
    refine ⟨[], ?_, by simp [written, h0, padding]⟩
    simp only [closeWriter, h0, if_true, List.append_nil]
    congr 1
    cases s
    simp_all
  · have h0' : s.wcnt.toNat ≠ 0 := fun h => h0 (BitVec.eq_of_toNat_eq h)
    refine ⟨[s.wbuf <<< (8 - s.wcnt.toNat)], ?_, ?_⟩
    · unfold closeWriter
      rw [if_neg h0, snkWrite_never _ hio]
      rfl
    · simp only [bitsOfBytes_append, bitsOfBytes_cons, bitsOfBytes_nil, List.append_nil, bitsMsb_eq_lowBits,
        lowBits_shiftLeft (show s.wcnt.toNat ≤ 8 by omega), written, padding, List.append_assoc]
      rw [show (8 - s.wcnt.toNat % 8) % 8 = 8 - s.wcnt.toNat by omega]

/-! ### Reading -/

/-- One bit: the next unread bit comes out (R151). -/
theorem getBit_unread {b : Bool} {rest : List Bool} {s : State} (hio : s.io = []) (hr : ReaderOk s)
    (hu : unread s = b :: rest) :
    ∃ (rbuf : Byte) (rcnt : BitVec 4) (src : List Byte),
      getBit s = .ok b { s with rbuf := rbuf, rcnt := rcnt, src := src } ∧
      rcnt.toNat ≤ 7 ∧ unread { s with rbuf := rbuf, rcnt := rcnt, src := src } = rest := by
  by_cases h0 : s.rcnt = 0
  · rcases hs : s.src with _ | ⟨x, src⟩
    · simp [unread, h0, hs] at hu
    · simp only [unread, h0, hs, bitsOfBytes_cons, bitsMsb_eq_lowBits, lowBits_succ 7] at hu
      simp at hu
      refine ⟨x, 7, src, ?_, by decide, hu.2⟩
      simp [getBit, refill, h0, srcRead_some hio hs, hu.1]
  · have h0' : s.rcnt.toNat ≠ 0 := fun h => h0 (BitVec.eq_of_toNat_eq h)
    have hn : (s.rcnt - 1).toNat = s.rcnt.toNat - 1 := by
      rw [BitVec.toNat_sub]
      have : s.rcnt.toNat ≤ 7 := hr
      simp
      omega
    have hl : lowBits s.rcnt.toNat s.rbuf = s.rbuf.getLsbD (s.rcnt - 1).toNat :: lowBits (s.rcnt - 1).toNat s.rbuf := by
      rw [hn, ← lowBits_succ, show s.rcnt.toNat - 1 + 1 = s.rcnt.toNat by omega]
    simp only [unread, hl, List.cons_append, List.cons.injEq] at hu
    refine ⟨s.rbuf, s.rcnt - 1, s.src, ?_, ?_, hu.2⟩
    · unfold getBit refill
      rw [if_neg h0, bind_ok, ← hu.1]
    · rw [hn]
      have : s.rcnt.toNat ≤ 7 := hr
      omega

theorem unread_eq_nil {s : State} : unread s = [] ↔ s.rcnt = 0 ∧ s.src = [] := by
  constructor
  · intro h
    have := congrArg List.length h
    simp [unread] at this
    exact ⟨BitVec.eq_of_toNat_eq this.1, this.2⟩
  · rintro ⟨h0, hs⟩
    simp [unread, h0, hs]

/-- No bit left: EndOfStream, and nothing else changes (R151). -/
theorem getBit_end {s : State} (hio : s.io = []) (hu : unread s = []) : getBit s = .raised .endOfStream s := by
  obtain ⟨h0, hs⟩ := unread_eq_nil.1 hu
  simp [getBit, refill, h0, srcRead_none hio hs]

/-- A bit sequence comes out whole, first bit highest (R152, R153). -/
theorem getBits_unread {w : Nat} (bits rest : List Bool) (v : BitVec w) {s : State} (hio : s.io = []) (hr : ReaderOk s)
    (hu : unread s = bits ++ rest) :
    ∃ (rbuf : Byte) (rcnt : BitVec 4) (src : List Byte),
      getBits bits.length v s = .ok (bits.foldl shiftIn v) { s with rbuf := rbuf, rcnt := rcnt, src := src } ∧
      rcnt.toNat ≤ 7 ∧ unread { s with rbuf := rbuf, rcnt := rcnt, src := src } = rest := by
  induction bits generalizing v s with
  | nil => exact ⟨s.rbuf, s.rcnt, s.src, rfl, hr, hu⟩
  | cons b bits ih =>
    obtain ⟨rb, rc, src, h1, hr1, hu1⟩ := getBit_unread hio hr hu
    obtain ⟨rb2, rc2, src2, h2, hr2, hu2⟩ :=
      ih (shiftIn v b) (s := { s with rbuf := rb, rcnt := rc, src := src }) hio hr1 hu1
    exact ⟨rb2, rc2, src2, by simp [getBits, h1, h2], hr2, hu2⟩

/-- Fewer bits left than asked for: EndOfStream with every bit consumed (R67, R152, R153). -/
theorem getBits_end {w : Nat} {n : Nat} (v : BitVec w) {s : State} (hio : s.io = []) (hr : ReaderOk s)
    (hu : (unread s).length < n) :
    ∃ rbuf : Byte, getBits n v s = .raised .endOfStream { s with rbuf := rbuf, rcnt := 0, src := [] } := by
  induction n generalizing v s with
  | zero => omega
  | succ n ih =>
    rcases h : unread s with _ | ⟨b, rest⟩
    · obtain ⟨h0, hs⟩ := unread_eq_nil.1 h
      refine ⟨s.rbuf, ?_⟩
      simp only [getBits, getBit_end hio h, bind_raised]
      congr 1
      cases s
      simp_all
    · obtain ⟨rb, rc, src, h1, hr1, hu1⟩ := getBit_unread hio hr h
      obtain ⟨rb2, h2⟩ := ih (shiftIn v b) (s := { s with rbuf := rb, rcnt := rc, src := src }) hio hr1
        (by rw [hu1]; rw [h] at hu; simpa using hu)
      exact ⟨rb2, by simp [getBits, h1, h2]⟩

end Sys2Proof.Machine
end

