-- ==== Sys2Proof/Laws/Encoding.lean ====
section
/-! SUPPORT. The fields of the word an encoder writes (R80), and the operands taken back from an operand field (R81). -/

namespace Sys2Proof

theorem opField_append (op : BitVec 8) (rsv : BitVec 15) (arg : Value) : opField (op ++ rsv ++ arg) = op := by
  apply BitVec.eq_of_getLsbD_eq
  intro i hi
  have h : 56 + i - 41 - 15 = i := by omega
  simp only [opField, BitVec.getLsbD_extractLsb', BitVec.getLsbD_append, hi, decide_true, Bool.true_and, h]
  rw [if_neg (by omega), if_neg (by omega)]

theorem rsvField_append (op : BitVec 8) (rsv : BitVec 15) (arg : Value) : rsvField (op ++ rsv ++ arg) = rsv := by
  apply BitVec.eq_of_getLsbD_eq
  intro i hi
  simp only [rsvField, BitVec.getLsbD_extractLsb', BitVec.getLsbD_append]
  simp [hi]
  try omega

theorem argField_append (op : BitVec 8) (rsv : BitVec 15) (arg : Value) : argField (op ++ rsv ++ arg) = arg := by
  apply BitVec.eq_of_getLsbD_eq
  intro i hi
  simp only [argField, BitVec.getLsbD_extractLsb', BitVec.getLsbD_append]
  simp [hi]

/-- A word is its three fields (R80). -/
theorem word_eq_fields (cw : Word64) : cw = opField cw ++ rsvField cw ++ argField cw := by
  apply BitVec.eq_of_getLsbD_eq
  intro i hi
  rw [BitVec.getLsbD_append, BitVec.getLsbD_append]
  simp only [opField, rsvField, argField, BitVec.getLsbD_extractLsb']
  by_cases h1 : i < 41
  · simp [h1]
  · rw [if_neg h1]
    by_cases h2 : i - 41 < 15
    · rw [if_pos h2, show 41 + (i - 41) = i by omega]
      simp [h2]
    · rw [if_neg h2, show 56 + (i - 41 - 15) = i by omega]
      simp [show i - 41 - 15 < 8 by omega]

@[simp] theorem opField_encode (i : Instr) : opField (encode i) = i.op := opField_append ..
@[simp] theorem rsvField_encode (i : Instr) : rsvField (encode i) = 0 := rsvField_append ..
@[simp] theorem argField_encode (i : Instr) : argField (encode i) = i.arg := argField_append ..

theorem argFreq_append (freq : Word32) (id : NodeId) : argFreq (freq ++ id : BitVec 41) = freq := by
  apply BitVec.eq_of_getLsbD_eq
  intro i hi
  have h := BitVec.getLsbD_append (x := freq) (y := id) (i := 9 + i)
  rw [if_neg (by omega), show 9 + i - 9 = i by omega] at h
  simp only [argFreq, BitVec.getLsbD_extractLsb', hi, decide_true, Bool.true_and]
  exact h

theorem argId_append (freq : Word32) (id : NodeId) : argId (freq ++ id : BitVec 41) = id := by
  apply BitVec.eq_of_getLsbD_eq
  intro i hi
  have h := BitVec.getLsbD_append (x := freq) (y := id) (i := 0 + i)
  rw [if_pos (by omega)] at h
  simp only [argId, BitVec.getLsbD_extractLsb', hi, decide_true, Bool.true_and]
  exact h.trans (by rw [Nat.zero_add])

end Sys2Proof
end

