-- ==== Sys2Proof/Laws/Launch.lean ====
section
/-! SUPPORT. What the launch premises give at once (spec/70_reset_and_hazards.md R282). -/

namespace Sys2Proof.Machine

/-- The word SYS_RESET is encoded as, which (d) asks for, is no other command's. -/
theorem encode_sysReset : encode .sysReset = 0x7000000000000000 := by decide

/-- A host that hands over another word keeps (d) only where no error stands. -/
theorem err_none_of_handsOver {s : State} {cw : Word64} (hd : ResetsAfterError s) (hb : HandsOver cw s)
    (hcw : cw ≠ encode .sysReset) : s.err = none := by
  by_contra he
  rcases hd he with h | h
  · simp [HandsOver, h] at hb
  · rw [HandsOver] at hb h
    rw [hb] at h
    injection h with h
    injection h with h
    exact hcw h

/-- A launched command hands over the head of the host's list. -/
theorem host_of_handsOver {s : State} {cw : Word64} (h : HandsOver cw s) : s.host = .command cw :: s.host.tail := by
  rw [HandsOver, List.head?_eq_some_iff] at h
  obtain ⟨rest, h⟩ := h
  rw [h, List.tail_cons]

end Sys2Proof.Machine
end

