-- ==== Sys2Proof/Laws/Store.lean ====
section
/-! SUPPORT. The laws of the sparse tables: a read after a write, that every write keeps the canonical form, and that two
tables in canonical form with the same reads are equal. -/

namespace Sys2Proof.Machine

variable {α : Type}

@[simp] theorem storeGet_nil (i : Nat) : storeGet ([] : Store α) i = none := rfl

theorem storeGet_cons (k : Nat) (v : α) (m : Store α) (i : Nat) :
    storeGet ((k, v) :: m) i = if k = i then some v else storeGet m i := rfl

/-- A read after a write gives the value written, and a write leaves every other index alone. -/
theorem storeGet_storePut (m : Store α) (i j : Nat) (x : α) :
    storeGet (storePut m i x) j = if i = j then some x else storeGet m j := by
  induction m with
  | nil => simp [storePut, storeGet]
  | cons e m ih =>
    obtain ⟨k, v⟩ := e
    unfold storePut
    split
    · simp [storeGet]
    · split
      · subst_vars; simp only [storeGet]; split <;> rfl
      · rename_i h1 h2
        simp only [storeGet, ih]
        split
        · rename_i h; subst h; rw [if_neg h2]
        · rfl

@[simp] theorem storeGet_storePut_same (m : Store α) (i : Nat) (x : α) : storeGet (storePut m i x) i = some x := by
  simp [storeGet_storePut]

theorem storeGet_storePut_other (m : Store α) {i j : Nat} (x : α) (h : i ≠ j) :
    storeGet (storePut m i x) j = storeGet m j := by
  simp [storeGet_storePut, h]

theorem mem_of_storeGet {m : Store α} {i : Nat} {x : α} (h : storeGet m i = some x) : (i, x) ∈ m := by
  induction m with
  | nil => simp at h
  | cons e m ih =>
    obtain ⟨k, v⟩ := e
    rw [storeGet_cons] at h
    split at h
    · simp_all
    · exact List.mem_cons_of_mem _ (ih h)

theorem storeGet_none_of_lt {m : Store α} {i : Nat} (h : ∀ e ∈ m, i < e.1) : storeGet m i = none := by
  induction m with
  | nil => rfl
  | cons e m ih =>
    obtain ⟨k, v⟩ := e
    have hk := h (k, v) (List.mem_cons_self ..)
    rw [storeGet_cons, if_neg (by simp at hk; omega)]
    exact ih fun e he => h e (List.mem_cons_of_mem _ he)

/-- In canonical form the listed entries are exactly the reads. -/
theorem mem_iff_storeGet {m : Store α} (hm : storeSorted m) {i : Nat} {x : α} : (i, x) ∈ m ↔ storeGet m i = some x := by
  refine ⟨fun h => ?_, mem_of_storeGet⟩
  induction m with
  | nil => simp at h
  | cons e m ih =>
    obtain ⟨k, v⟩ := e
    rw [storeSorted, List.pairwise_cons] at hm
    rw [storeGet_cons]
    rcases List.mem_cons.1 h with h | h
    · simp at h; simp [h]
    · have hlt := hm.1 _ h
      rw [if_neg (by simp at hlt; omega)]
      exact ih hm.2 h

/-- Every entry a write leaves is the one written or was there before. -/
theorem mem_storePut {m : Store α} {i : Nat} {x : α} {e : Nat × α} (h : e ∈ storePut m i x) : e = (i, x) ∨ e ∈ m := by
  induction m with
  | nil => simpa [storePut] using h
  | cons a m ih =>
    obtain ⟨k, v⟩ := a
    simp only [storePut] at h
    split at h
    · simpa using h
    · split at h
      · rcases List.mem_cons.1 h with h | h
        · exact .inl h
        · exact .inr (List.mem_cons_of_mem _ h)
      · rcases List.mem_cons.1 h with h | h
        · exact .inr (h ▸ List.mem_cons_self ..)
        · rcases ih h with h | h
          · exact .inl h
          · exact .inr (List.mem_cons_of_mem _ h)

/-- A write keeps the canonical form. -/
theorem storePut_sorted {m : Store α} (hm : storeSorted m) (i : Nat) (x : α) : storeSorted (storePut m i x) := by
  induction m with
  | nil => simp [storePut]
  | cons a m ih =>
    obtain ⟨k, v⟩ := a
    rw [storeSorted, List.pairwise_cons] at hm
    simp only [storePut]
    split
    · rename_i h
      rw [storeSorted, List.pairwise_cons, List.pairwise_cons]
      refine ⟨fun e he => ?_, hm⟩
      rcases List.mem_cons.1 he with he | he
      · subst he; exact h
      · exact h.trans (hm.1 e he)
    · split
      · rename_i h
        subst h
        exact List.pairwise_cons.2 hm
      · rename_i h1 h2
        rw [storeSorted, List.pairwise_cons]
        refine ⟨fun e he => ?_, ih hm.2⟩
        rcases mem_storePut he with he | he
        · subst he; simp; omega
        · exact hm.1 e he

theorem mem_storeDel {m : Store α} {i : Nat} {e : Nat × α} (h : e ∈ storeDel m i) : e ∈ m := by
  induction m with
  | nil => simp [storeDel] at h
  | cons a m ih =>
    obtain ⟨k, v⟩ := a
    simp only [storeDel] at h
    split at h
    · exact List.mem_cons_of_mem _ h
    · rcases List.mem_cons.1 h with h | h
      · exact h ▸ List.mem_cons_self ..
      · exact List.mem_cons_of_mem _ (ih h)

/-- Taking an entry out keeps the canonical form. -/
theorem storeDel_sorted {m : Store α} (hm : storeSorted m) (i : Nat) : storeSorted (storeDel m i) := by
  induction m with
  | nil => simp [storeDel]
  | cons a m ih =>
    obtain ⟨k, v⟩ := a
    rw [storeSorted, List.pairwise_cons] at hm
    simp only [storeDel]
    split
    · exact hm.2
    · exact List.pairwise_cons.2 ⟨fun e he => hm.1 e (mem_storeDel he), ih hm.2⟩

/-- Taking an entry out of a table in canonical form empties that index alone. -/
theorem storeGet_storeDel {m : Store α} (hm : storeSorted m) (i j : Nat) :
    storeGet (storeDel m i) j = if i = j then none else storeGet m j := by
  induction m with
  | nil => simp [storeDel]
  | cons a m ih =>
    obtain ⟨k, v⟩ := a
    rw [storeSorted, List.pairwise_cons] at hm
    simp only [storeDel]
    split
    · rename_i h
      subst h
      split
      · rename_i h; subst h; exact storeGet_none_of_lt hm.1
      · rename_i h; rw [storeGet_cons, if_neg h]
    · rename_i h
      rw [storeGet_cons, storeGet_cons, ih hm.2]
      split
      · rename_i h2; subst h2; rw [if_neg (Ne.symm h)]
      · rfl

/-- Two tables in canonical form with the same reads are equal. -/
theorem store_ext {m n : Store α} (hm : storeSorted m) (hn : storeSorted n)
    (h : ∀ i, storeGet m i = storeGet n i) : m = n := by
  induction m generalizing n with
  | nil =>
    cases n with
    | nil => rfl
    | cons b n => obtain ⟨k, v⟩ := b; have := h k; simp [storeGet] at this
  | cons a m ih =>
    obtain ⟨k, v⟩ := a
    cases n with
    | nil => have := h k; simp [storeGet] at this
    | cons b n =>
      obtain ⟨l, w⟩ := b
      rw [storeSorted, List.pairwise_cons] at hm hn
      have hkl : k = l := by
        rcases Nat.lt_trichotomy k l with hlt | heq | hlt
        · have h1 := h k
          rw [storeGet_cons, storeGet_cons, if_pos rfl, if_neg (by omega),
            storeGet_none_of_lt fun e he => hlt.trans (hn.1 e he)] at h1
          simp at h1
        · exact heq
        · have h1 := h l
          rw [storeGet_cons, storeGet_cons, if_pos rfl, if_neg (by omega),
            storeGet_none_of_lt fun e he => hlt.trans (hm.1 e he)] at h1
          simp at h1
      subst hkl
      have hv := h k
      simp only [storeGet_cons, if_true] at hv
      injection hv with hv
      subst hv
      congr 1
      refine ih hm.2 hn.2 fun i => ?_
      by_cases hi : k = i
      · subst hi
        rw [storeGet_none_of_lt hm.1, storeGet_none_of_lt hn.1]
      · simpa [storeGet_cons, hi] using h i

@[simp] theorem countGet_nil (i : Nat) : countGet [] i = 0 := rfl

/-- A read of a table of counts after a write. -/
theorem countGet_countPut {m : Store Word32} (hm : storeSorted m) (i j : Nat) (x : Word32) :
    countGet (countPut m i x) j = if i = j then x else countGet m j := by
  unfold countPut countGet
  split
  · subst_vars
    rw [storeGet_storeDel hm]
    split <;> rfl
  · rw [storeGet_storePut]
    split <;> rfl

/-- A write of a count keeps the canonical form. -/
theorem countPut_sorted {m : Store Word32} (hm : storeSorted m) (i : Nat) (x : Word32) :
    storeSorted (countPut m i x) := by
  unfold countPut
  split
  · exact storeDel_sorted hm i
  · exact storePut_sorted hm i x

/-- A write of a count lists no 0. -/
theorem mem_countPut {m : Store Word32} {i : Nat} {x : Word32} {e : Nat × Word32} (h : e ∈ countPut m i x) :
    (e = (i, x) ∧ x ≠ 0) ∨ e ∈ m := by
  unfold countPut at h
  split at h
  · exact .inr (mem_storeDel h)
  · rename_i hx
    rcases mem_storePut h with h | h
    · exact .inl ⟨h, hx⟩
    · exact .inr h

end Sys2Proof.Machine
end

