-- ==== Sys2Proof/Laws/Memory.lean ====
section
/-! SUPPORT. Every write of an internal memory keeps the canonical form of the sparse tables (`Memory.wf`), and the reset
state has it. -/

namespace Sys2Proof.Machine

theorem reset_memory_wf : Memory.wf State.reset := by simp [Memory.wf, State.reset]

/-- The form reads the three tables alone. -/
theorem memory_wf_congr {s t : State} (hnm : t.nm = s.nm) (hft : t.ft = s.ft) (hct : t.ct = s.ct) (h : Memory.wf s) :
    Memory.wf t := by
  simpa only [Memory.wf, hnm, hft, hct] using h

/-- Writing an entry of node memory. -/
theorem memory_wf_putNode {s : State} (h : Memory.wf s) {id : Nat} (hid : id < nodeMemSize) (n : Node) :
    Memory.wf { s with nm := storePut s.nm id n } := by
  obtain ⟨⟨hs, hb⟩, hrest⟩ := h
  refine ⟨⟨storePut_sorted hs id n, fun e he => ?_⟩, hrest⟩
  rcases mem_storePut he with rfl | he
  · exact hid
  · exact hb e he

/-- Writing an entry of the frequency table. -/
theorem memory_wf_putCount {s : State} (h : Memory.wf s) {sym : Nat} (hsym : sym < alphabetSize) (n : Word32) :
    Memory.wf { s with ft := countPut s.ft sym n } := by
  obtain ⟨hnm, ⟨hs, hb⟩, hct⟩ := h
  refine ⟨hnm, ⟨countPut_sorted hs sym n, fun e he => ?_⟩, hct⟩
  rcases mem_countPut he with ⟨rfl, hn⟩ | he
  · exact ⟨hsym, hn⟩
  · exact hb e he

/-- Binding a code. -/
theorem memory_wf_putCode {s : State} (h : Memory.wf s) {sym : Nat} (hsym : sym < alphabetSize) {code : List Bool}
    (hc : code ≠ []) : Memory.wf { s with ct := storePut s.ct sym code } := by
  obtain ⟨hnm, hft, ⟨hs, hb⟩⟩ := h
  refine ⟨hnm, hft, storePut_sorted hs sym code, fun e he => ?_⟩
  rcases mem_storePut he with rfl | he
  · exact ⟨hsym, hc⟩
  · exact hb e he

/-- Clearing node memory. -/
theorem memory_wf_clearNodes {s : State} (h : Memory.wf s) : Memory.wf { s with nm := [] } := ⟨by simp, h.2⟩

/-- Clearing the frequency table. -/
theorem memory_wf_clearCounts {s : State} (h : Memory.wf s) : Memory.wf { s with ft := [] } := ⟨h.1, by simp, h.2.2⟩

/-- Clearing the code table. -/
theorem memory_wf_clearCodes {s : State} (h : Memory.wf s) : Memory.wf { s with ct := [] } := ⟨h.1, h.2.1, by simp⟩

end Sys2Proof.Machine
end

