-- ==== Sys2Proof/Laws/PerInstr.lean ====
section
/-! SUPPORT. The family `Opcode`: the word of every command, as syntax (spec/30_encoding.md R80, R81, R83, R84). -/

namespace Sys2Proof.Laws.Opcode

/-- The word of the command carries its `op`, a zero `rsv` and an `arg` whose bits outside the operand bits of its format are
0 (R80, R81), and it matches the row of the opcode table with the command's mnemonic (R84). -/
def Statement (i : Instr) : Prop :=
  opField (encode i) = i.op ∧ rsvField (encode i) = 0 ∧
  (∃ f, formatOf i.op = some f ∧ argField (encode i) &&& ~~~ f.operandBits = 0) ∧
  ∃ row ∈ opcodeTable, row.mnemonic = i.mnemonic ∧ opField row.pattern = i.op

/-- An operand of `w` bits at the foot of `arg` leaves the bits above it 0. -/
theorem operand_fits {w : Nat} (v : BitVec w) (m : Value) (hm : ∀ i < w, m.getLsbD i = true) :
    v.setWidth 41 &&& ~~~ m = 0 := by
  apply BitVec.eq_of_getLsbD_eq
  intro i hi
  by_cases h : i < w
  · simp [hm i h]
  · simp [BitVec.getLsbD_of_ge v i (by omega)]

/-- A command follows from its format. -/
theorem of_format {i : Instr} {f : Format} (hf : formatOf i.op = some f) (ha : i.arg &&& ~~~ f.operandBits = 0)
    (hr : ∃ row ∈ opcodeTable, row.mnemonic = i.mnemonic ∧ opField row.pattern = i.op) : Statement i :=
  ⟨opField_encode i, rsvField_encode i, ⟨f, hf, by rw [argField_encode]; exact ha⟩, hr⟩

/-- A command without operand. -/
theorem of_plain {i : Instr} (hf : formatOf i.op = some .z) (ha : i.arg = 0)
    (hr : ∃ row ∈ opcodeTable, row.mnemonic = i.mnemonic ∧ opField row.pattern = i.op) : Statement i :=
  of_format hf (by rw [ha]; decide) hr

theorem pqPush (freq : Word32) (id : NodeId) : Statement (.pqPush freq id) :=
  of_format (f := .k41) rfl (by simp [Format.operandBits]) ⟨_, .head _, rfl, rfl⟩

theorem pqTop : Statement .pqTop := of_plain rfl rfl (by decide)
theorem pqPop : Statement .pqPop := of_plain rfl rfl (by decide)
theorem pqSize : Statement .pqSize := of_plain rfl rfl (by decide)

theorem bwPutbit (bit : Bool) : Statement (.bwPutbit bit) :=
  of_format (f := .b1) rfl (operand_fits _ _ (by decide)) (by simp only [Instr.mnemonic, Instr.op]; decide)

theorem bwPutbyte (b : Byte) : Statement (.bwPutbyte b) :=
  of_format (f := .b8) rfl (operand_fits _ _ (by decide)) (by simp only [Instr.mnemonic, Instr.op]; decide)

theorem bwPutint (v : Word32) : Statement (.bwPutint v) :=
  of_format (f := .w32) rfl (operand_fits _ _ (by decide)) (by simp only [Instr.mnemonic, Instr.op]; decide)

theorem bwClose : Statement .bwClose := of_plain rfl rfl (by decide)
theorem brGetbit : Statement .brGetbit := of_plain rfl rfl (by decide)
theorem brGetbyte : Statement .brGetbyte := of_plain rfl rfl (by decide)
theorem brGetint : Statement .brGetint := of_plain rfl rfl (by decide)
theorem ftLoad : Statement .ftLoad := of_plain rfl rfl (by decide)
theorem tbBuild : Statement .tbBuild := of_plain rfl rfl (by decide)
theorem tsSerialize : Statement .tsSerialize := of_plain rfl rfl (by decide)
theorem tdDeserialize : Statement .tdDeserialize := of_plain rfl rfl (by decide)
theorem ctDerive : Statement .ctDerive := of_plain rfl rfl (by decide)
theorem encEmit : Statement .encEmit := of_plain rfl rfl (by decide)
theorem encCompress : Statement .encCompress := of_plain rfl rfl (by decide)

theorem decWalk (n : Word32) : Statement (.decWalk n) :=
  of_format (f := .w32) rfl (operand_fits _ _ (by decide)) (by simp only [Instr.mnemonic, Instr.op]; decide)

theorem decDecompress : Statement .decDecompress := of_plain rfl rfl (by decide)
theorem sysReset : Statement .sysReset := of_plain rfl rfl (by decide)

theorem sysRdreg (idx : BitVec 4) : Statement (.sysRdreg idx) :=
  of_format (f := .r4) rfl (operand_fits _ _ (by decide)) (by simp only [Instr.mnemonic, Instr.op]; decide)

end Sys2Proof.Laws.Opcode
end

