-- ==== Sys2Proof/Laws/Pipeline.lean ====
section
/-! SUPPORT. What the shared loops of the tree builder, the encoder and the decoder can do: which fields they touch wherever
they end, and their closed forms where no channel access fails. -/

namespace Sys2Proof.Machine

/-! ### Which fields the loops touch -/

/-- Only the input buffer, the frequency table, `src` and the channel answers differ. -/
def LoadFrame (s t : State) : Prop := t = { s with io := t.io, ft := t.ft, ib := t.ib, src := t.src }

/-- Only the queue, node memory and `NINT` differ. -/
def BuildFrame (s t : State) : Prop := t = { s with hp := t.hp, nm := t.nm, nint := t.nint }

/-- Only the bit reader, node memory, `NINT` and the channel answers differ. -/
def ParseFrame (s t : State) : Prop :=
  t = { s with io := t.io, rbuf := t.rbuf, rcnt := t.rcnt, src := t.src, nm := t.nm, nint := t.nint }

/-- Only the bit reader, `snk` and the channel answers differ. -/
def WalkFrame (s t : State) : Prop :=
  t = { s with io := t.io, rbuf := t.rbuf, rcnt := t.rcnt, src := t.src, snk := t.snk }

theorem LoadFrame.trans {s t u : State} (h₁ : LoadFrame s t) (h₂ : LoadFrame t u) : LoadFrame s u := by
  unfold LoadFrame at *
  rw [h₂, h₁]

theorem BuildFrame.trans {s t u : State} (h₁ : BuildFrame s t) (h₂ : BuildFrame t u) : BuildFrame s u := by
  unfold BuildFrame at *
  rw [h₂, h₁]

theorem ParseFrame.trans {s t u : State} (h₁ : ParseFrame s t) (h₂ : ParseFrame t u) : ParseFrame s u := by
  unfold ParseFrame at *
  rw [h₂, h₁]

theorem WalkFrame.trans {s t u : State} (h₁ : WalkFrame s t) (h₂ : WalkFrame t u) : WalkFrame s u := by
  unfold WalkFrame at *
  rw [h₂, h₁]

theorem ReaderFrame.parse {s t : State} (h : ReaderFrame s t) : ParseFrame s t := by
  unfold ReaderFrame at h
  unfold ParseFrame
  rw [h]

theorem ReaderFrame.walk {s t : State} (h : ReaderFrame s t) : WalkFrame s t := by
  unfold ReaderFrame at h
  unfold WalkFrame
  rw [h]

theorem ends_mono {α : Type} {P Q : State → Prop} {r : Res α} (h : r.Ends P) (hPQ : ∀ s, P s → Q s) : r.Ends Q :=
  ⟨fun a t e => hPQ t (h.1 a t e), fun e t e' => hPQ t (h.2 e t e')⟩

/-- A transitive relation between the first and the last state goes through a sequence. -/
theorem ends_seq {α β : Type} (R : State → State → Prop) (trans : ∀ s t u, R s t → R t u → R s u) {s : State}
    {r : Res α} {f : α → State → Res β} (hr : r.Ends (R s)) (hf : ∀ a t, (f a t).Ends (R t)) : (r.bind f).Ends (R s) :=
  ends_bind hr (fun _ h => h) fun a t ht => ends_mono (hf a t) fun u hu => trans s t u ht hu

theorem loadLoop_frame (fuel : Nat) (s : State) : (loadLoop fuel s).Ends (LoadFrame s) := by
  induction fuel generalizing s with
  | zero => exact ends_ok rfl
  | succ fuel ih =>
    unfold loadLoop
    rcases srcRead_cases s with ⟨io, h, _⟩ | ⟨io, b, rest, h, _⟩ | ⟨io, h, _⟩
    · rw [h]; exact ends_ok rfl
    · rw [h]; exact ends_mono (ih _) fun _ hu => LoadFrame.trans (t := { s with io := io, src := rest, ib := _, ft := _ }) rfl hu
    · rw [h]; exact ends_raised rfl

theorem pushKey_frame (k : Key) (s : State) : (pushKey k s).Ends (BuildFrame s) := by
  unfold pushKey
  split
  · exact ends_raised rfl
  · exact ends_ok rfl

theorem topKey_frame (s : State) : (topKey s).Ends (BuildFrame s) := by
  unfold topKey
  split
  · exact ends_raised rfl
  · exact ends_ok rfl

theorem popKey_frame (s : State) : (popKey s).Ends (BuildFrame s) := by
  unfold popKey
  split
  · exact ends_raised rfl
  · exact ends_ok rfl

theorem pushLeaves_frame (syms : List Nat) (s : State) : (pushLeaves syms s).Ends (BuildFrame s) := by
  induction syms generalizing s with
  | nil => exact ends_ok rfl
  | cons sym syms ih =>
    simp only [pushLeaves]
    split
    · exact ih s
    · exact ends_seq BuildFrame (fun _ _ _ => BuildFrame.trans)
        (ends_mono (pushKey_frame _ _) fun _ hu =>
          BuildFrame.trans (t := { s with nm := storePut s.nm sym ⟨countGet s.ft sym, none⟩ }) rfl hu)
        fun _ t => ih t

theorem mergeOnce_frame (s : State) : (mergeOnce s).Ends (BuildFrame s) :=
  ends_seq BuildFrame (fun _ _ _ => BuildFrame.trans) (topKey_frame s) fun a t =>
  ends_seq BuildFrame (fun _ _ _ => BuildFrame.trans) (popKey_frame t) fun _ u =>
  ends_seq BuildFrame (fun _ _ _ => BuildFrame.trans) (topKey_frame u) fun b v =>
  ends_seq BuildFrame (fun _ _ _ => BuildFrame.trans) (popKey_frame v) fun _ w =>
    ends_mono (pushKey_frame _ _) fun _ hx =>
      BuildFrame.trans
        (t := { w with nint := w.nint + 1,
                       nm := storePut w.nm (nextInnerId w.nint).toNat
                         ⟨keyFreq a + keyFreq b, some (keyId a, keyId b)⟩ }) rfl hx

theorem mergeLoop_frame (fuel : Nat) (s : State) : (mergeLoop fuel s).Ends (BuildFrame s) := by
  induction fuel generalizing s with
  | zero => exact ends_ok rfl
  | succ fuel ih =>
    unfold mergeLoop
    split
    · exact ends_ok rfl
    · exact ends_seq BuildFrame (fun _ _ _ => BuildFrame.trans) (mergeOnce_frame s) fun _ t => ih t

theorem serialize_frame (t : Tree) (s : State) : (serialize t s).Ends (WriterFrame s) := by
  rw [serialize_eq_putBits]
  exact putBits_frame _ s

theorem readLeaf_frame (s : State) : (readLeaf s).Ends (ParseFrame s) := by
  refine ends_seq ParseFrame (fun _ _ _ => ParseFrame.trans) (ends_mono (getBits_frame 8 0 s) fun _ h => h.parse) fun sym t => ?_
  split
  · exact ends_raised rfl
  · exact ends_ok rfl

theorem deserialize_frame (levels : Nat) (s : State) : (deserialize levels s).Ends (ParseFrame s) := by
  induction levels generalizing s with
  | zero => exact ends_raised rfl
  | succ levels ih =>
    refine ends_seq ParseFrame (fun _ _ _ => ParseFrame.trans) (ends_mono (getBit_frame s) fun _ h => h.parse) fun flag t => ?_
    split
    · exact readLeaf_frame t
    · exact ends_seq ParseFrame (fun _ _ _ => ParseFrame.trans) (ih t) fun l u => ends_seq ParseFrame (fun _ _ _ => ParseFrame.trans) (ih u) fun r v => ends_ok rfl

theorem emitCodes_frame (bytes : List Byte) (s : State) : (emitCodes bytes s).Ends (WriterFrame s) := by
  induction bytes generalizing s with
  | nil => exact ends_ok (WriterFrame.refl s)
  | cons b bytes ih =>
    simp only [emitCodes]
    split
    · exact ends_raised (WriterFrame.refl s)
    · exact ends_seq WriterFrame (fun _ _ _ => WriterFrame.trans) (putBits_frame _ s) fun _ t => ih t

theorem snkWrite_frame (b : Byte) (s : State) : (snkWrite b s).Ends (WalkFrame s) := by
  rcases snkWrite_cases b s with ⟨io, h⟩ | ⟨io, h, _⟩
  · rw [h]; exact ends_ok rfl
  · rw [h]; exact ends_raised rfl

theorem walkToLeaf_frame (t : Tree) (s : State) : (walkToLeaf t s).Ends (WalkFrame s) := by
  induction t generalizing s with
  | leaf sym => exact ends_ok rfl
  | node l r ihl ihr =>
    refine ends_seq WalkFrame (fun _ _ _ => WalkFrame.trans) (ends_mono (getBit_frame s) fun _ h => h.walk) fun b u => ?_
    split
    · exact ihr u
    · exact ihl u

theorem writeRepeated_frame (b : Byte) (n : Nat) (s : State) : (writeRepeated b n s).Ends (WalkFrame s) := by
  induction n generalizing s with
  | zero => exact ends_ok rfl
  | succ n ih => exact ends_seq WalkFrame (fun _ _ _ => WalkFrame.trans) (snkWrite_frame b s) fun _ t => ih t

theorem decodeLoop_frame (t : Tree) (n : Nat) (s : State) : (decodeLoop t n s).Ends (WalkFrame s) := by
  induction n generalizing s with
  | zero => exact ends_ok rfl
  | succ n ih =>
    exact ends_seq WalkFrame (fun _ _ _ => WalkFrame.trans) (walkToLeaf_frame t s) fun sym u =>
      ends_seq WalkFrame (fun _ _ _ => WalkFrame.trans) (snkWrite_frame sym u) fun _ v => ih v

/-! ### The byte in `RBUF` (R25) -/

theorem LastByteHeld.trans {b : Byte} {s t u : State} (h₁ : LastByteHeld b s t) (h₂ : LastByteHeld t.rbuf t u) :
    LastByteHeld b s u := by
  rcases h₂ with ⟨hs, hb⟩ | ⟨pre, hp⟩
  · rw [LastByteHeld, hs, hb]
    exact h₁
  · rcases h₁ with ⟨hs, -⟩ | ⟨pre', hp'⟩
    · exact .inr ⟨pre, hs ▸ hp⟩
    · exact .inr ⟨pre' ++ t.rbuf :: pre, by rw [hp', hp]; simp⟩

theorem refill_holds (s : State) : (refill s).Ends (LastByteHeld s.rbuf s) := by
  unfold refill
  split
  · rcases srcRead_cases s with ⟨io, h, _⟩ | ⟨io, b, rest, h, hs⟩ | ⟨io, h, _⟩
    · rw [h]; exact ends_raised (.inl ⟨rfl, rfl⟩)
    · rw [h]; exact ends_ok (.inr ⟨[], hs⟩)
    · rw [h]; exact ends_raised (.inl ⟨rfl, rfl⟩)
  · exact ends_ok (.inl ⟨rfl, rfl⟩)

theorem getBit_holds (s : State) : (getBit s).Ends (LastByteHeld s.rbuf s) :=
  ends_bind (refill_holds s) (fun _ h => h) fun _ _ ht => ends_ok ht

theorem getBits_holds {w : Nat} (n : Nat) (v : BitVec w) (s : State) : (getBits n v s).Ends (LastByteHeld s.rbuf s) := by
  induction n generalizing v s with
  | zero => exact ends_ok (.inl ⟨rfl, rfl⟩)
  | succ n ih =>
    exact ends_seq (fun s t => LastByteHeld s.rbuf s t) (fun _ _ _ => LastByteHeld.trans) (getBit_holds s)
      fun b t => ih (shiftIn v b) t

/-! ### Closed forms -/

theorem withTree_some {α : Type} {s : State} {t : Tree} (h : s.rootValid = true) (ht : s.tree = some t)
    (f : Tree → Res α) : withTree s f = f t := by
  simp [withTree, h, ht]

theorem withTree_broken {α : Type} {s : State} (h : s.rootValid = true) (ht : s.tree = none) (f : Tree → Res α) :
    withTree s f = .broken := by
  simp [withTree, h, ht]

theorem withTree_none {α : Type} {s : State} (h : s.rootValid = false) (f : Tree → Res α) :
    withTree s f = .raised .illegalOperation s := by
  simp [withTree, h]

/-- The frequency table after counting a byte sequence (R171). -/
def countAll (ft : Store Word32) : List Byte → Store Word32
  | [] => ft
  | b :: rest => countAll (countPut ft b.toNat (countGet ft b.toNat + 1)) rest

/-- The load loop takes all of `src`. -/
theorem loadLoop_never {fuel : Nat} {s : State} (hio : s.io = []) (hf : s.src.length < fuel) :
    loadLoop fuel s = .ok () { s with ft := countAll s.ft s.src, ib := s.ib ++ s.src, src := [] } := by
  induction fuel generalizing s with
  | zero => omega
  | succ fuel ih =>
    unfold loadLoop
    rcases hs : s.src with _ | ⟨b, rest⟩
    · rw [srcRead_none hio hs, bind_ok]
      cases s
      simp_all [countAll]
    · rw [srcRead_some hio hs, bind_ok]
      dsimp only
      rw [ih (s := { s with src := rest, ib := s.ib ++ [b],
                            ft := countPut s.ft b.toNat (countGet s.ft b.toNat + 1) }) hio
        (by rw [hs] at hf; simpa using hf)]
      simp [countAll]

theorem countAll_sorted {ft : Store Word32} (h : storeSorted ft) (bytes : List Byte) : storeSorted (countAll ft bytes) := by
  induction bytes generalizing ft with
  | nil => exact h
  | cons b bytes ih => exact ih (countPut_sorted h _ _)

/-- Counting adds the occurrences of each symbol (R36, R171). -/
theorem countGet_countAll {ft : Store Word32} (h : storeSorted ft) (bytes : List Byte) (sym : Byte) :
    countGet (countAll ft bytes) sym.toNat = countGet ft sym.toNat + BitVec.ofNat 32 (bytes.count sym) := by
  induction bytes generalizing ft with
  | nil => simp [countAll]
  | cons b bytes ih =>
    rw [countAll, ih (countPut_sorted h _ _), countGet_countPut h, List.count_cons]
    by_cases hb : b = sym
    · subst hb
      simp only [if_true, beq_self_eq_true]
      rw [BitVec.ofNat_add, show BitVec.ofNat 32 1 = 1 from rfl]
      rw [BitVec.add_assoc, BitVec.add_comm 1]
    · have : b.toNat ≠ sym.toNat := fun e => hb (BitVec.eq_of_toNat_eq e)
      simp [this, hb]

/-- A single leaf is written `n` times (R221). -/
theorem writeRepeated_never {b : Byte} {n : Nat} {s : State} (hio : s.io = []) :
    writeRepeated b n s = .ok () { s with snk := s.snk ++ List.replicate n b } := by
  induction n generalizing s with
  | zero => simp [writeRepeated]
  | succ n ih =>
    rw [writeRepeated, snkWrite_never b hio, bind_ok, ih (s := { s with snk := s.snk ++ [b] }) hio]
    simp [List.replicate_succ]

end Sys2Proof.Machine
end

