-- ==== Sys2Proof/Laws/Queue.lean ====
section
/-! SUPPORT. The heap: `Push` and `Pop` as multisets, that both keep the heap property, and that the root of a heap is its
minimum (R110 to R115). -/

namespace Sys2Proof.Machine

theorem key_le_refl (a : Key) : a ≤ a := BitVec.le_refl a

theorem key_le_of_lt {a b : Key} (h : a < b) : a ≤ b := BitVec.le_of_lt h

theorem key_le_trans {a b c : Key} (h : a ≤ b) (h' : b ≤ c) : a ≤ c := BitVec.le_trans h h'

theorem key_le_of_not_lt {a b : Key} (h : ¬ a < b) : b ≤ a := BitVec.not_lt.1 h

theorem hpGet_eq {hp : List Key} {i : Nat} (h : i < hp.length) : hpGet hp i = hp[i] := by
  simp [hpGet, List.getD_eq_getElem?_getD, h]

@[simp] theorem length_hpSwap (hp : List Key) (i j : Nat) : (hpSwap hp i j).length = hp.length := by simp [hpSwap]

/-- What a swap leaves at each position. -/
theorem hpGet_hpSwap {hp : List Key} {i j : Nat} (hi : i < hp.length) (hj : j < hp.length) (k : Nat) :
    hpGet (hpSwap hp i j) k = if k = j then hpGet hp i else if k = i then hpGet hp j else hpGet hp k := by
  simp only [hpGet, hpSwap, List.getD_eq_getElem?_getD, List.getElem?_set, List.length_set]
  by_cases h1 : j = k
  · subst h1; simp [hj]
  · by_cases h2 : i = k
    · subst h2; simp [h1, hi, Ne.symm h1]
    · simp [h1, h2, Ne.symm h1, Ne.symm h2]

theorem hpSwap_perm {hp : List Key} {i j : Nat} (hi : i < hp.length) (hj : j < hp.length) : (hpSwap hp i j).Perm hp := by
  rw [hpSwap, hpGet_eq hi, hpGet_eq hj]
  exact List.set_set_perm hi hj

theorem parentPos_lt {i : Nat} (h : 0 < i) : parentPos i < i := by unfold parentPos; omega

/-! ### Push -/

theorem siftUp_perm (fuel i : Nat) (hp : List Key) (hi : i < hp.length) : (siftUp fuel i hp).Perm hp := by
  induction fuel generalizing i hp with
  | zero => exact .refl _
  | succ fuel ih =>
    unfold siftUp
    split
    · rename_i h
      have hp' := parentPos_lt h.1
      exact (ih _ _ (by simp; omega)).trans (hpSwap_perm hi (by omega))
    · exact .refl _

/-- The upward percolation restores the heap property when only position `i` may precede its parent. -/
theorem siftUp_ordered (fuel i : Nat) (hp : List Key) (hf : i ≤ fuel) (hi : i < hp.length)
    (h1 : ∀ k < hp.length, 0 < k → k ≠ i → hpGet hp (parentPos k) ≤ hpGet hp k)
    (h2 : 0 < i → ∀ k < hp.length, 0 < k → parentPos k = i → hpGet hp (parentPos i) ≤ hpGet hp k) :
    HeapOrdered (siftUp fuel i hp) := by
  induction fuel generalizing i hp with
  | zero =>
    intro k hk h0
    exact h1 k hk h0 (by omega)
  | succ fuel ih =>
    unfold siftUp
    split
    · rename_i h
      obtain ⟨h0, hlt⟩ := h
      have hpi := parentPos_lt h0
      have hpl : parentPos i < hp.length := by omega
      have hsw := hpGet_hpSwap hi hpl
      refine ih _ _ (by omega) (by simpa using hpl) ?_ ?_
      · intro k hk hk0 hkp
        simp only [length_hpSwap] at hk
        rw [hsw, hsw, if_neg hkp]
        by_cases hki : k = i
        · subst hki
          rw [if_pos rfl, if_pos rfl]
          exact key_le_of_lt hlt
        · rw [if_neg hki]
          by_cases hq : parentPos k = parentPos i
          · rw [if_pos hq]
            exact key_le_trans (key_le_of_lt hlt) (hq ▸ h1 k hk hk0 hki)
          · rw [if_neg hq]
            by_cases hq2 : parentPos k = i
            · rw [if_pos hq2]
              exact h2 h0 k hk hk0 hq2
            · rw [if_neg hq2]
              exact h1 k hk hk0 hki
      · intro hp0 k hk hk0 hkp
        simp only [length_hpSwap] at hk
        have hpp := parentPos_lt hp0
        have hgp := h1 (parentPos i) hpl hp0 (by omega)
        rw [hsw, hsw, if_neg (by omega), if_neg (by omega)]
        have hkne : k ≠ parentPos i := by have := parentPos_lt hk0; omega
        rw [if_neg hkne]
        by_cases hki : k = i
        · rw [if_pos hki]; exact hgp
        · rw [if_neg hki]
          exact key_le_trans hgp (hkp ▸ h1 k hk hk0 hki)
    · rename_i h
      intro k hk h0
      by_cases hki : k = i
      · subst hki
        exact key_le_of_not_lt fun hlt => h ⟨h0, hlt⟩
      · exact h1 k hk h0 hki

/-- Push adds the key, as a multiset (R111, R115). -/
theorem heapPush_perm (k : Key) (hp : List Key) : (heapPush k hp).Perm (k :: hp) :=
  (siftUp_perm _ _ _ (by simp)).trans (List.perm_append_singleton k hp)

@[simp] theorem length_heapPush (k : Key) (hp : List Key) : (heapPush k hp).length = hp.length + 1 := by
  simpa using (heapPush_perm k hp).length_eq

theorem hpGet_append_left {hp : List Key} {k : Key} {i : Nat} (h : i < hp.length) : hpGet (hp ++ [k]) i = hpGet hp i := by
  rw [hpGet_eq h, hpGet_eq (by simp; omega), List.getElem_append_left h]

/-- Push keeps the heap property (R115). -/
theorem heapPush_ordered (k : Key) {hp : List Key} (h : HeapOrdered hp) : HeapOrdered (heapPush k hp) := by
  refine siftUp_ordered _ _ _ (Nat.le_refl _) (by simp) ?_ ?_
  · intro j hj hj0 hne
    simp only [List.length_append, List.length_singleton] at hj
    have := parentPos_lt hj0
    rw [hpGet_append_left (by omega), hpGet_append_left (by omega)]
    exact h j (by omega) hj0
  · intro _ j hj hj0 hjp
    simp only [List.length_append, List.length_singleton] at hj
    have := parentPos_lt hj0
    omega

/-! ### Pop -/

/-- The child `Pop` compares with is a live child, and no live child precedes it (R113). -/
theorem smallerChild_spec {hp : List Key} {i : Nat} (h : 2 * i + 1 < hp.length) :
    smallerChild hp i < hp.length ∧ i < smallerChild hp i ∧ parentPos (smallerChild hp i) = i ∧
      ∀ k < hp.length, 0 < k → parentPos k = i → hpGet hp (smallerChild hp i) ≤ hpGet hp k := by
  unfold smallerChild
  split
  · rename_i hc
    refine ⟨hc.1, by omega, by unfold parentPos; omega, fun k _ h0 hk => ?_⟩
    have : k = 2 * i + 1 ∨ k = 2 * i + 2 := by unfold parentPos at hk; omega
    rcases this with rfl | rfl
    · exact key_le_of_lt hc.2
    · exact key_le_refl _
  · rename_i hc
    refine ⟨h, by omega, by unfold parentPos; omega, fun k hk h0 hkp => ?_⟩
    have : k = 2 * i + 1 ∨ k = 2 * i + 2 := by unfold parentPos at hkp; omega
    rcases this with rfl | rfl
    · exact key_le_refl _
    · exact key_le_of_not_lt fun hlt => hc ⟨hk, hlt⟩

theorem siftDown_perm (fuel i : Nat) (hp : List Key) : (siftDown fuel i hp).Perm hp := by
  induction fuel generalizing i hp with
  | zero => exact .refl _
  | succ fuel ih =>
    unfold siftDown
    split
    · exact .refl _
    · rename_i h
      obtain ⟨hc, hic, _⟩ := smallerChild_spec (hp := hp) (i := i) (by omega)
      split
      · exact (ih _ _).trans (hpSwap_perm hc (by omega))
      · exact .refl _

/-- The downward percolation restores the heap property when only the children of position `i` may precede it. -/
theorem siftDown_ordered (fuel i : Nat) (hp : List Key) (hf : hp.length ≤ fuel + i)
    (h1 : ∀ k < hp.length, 0 < k → parentPos k ≠ i → hpGet hp (parentPos k) ≤ hpGet hp k)
    (h2 : 0 < i → ∀ k < hp.length, 0 < k → parentPos k = i → hpGet hp (parentPos i) ≤ hpGet hp k) :
    HeapOrdered (siftDown fuel i hp) := by
  induction fuel generalizing i hp with
  | zero =>
    intro k hk h0
    have hk : k < hp.length := hk
    refine h1 k hk h0 ?_
    have := parentPos_lt h0
    omega
  | succ fuel ih =>
    unfold siftDown
    split
    · rename_i hno
      intro k hk h0
      refine h1 k hk h0 ?_
      intro hki
      unfold parentPos at hki
      omega
    · rename_i hlen
      obtain ⟨hc, hic, hpc, hmin⟩ := smallerChild_spec (hp := hp) (i := i) (by omega)
      generalize smallerChild hp i = c at hc hic hpc hmin
      have hi : i < hp.length := by omega
      split
      · rename_i hlt
        have hsw := hpGet_hpSwap hc hi
        refine ih _ _ (by simp; omega) ?_ ?_
        · intro k hk h0 hkc
          simp only [length_hpSwap] at hk
          rw [hsw, hsw]
          by_cases hki : k = i
          · subst hki
            have hpk := parentPos_lt h0
            rw [if_neg (by omega), if_neg (by omega), if_pos rfl]
            exact h2 h0 c hc (by omega) hpc
          · rw [if_neg hki]
            by_cases hpi : parentPos k = i
            · rw [if_pos hpi]
              by_cases hkc' : k = c
              · rw [if_pos hkc']; exact key_le_of_lt hlt
              · rw [if_neg hkc']; exact hmin k hk h0 hpi
            · rw [if_neg hpi, if_neg hkc]
              have hkc' : k ≠ c := fun h => hpi (h ▸ hpc)
              rw [if_neg hkc']
              exact h1 k hk h0 hpi
        · intro _ k hk h0 hkc
          simp only [length_hpSwap] at hk
          have hpk := parentPos_lt h0
          rw [hsw, hsw, hpc, if_pos rfl, if_neg (by omega), if_neg (by omega), ← hkc]
          exact h1 k hk h0 (by omega)
      · rename_i hge
        intro k hk h0
        by_cases hki : parentPos k = i
        · rw [hki]
          exact key_le_trans (key_le_of_not_lt hge) (hmin k hk h0 hki)
        · exact h1 k hk h0 hki

/-- Pop takes out the root, as a multiset (R113, R115). -/
theorem heapPop_perm (k : Key) (rest : List Key) : (k :: heapPop (k :: rest)).Perm (k :: rest) := by
  refine List.Perm.cons k ?_
  unfold heapPop
  split
  · rename_i h
    have : rest = [] := by cases rest <;> simp_all
    simp [this]
  · rename_i h
    obtain ⟨mid, z, rfl⟩ : ∃ mid z, rest = mid ++ [z] :=
      ⟨rest.dropLast, rest.getLast (by rintro rfl; simp at h), (List.dropLast_append_getLast _).symm⟩
    refine (siftDown_perm _ _ _).trans ?_
    have hz : hpGet (k :: (mid ++ [z])) ((k :: (mid ++ [z])).length - 1) = z := by
      rw [hpGet_eq (by simp)]
      simp
    rw [hz, ← List.cons_append, List.dropLast_concat]
    exact (List.perm_append_singleton z mid).symm

@[simp] theorem length_heapPop (k : Key) (rest : List Key) : (heapPop (k :: rest)).length = rest.length := by
  simpa using (heapPop_perm k rest).length_eq

/-- Pop keeps the heap property (R115). -/
theorem heapPop_ordered {hp : List Key} (h : HeapOrdered hp) : HeapOrdered (heapPop hp) := by
  unfold heapPop
  split
  · intro i hi; simp at hi
  · rename_i hlen
    refine siftDown_ordered _ _ _ (by simp) ?_ (by omega)
    intro k hk h0 hpk
    simp only [List.length_set, List.length_dropLast] at hk
    have hpk' := parentPos_lt h0
    have get : ∀ j, j < hp.length - 1 → j ≠ 0 →
        hpGet (hp.dropLast.set 0 (hpGet hp (hp.length - 1))) j = hpGet hp j := by
      intro j hj hj0
      rw [hpGet_eq (by simpa using hj), hpGet_eq (by omega), List.getElem_set_ne (by omega), List.getElem_dropLast,
        ← hpGet_eq]
    rw [get k hk (by omega), get (parentPos k) (by omega) hpk]
    exact h k (by omega) h0

/-- The root of a heap is a minimum (R110, R115). -/
theorem heap_root_le {hp : List Key} (h : HeapOrdered hp) (i : Nat) (hi : i < hp.length) : hpGet hp 0 ≤ hpGet hp i := by
  induction i using Nat.strongRecOn with
  | _ i ih =>
    rcases Nat.eq_zero_or_pos i with rfl | h0
    · exact key_le_refl _
    · have := parentPos_lt h0
      exact key_le_trans (ih _ this (by omega)) (h i hi h0)

theorem heap_head_le {k : Key} {rest : List Key} (h : HeapOrdered (k :: rest)) : ∀ x ∈ k :: rest, k ≤ x := by
  intro x hx
  obtain ⟨i, hi, rfl⟩ := List.getElem_of_mem hx
  have := heap_root_le h i hi
  rwa [hpGet_eq hi, hpGet_eq (by simp)] at this

/-! ### The primitives -/

theorem pushKey_room {k : Key} {s : State} (h : s.hp.length < heapCap) :
    pushKey k s = .ok () { s with hp := heapPush k s.hp } := by
  rw [pushKey, if_neg (by omega)]

theorem pushKey_full {k : Key} {s : State} (h : heapCap ≤ s.hp.length) : pushKey k s = .raised .illegalOperation s := by
  rw [pushKey, if_pos h]

theorem topKey_cons {k : Key} {rest : List Key} {s : State} (h : s.hp = k :: rest) : topKey s = .ok k s := by
  simp [topKey, h]

theorem topKey_nil {s : State} (h : s.hp = []) : topKey s = .raised .underflow s := by simp [topKey, h]

theorem popKey_cons {k : Key} {rest : List Key} {s : State} (h : s.hp = k :: rest) :
    popKey s = .ok () { s with hp := heapPop (k :: rest) } := by
  rw [popKey]
  split
  · simp_all
  · rw [h]

theorem popKey_nil {s : State} (h : s.hp = []) : popKey s = .raised .underflow s := by simp [popKey, h]

end Sys2Proof.Machine
end

