-- ==== Sys2Proof/Laws/State.lean ====
section
/-! SUPPORT. What each named update of State does to each field, true by unfolding, so that no proof unfolds a record
update. -/

namespace Sys2Proof.Machine

variable (s : State) (v : Value) (e : ErrorKind)

/-! ### Responding (R82) -/

@[simp] theorem respond_err : (s.respond v).err = s.err := rfl
@[simp] theorem respond_wbuf : (s.respond v).wbuf = s.wbuf := rfl
@[simp] theorem respond_wcnt : (s.respond v).wcnt = s.wcnt := rfl
@[simp] theorem respond_rbuf : (s.respond v).rbuf = s.rbuf := rfl
@[simp] theorem respond_rcnt : (s.respond v).rcnt = s.rcnt := rfl
@[simp] theorem respond_nint : (s.respond v).nint = s.nint := rfl
@[simp] theorem respond_root : (s.respond v).root = s.root := rfl
@[simp] theorem respond_rootValid : (s.respond v).rootValid = s.rootValid := rfl
@[simp] theorem respond_hp : (s.respond v).hp = s.hp := rfl
@[simp] theorem respond_nm : (s.respond v).nm = s.nm := rfl
@[simp] theorem respond_ft : (s.respond v).ft = s.ft := rfl
@[simp] theorem respond_ib : (s.respond v).ib = s.ib := rfl
@[simp] theorem respond_ct : (s.respond v).ct = s.ct := rfl
@[simp] theorem respond_src : (s.respond v).src = s.src := rfl
@[simp] theorem respond_snk : (s.respond v).snk = s.snk := rfl
@[simp] theorem respond_cfg : (s.respond v).cfg = s.cfg := rfl
@[simp] theorem respond_io : (s.respond v).io = s.io := rfl
@[simp] theorem respond_host : (s.respond v).host = s.host := rfl
@[simp] theorem respond_rsp : (s.respond v).rsp = s.rsp ++ [responseWord s.err v] := rfl

/-! ### Taking an error (R252) -/

@[simp] theorem takeError_err : (takeError e s).err = some e := rfl
@[simp] theorem takeError_wbuf : (takeError e s).wbuf = s.wbuf := rfl
@[simp] theorem takeError_wcnt : (takeError e s).wcnt = s.wcnt := rfl
@[simp] theorem takeError_rbuf : (takeError e s).rbuf = s.rbuf := rfl
@[simp] theorem takeError_rcnt : (takeError e s).rcnt = s.rcnt := rfl
@[simp] theorem takeError_nint : (takeError e s).nint = s.nint := rfl
@[simp] theorem takeError_root : (takeError e s).root = s.root := rfl
@[simp] theorem takeError_rootValid : (takeError e s).rootValid = s.rootValid := rfl
@[simp] theorem takeError_hp : (takeError e s).hp = s.hp := rfl
@[simp] theorem takeError_nm : (takeError e s).nm = s.nm := rfl
@[simp] theorem takeError_ft : (takeError e s).ft = s.ft := rfl
@[simp] theorem takeError_ib : (takeError e s).ib = s.ib := rfl
@[simp] theorem takeError_ct : (takeError e s).ct = s.ct := rfl
@[simp] theorem takeError_src : (takeError e s).src = s.src := rfl
@[simp] theorem takeError_snk : (takeError e s).snk = s.snk := rfl
@[simp] theorem takeError_cfg : (takeError e s).cfg = s.cfg := rfl
@[simp] theorem takeError_io : (takeError e s).io = s.io := rfl
@[simp] theorem takeError_host : (takeError e s).host = s.host := rfl
@[simp] theorem takeError_rsp : (takeError e s).rsp = s.rsp ++ [responseWord (some e) 0] := rfl

/-! ### Reset (R280) -/

@[simp] theorem resetBlock_err : (resetBlock s).err = none := rfl
@[simp] theorem resetBlock_wbuf : (resetBlock s).wbuf = 0 := rfl
@[simp] theorem resetBlock_wcnt : (resetBlock s).wcnt = 0 := rfl
@[simp] theorem resetBlock_rbuf : (resetBlock s).rbuf = 0 := rfl
@[simp] theorem resetBlock_rcnt : (resetBlock s).rcnt = 0 := rfl
@[simp] theorem resetBlock_nint : (resetBlock s).nint = 0 := rfl
@[simp] theorem resetBlock_root : (resetBlock s).root = 0 := rfl
@[simp] theorem resetBlock_rootValid : (resetBlock s).rootValid = false := rfl
@[simp] theorem resetBlock_hp : (resetBlock s).hp = [] := rfl
@[simp] theorem resetBlock_nm : (resetBlock s).nm = [] := rfl
@[simp] theorem resetBlock_ft : (resetBlock s).ft = [] := rfl
@[simp] theorem resetBlock_ib : (resetBlock s).ib = [] := rfl
@[simp] theorem resetBlock_ct : (resetBlock s).ct = [] := rfl
@[simp] theorem resetBlock_src : (resetBlock s).src = s.src := rfl
@[simp] theorem resetBlock_snk : (resetBlock s).snk = s.snk := rfl
@[simp] theorem resetBlock_cfg : (resetBlock s).cfg = s.cfg := rfl
@[simp] theorem resetBlock_io : (resetBlock s).io = s.io := rfl
@[simp] theorem resetBlock_host : (resetBlock s).host = s.host := rfl
@[simp] theorem resetBlock_rsp : (resetBlock s).rsp = s.rsp := rfl

/-! ### Clearing the tree (R172, R181) -/

@[simp] theorem clearTree_err : (clearTree s).err = s.err := rfl
@[simp] theorem clearTree_wbuf : (clearTree s).wbuf = s.wbuf := rfl
@[simp] theorem clearTree_wcnt : (clearTree s).wcnt = s.wcnt := rfl
@[simp] theorem clearTree_rbuf : (clearTree s).rbuf = s.rbuf := rfl
@[simp] theorem clearTree_rcnt : (clearTree s).rcnt = s.rcnt := rfl
@[simp] theorem clearTree_nint : (clearTree s).nint = 0 := rfl
@[simp] theorem clearTree_root : (clearTree s).root = s.root := rfl
@[simp] theorem clearTree_rootValid : (clearTree s).rootValid = false := rfl
@[simp] theorem clearTree_hp : (clearTree s).hp = s.hp := rfl
@[simp] theorem clearTree_nm : (clearTree s).nm = [] := rfl
@[simp] theorem clearTree_ft : (clearTree s).ft = s.ft := rfl
@[simp] theorem clearTree_ib : (clearTree s).ib = s.ib := rfl
@[simp] theorem clearTree_ct : (clearTree s).ct = s.ct := rfl
@[simp] theorem clearTree_src : (clearTree s).src = s.src := rfl
@[simp] theorem clearTree_snk : (clearTree s).snk = s.snk := rfl
@[simp] theorem clearTree_cfg : (clearTree s).cfg = s.cfg := rfl
@[simp] theorem clearTree_io : (clearTree s).io = s.io := rfl
@[simp] theorem clearTree_host : (clearTree s).host = s.host := rfl
@[simp] theorem clearTree_rsp : (clearTree s).rsp = s.rsp := rfl

/-! ### The counts as registers (R26, R29) -/

/-- `HSIZE` is the number of elements of a queue that fits. -/
theorem hsize_setWidth {s : State} (h : s.hp.length ≤ heapCap) : s.hsize.setWidth 41 = BitVec.ofNat 41 s.hp.length := by
  apply BitVec.eq_of_toNat_eq
  simp only [heapCap] at h
  simp only [State.hsize, BitVec.toNat_setWidth, BitVec.toNat_ofNat]
  omega

/-- `ILEN` is the number of bytes of a buffer that fits. -/
theorem ilen_setWidth {s : State} (h : s.ib.length < 2 ^ 32) : s.ilen.setWidth 41 = BitVec.ofNat 41 s.ib.length := by
  apply BitVec.eq_of_toNat_eq
  simp only [State.ilen, BitVec.toNat_setWidth, BitVec.toNat_ofNat]
  omega

end Sys2Proof.Machine
end

