-- ==== Sys2Proof/Tests/Slice0.lean ====
section
/-! SUPPORT. The model's own tests. Expected results come from the spec: the encodings of spec/30_encoding.md and the vectors
of spec/95_test_vectors.md, named at each test. The last part shows, for every obligation with hypotheses, a concrete state
and operands that meet them. -/

namespace Sys2Proof.Tests

open Sys2Proof Sys2Proof.Machine

/-! ### Well-formedness -/

/-- R85: SYS_RDREG with an index of 7 is the one ill-formed command the types admit. -/
theorem test_wf_refuses_index_7 : (Instr.sysRdreg 7).wf = false := by decide
theorem test_wf_refuses_index_15 : (Instr.sysRdreg 15).wf = false := by decide
theorem test_wf_accepts_index_6 : (Instr.sysRdreg 6).wf = true := by decide

/-! ### Decoding: a word written out from the encoding of every command (R80, R81, R83) -/

/-- freq 3 is bits 40 to 9, id 97 bits 8 to 0: 3 * 512 + 97 = 0x661. -/
theorem test_decode_pqPush : decode 0x1000000000000661 = .ok (.pqPush 3 97) := by decide
theorem test_decode_pqPush_top : decode 0x100001FFFFFFFFFE = .ok (.pqPush 0xFFFFFFFF 510) := by decide
theorem test_decode_pqTop : decode 0x1100000000000000 = .ok .pqTop := by decide
theorem test_decode_pqPop : decode 0x1200000000000000 = .ok .pqPop := by decide
theorem test_decode_pqSize : decode 0x1300000000000000 = .ok .pqSize := by decide
theorem test_decode_bwPutbit : decode 0x2000000000000001 = .ok (.bwPutbit true) := by decide
theorem test_decode_bwPutbyte : decode 0x21000000000000A5 = .ok (.bwPutbyte 0xA5) := by decide
theorem test_decode_bwPutint : decode 0x2200000001020304 = .ok (.bwPutint 0x01020304) := by decide
theorem test_decode_bwClose : decode 0x2300000000000000 = .ok .bwClose := by decide
theorem test_decode_brGetbit : decode 0x3000000000000000 = .ok .brGetbit := by decide
theorem test_decode_brGetbyte : decode 0x3100000000000000 = .ok .brGetbyte := by decide
theorem test_decode_brGetint : decode 0x3200000000000000 = .ok .brGetint := by decide
theorem test_decode_ftLoad : decode 0x4000000000000000 = .ok .ftLoad := by decide
theorem test_decode_tbBuild : decode 0x4100000000000000 = .ok .tbBuild := by decide
theorem test_decode_tsSerialize : decode 0x4200000000000000 = .ok .tsSerialize := by decide
theorem test_decode_tdDeserialize : decode 0x4300000000000000 = .ok .tdDeserialize := by decide
theorem test_decode_ctDerive : decode 0x5000000000000000 = .ok .ctDerive := by decide
theorem test_decode_encEmit : decode 0x5100000000000000 = .ok .encEmit := by decide
theorem test_decode_encCompress : decode 0x5200000000000000 = .ok .encCompress := by decide
theorem test_decode_decWalk : decode 0x6000000000000064 = .ok (.decWalk 100) := by decide
theorem test_decode_decDecompress : decode 0x6100000000000000 = .ok .decDecompress := by decide
theorem test_decode_sysReset : decode 0x7000000000000000 = .ok .sysReset := by decide
theorem test_decode_sysRdreg : decode 0x7100000000000006 = .ok (.sysRdreg 6) := by decide

/-- The illegal words of V-SYS-1. -/
theorem test_decode_refuses_zero : decode 0x0000000000000000 = .error .unknownOpcode := by decide
theorem test_decode_refuses_ones : decode 0xFFFFFFFFFFFFFFFF = .error .unknownOpcode := by decide
theorem test_decode_refuses_op_0F : decode 0x0F00000000000000 = .error .unknownOpcode := by decide
theorem test_decode_refuses_op_14 : decode 0x1400000000000000 = .error .unknownOpcode := by decide
theorem test_decode_refuses_top_arg : decode 0x1100000000000001 = .error .operandBits := by decide
theorem test_decode_refuses_putbit_arg : decode 0x2000000000000002 = .error .operandBits := by decide
theorem test_decode_refuses_putbyte_arg : decode 0x2100000000000100 = .error .operandBits := by decide
theorem test_decode_refuses_putint_arg : decode 0x2200000100000000 = .error .operandBits := by decide
theorem test_decode_refuses_push_rsv : decode 0x1000020000000000 = .error .reservedBits := by decide
theorem test_decode_refuses_index_7 : decode 0x7100000000000007 = .error .registerIndex := by decide

/-- The table's numbering is the word's own: the operand bits above `nbits` are 0. -/
theorem test_decodeTableWord : decodeTableWord 64 0x2100000000000061 = some (.bwPutbyte 0x61) := by decide

/-- R89. -/
theorem test_assemble_byte_character : assemble "BW_PUTCHAR 'a' ; a byte".toList = some 0x2100000000000061 := by decide
theorem test_assemble_refuses_operand : assemble "PQ_TOP 1".toList = none := by decide

/-! ### One step -/

/-- The state after the host hands over one word. -/
def oneStep (cw : Word64) (s : State) : Option State :=
  match step { s with host := [.command cw] } with
  | .next t => some t
  | _ => none

/-- A key (R31). -/
def key (freq id : Nat) : Key := BitVec.ofNat 41 (freq * 512 + id)

/-- Reset with an input in `src`. -/
def withSrc (src : List Byte) : State := { State.reset with src := src }

/-- Node memory after TB_BUILD of "aaab" (P1). -/
def nodesAaab : Store Node := [(97, ⟨3, none⟩), (98, ⟨1, none⟩), (256, ⟨4, some (98, 97)⟩)]

/-- Reset with the tree of "aaab" as current tree (P1). -/
def treeAaab : State := { State.reset with nm := nodesAaab, nint := 1, root := 256, rootValid := true }

/-- Reset with the tree of 100 times 'x' as current tree (spec/95_test_vectors.md 1.2). -/
def treeX : State := { State.reset with nm := [(120, ⟨100, none⟩)], root := 120, rootValid := true }

/-- A full queue: 256 equal keys. -/
def fullQueue : State := { State.reset with hp := List.replicate 256 (key 1 1) }

/-- V-PQ-1, third push. -/
theorem test_pqPush_percolates :
    (oneStep 0x1000000000000263 { State.reset with hp := [key 2 98, key 5 97] }).map (·.hp) =
      some [key 1 99, key 5 97, key 2 98] := by decide
/-- V-PQ-3 (d). -/
theorem test_pqPush_full : (oneStep 0x100000000000032C fullQueue).map (·.rsp) = some [0xA000000000000000] := by
  decide +kernel
/-- V-PQ-1, the first PQ_TOP. -/
theorem test_pqTop :
    (oneStep 0x1100000000000000 { State.reset with hp := [key 1 99, key 1 100] }).map (·.rsp) =
      some [0x0000000000000263] := by decide
/-- V-PQ-3 (a). -/
theorem test_pqTop_empty : (oneStep 0x1100000000000000 State.reset).map (·.rsp) = some [0x2000000000000000] := by decide
/-- V-PQ-1, the first PQ_POP. -/
theorem test_pqPop :
    (oneStep 0x1200000000000000
        { State.reset with hp := [key 1 99, key 1 100, key 2 98, key 5 97, key 2 114] }).map (·.hp) =
      some [key 1 100, key 2 114, key 2 98, key 5 97] := by decide
/-- V-PQ-3 (c): equal keys. -/
theorem test_pqPop_equal :
    (oneStep 0x1200000000000000 { State.reset with hp := [key 1 1, key 1 1, key 1 1] }).map (·.hp) =
      some [key 1 1, key 1 1] := by decide
/-- P4, line 4. -/
theorem test_pqSize :
    (oneStep 0x1300000000000000 { State.reset with hp := [key 1 99, key 5 97, key 2 98] }).map (·.rsp) =
      some [3] := by decide

/-- V-BW-1, the fourth bit. -/
theorem test_bwPutbit :
    (oneStep 0x2000000000000000 { State.reset with wbuf := 0x07, wcnt := 3 }).map (fun t => (t.wbuf, t.wcnt)) =
      some (0x0E, 4) := by decide
/-- V-BW-11. -/
theorem test_bwPutbit_emits :
    (oneStep 0x2000000000000000 { State.reset with wbuf := 0x7F, wcnt := 7 }).map (fun t => (t.snk, t.wbuf, t.wcnt)) =
      some ([0xFE], 0, 0) := by decide
/-- V-BW-5. -/
theorem test_bwPutbyte :
    (oneStep 0x21000000000000FF { State.reset with wbuf := 0x01, wcnt := 1 }).map (fun t => (t.snk, t.wbuf, t.wcnt)) =
      some ([0xFF], 0x01, 1) := by decide
/-- V-BW-8. -/
theorem test_bwPutint :
    (oneStep 0x2200000080000001 { State.reset with wbuf := 0x03, wcnt := 3 }).map (fun t => (t.snk, t.wbuf, t.wcnt)) =
      some ([0x70, 0x00, 0x00, 0x00], 0x01, 3) := by decide +kernel
/-- V-BW-2. -/
theorem test_bwClose :
    (oneStep 0x2300000000000000 { State.reset with wbuf := 0x0E, wcnt := 4 }).map (fun t => (t.snk, t.wbuf, t.wcnt)) =
      some ([0xE0], 0, 0) := by decide
/-- V-BW-13. -/
theorem test_bwClose_empty : (oneStep 0x2300000000000000 State.reset).map (·.snk) = some [] := by decide

/-- V-BR-3, the first bit of 12. -/
theorem test_brGetbit :
    (oneStep 0x3000000000000000 (withSrc [0x12, 0x34])).map (fun t => (t.rsp, t.rbuf, t.rcnt, t.src)) =
      some ([0], 0x12, 7, [0x34]) := by decide
/-- V-BR-2. -/
theorem test_brGetbit_end :
    (oneStep 0x3000000000000000 { State.reset with rbuf := 0xA5 }).map (fun t => (t.rsp, t.rbuf)) =
      some ([0x4000000000000000], 0xA5) := by decide
/-- V-BR-3. -/
theorem test_brGetbyte :
    (oneStep 0x3100000000000000 { withSrc [0x34] with rbuf := 0x12, rcnt := 7 }).map
        (fun t => (t.rsp, t.rbuf, t.rcnt)) =
      some ([0x24], 0x34, 7) := by decide
/-- V-BR-4. -/
theorem test_brGetbyte_end :
    (oneStep 0x3100000000000000 { State.reset with rbuf := 0x34, rcnt := 7 }).map (fun t => (t.err, t.rcnt)) =
      some (some .endOfStream, 0) := by decide
/-- V-BR-5. -/
theorem test_brGetint :
    (oneStep 0x3200000000000000 (withSrc [0xDE, 0xAD, 0xBE, 0xEF])).map (fun t => (t.rsp, t.rbuf, t.rcnt)) =
      some ([0x00000000DEADBEEF], 0xEF, 0) := by decide +kernel
/-- V-BR-6. -/
theorem test_brGetint_end :
    (oneStep 0x3200000000000000 (withSrc [0xDE, 0xAD, 0xBE])).map (fun t => (t.err, t.rbuf, t.rcnt, t.src)) =
      some (some .endOfStream, 0xBE, 0, []) := by decide +kernel

/-- V-TB-1. -/
theorem test_ftLoad :
    (oneStep 0x4000000000000000 (withSrc [0x61, 0x61, 0x61, 0x62])).map (fun t => (t.rsp, t.ft, t.ib, t.src)) =
      some ([4], [(0x61, 3), (0x62, 1)], [0x61, 0x61, 0x61, 0x62], []) := by decide +kernel
/-- V-TB-1 with `IB_CAP = 3`. -/
theorem test_ftLoad_too_long :
    (oneStep 0x4000000000000000 { withSrc [0x61, 0x61, 0x61, 0x62] with cfg := ⟨3⟩ }).map (fun t => (t.err, t.src, t.ib)) =
      some (some .illegalOperation, [0x61, 0x61, 0x61, 0x62], []) := by decide
/-- V-TB-2, "aabc": a leaf goes before an internal node of equal frequency. -/
theorem test_tbBuild :
    (oneStep 0x4100000000000000 { State.reset with ft := [(97, 2), (98, 1), (99, 1)] }).map
        (fun t => (t.root, t.nint, t.hp, storeGet t.nm 256, storeGet t.nm 257)) =
      some (257, 2, [], some ⟨2, some (98, 99)⟩, some ⟨4, some (97, 256)⟩) := by decide +kernel
/-- V-TB-2, "": the sentinel leaf. -/
theorem test_tbBuild_empty :
    (oneStep 0x4100000000000000 State.reset).map (fun t => (t.nm, t.root, t.rootValid)) =
      some ([(0, ⟨0, none⟩)], 0, true) := by decide +kernel
/-- P2, line 3. -/
theorem test_tsSerialize :
    (oneStep 0x4200000000000000 treeAaab).map (fun t => (t.snk, t.wbuf, t.wcnt)) = some ([0x58, 0xAC], 0x01, 3) := by
  decide +kernel
/-- V-TB-3, no tree. -/
theorem test_tsSerialize_no_tree :
    (oneStep 0x4200000000000000 State.reset).map (·.rsp) = some [0xA000000000000000] := by decide
/-- V-TB-4, first row. -/
theorem test_tdDeserialize :
    (oneStep 0x4300000000000000 (withSrc [0x58, 0xAC, 0x20, 0x00, 0x00, 0x00, 0x9C])).map
        (fun t => (storeGet t.nm 256, t.root, t.nint, t.rbuf, t.rcnt)) =
      some (some ⟨0, some (98, 97)⟩, 256, 1, 0x20, 5) := by decide +kernel
/-- V-TB-4, leaf 'a' twice. -/
theorem test_tdDeserialize_repeated_leaf :
    (oneStep 0x4300000000000000 (withSrc [0x58, 0x6C, 0x20, 0x00, 0x00, 0x00, 0x20])).map
        (fun t => (t.rsp, t.nm, t.rootValid, t.rbuf, t.rcnt)) =
      some ([0x6000000000000000], [(97, ⟨0, none⟩)], false, 0x20, 5) := by decide +kernel

/-- V-CT-1, "aaab". -/
theorem test_ctDerive :
    (oneStep 0x5000000000000000 treeAaab).map (·.ct) = some [(97, [true]), (98, [false])] := by decide +kernel
/-- V-CT-1, 100 times 'x'. -/
theorem test_ctDerive_single_leaf :
    (oneStep 0x5000000000000000 treeX).map (·.ct) = some [(120, [false])] := by decide +kernel
/-- P2, line 6. -/
theorem test_encEmit :
    (oneStep 0x5100000000000000
        { State.reset with ib := [0x61, 0x61, 0x61, 0x62], ct := [(97, [true]), (98, [false])], wbuf := 0x04, wcnt := 3 }).map
        (fun t => (t.snk, t.wbuf, t.wcnt)) =
      some ([], 0x4E, 7) := by decide
/-- V-CT-2, the stale table. -/
theorem test_encEmit_unbound :
    (oneStep 0x5100000000000000
        { State.reset with ib := [0x61, 0x62, 0x63], ct := [(97, [false]), (98, [true])] }).map
        (fun t => (t.rsp, t.wbuf, t.wcnt)) =
      some ([0xA000000000000000], 0x01, 2) := by decide
/-- spec/95_test_vectors.md 2.6, "aabc". -/
theorem test_encCompress :
    (oneStep 0x5200000000000000 (withSrc [0x61, 0x61, 0x62, 0x63])).map (fun t => (t.rsp, t.snk)) =
      some ([4], [0x58, 0x56, 0x2B, 0x18, 0x00, 0x00, 0x00, 0x21, 0x60]) := by decide +kernel
/-- spec/95_test_vectors.md 2.6, "". -/
theorem test_encCompress_empty :
    (oneStep 0x5200000000000000 State.reset).map (·.snk) = some [0x80, 0x00, 0x00, 0x00, 0x00, 0x00] := by
  decide +kernel

/-- P3 (b), line 3. -/
theorem test_decWalk :
    (oneStep 0x6000000000000004 { treeAaab with rbuf := 0x9C, rcnt := 5 }).map (fun t => (t.snk, t.rcnt)) =
      some ([0x61, 0x61, 0x61, 0x62], 1) := by decide +kernel
/-- 2.7: DEC_WALK without a tree. -/
theorem test_decWalk_no_tree :
    (oneStep 0x6000000000000004 State.reset).map (·.rsp) = some [0xA000000000000000] := by decide
/-- V-DEC-4: the symbols completed before the error stay in `snk`. -/
theorem test_decDecompress_truncated :
    (oneStep 0x6100000000000000 (withSrc [0x58, 0xAC, 0x20, 0x00, 0x00, 0x00, 0xDC])).map
        (fun t => (t.rsp, t.snk, t.rbuf, t.rcnt, t.rootValid)) =
      some ([0x6000000000000000], [0x61, 0x61, 0x61, 0x62, 0x62], 0xDC, 0, true) := by decide +kernel
/-- spec/95_test_vectors.md 2.6, "aabc". -/
theorem test_decDecompress :
    (oneStep 0x6100000000000000 (withSrc [0x58, 0x56, 0x2B, 0x18, 0x00, 0x00, 0x00, 0x21, 0x60])).map
        (fun t => (t.rsp, t.snk, t.rbuf, t.rcnt, t.root)) =
      some ([4], [0x61, 0x61, 0x62, 0x63], 0x60, 5, 257) := by decide +kernel

/-- V-SYS-3. -/
theorem test_sysReset :
    (oneStep 0x7000000000000000 { treeAaab with err := some .endOfStream, src := [0x01], snk := [0x02] }).map
        (fun t => (t.err, t.rootValid, t.src, t.snk)) =
      some (none, false, [0x01], [0x02]) := by decide
/-- P6, line 8: not a legal SYS_RESET. -/
theorem test_sysReset_illegal :
    (oneStep 0x7000000000000001 { treeAaab with err := some .corruptStream }).map (fun t => (t.rsp, t.rootValid)) =
      some ([0x6000000000000000], true) := by decide
/-- P6, line 4: a value while `ERR` is not 0. -/
theorem test_sysRdreg_status :
    (oneStep 0x7100000000000000 { treeAaab with err := some .corruptStream }).map (·.rsp) =
      some [0x600000000000000B] := by decide
/-- P3 (a), line 2. -/
theorem test_sysRdreg_reader :
    (oneStep 0x7100000000000002 { State.reset with rbuf := 0x9C, rcnt := 1 }).map (·.rsp) =
      some [0x000000000000019C] := by decide

/-- `withFetchWord` makes the very next step run the word. -/
theorem test_withFetchWord :
    (match step (State.reset.withFetchWord 64 0x2000000000000001) with
      | .next t => some (t.wbuf, t.wcnt)
      | _ => none) = some (0x01, 1) := by decide

/-! ### Witnesses: every obligation with hypotheses has a state and operands that meet them, per clause at its boundary -/

/-- An outcome that is a next state with a checked property. -/
theorem exists_next {o : Host.Outcome State Fault Refusal} (p : State → Bool)
    (h : (match o with | .next t => p t | _ => false) = true) : ∃ t, o = .next t ∧ p t = true := by
  cases o with
  | next t => exact ⟨t, rfl, h⟩
  | fault f => cases h
  | refused r => cases h

/-- Reset with one act of the host to come. -/
def withHost (e : HostEvent) : State := { State.reset with host := [e] }

/-- The tree of "aaab" as the claims write it. -/
def tAaab : Tree := .node (.leaf 98) (.leaf 97)

theorem witness_DecodeInvertsEncode :
    (Instr.sysRdreg 6).wf = true ∧ (Instr.pqPush 0xFFFFFFFF 511).wf = true ∧ (Instr.decWalk 0xFFFFFFFF).wf = true := by
  decide

theorem witness_LegalWordIsItsCommandsEncoding : decode 0x7100000000000006 = .ok (.sysRdreg 6) := by decide

theorem witness_WordSpellsTheRowItMatches :
    ∃ a ∈ opcodeTable, (0x7100000000000006 : Word64) &&& a.mask = a.pattern := by decide

theorem witness_StepRunsTheDecodedCommand :
    (withHost (.command 0x1300000000000000)).host = .command 0x1300000000000000 :: [] ∧
      decode 0x1300000000000000 = .ok .pqSize := by decide

theorem witness_IllegalWordRaisesOrIsIgnored :
    (withHost (.command 0)).host = .command 0 :: [] ∧ decode 0 = .error .unknownOpcode := by decide

theorem witness_HostActsBetweenCommands :
    State.reset.host = [] ∧ (withHost (.setSrc [1])).host = .setSrc [1] :: [] ∧
      (withHost .emptySnk).host = .emptySnk :: [] ∧ (withHost .hardReset).host = .hardReset :: [] := by decide

theorem witness_ErrorStateIgnoresCommands :
    ({ State.reset with err := some .underflow } : State).err = some .underflow ∧
      (∀ idx, Instr.sysRdreg 7 = .sysRdreg idx → 7 ≤ idx.toNat) ∧
      ∃ t, exec (.sysRdreg 0) { State.reset with err := some .underflow } = .next t ∧ t.err = some .underflow := by
  refine ⟨rfl, ?_, _, rfl, rfl⟩
  intro idx h
  cases h
  decide

theorem witness_EveryCommandAnswersOnce :
    (∃ t, exec .pqTop State.reset = .next t ∧ t.err ≠ none) ∧ (∃ t, exec .pqSize State.reset = .next t) ∧
      hasResult .pqPop = false := ⟨⟨_, rfl, by decide⟩, ⟨_, rfl⟩, rfl⟩

theorem witness_OnlyListedErrorsAreRaised :
    (∃ t, exec .pqTop State.reset = .next t ∧ t.err = some .underflow) ∧
      (∃ t, exec .bwClose { State.reset with wcnt := 1, io := [true] } = .next t ∧ t.err = some .ioError) ∧
      (∃ t, exec .encCompress { withSrc [1, 2] with cfg := ⟨1⟩ } = .next t ∧ t.err = some .illegalOperation) ∧
      decode 0xFFFFFFFFFFFFFFFF = .error .unknownOpcode := ⟨⟨_, rfl, rfl⟩, ⟨_, rfl, rfl⟩, ⟨_, rfl, rfl⟩, by decide⟩

theorem witness_ListedErrorsCanBeRaised :
    mayRaise (.decWalk 1) .corruptStream = true ∧ mayRaise (.decWalk 0) .illegalOperation = true ∧
      usesChannel (.decWalk 1) = true ∧ mayRaise .brGetint .endOfStream = true := by decide

theorem witness_ResetValues : (withHost .hardReset).host = .hardReset :: [] := rfl

/-- A value for every index the map names, and the first and last index it does not. -/
theorem witness_SysRdregResult :
    (0x8 : Value).toNat = 8 * treeX.rootValid.toNat + (errCode treeX.err).toNat ∧
      (0x10E : Value).toNat = 256 * (1 : BitVec 4).toNat + (0x0E : Byte).toNat ∧
      (120 : Value).toNat = treeX.root.toNat ∧ (256 : Value).toNat = fullQueue.hsize.toNat ∧
      fullQueue.hp.length ≤ 256 ∧ treeX.ib.length < 2 ^ 32 ∧ (0 : Value).toNat = treeX.ilen.toNat ∧ (1 : Value).toNat = treeAaab.nint.toNat ∧
      7 ≤ (7 : BitVec 4).toNat ∧ 7 ≤ (15 : BitVec 4).toNat ∧ (6 : BitVec 4).toNat ≤ 6 := by decide +kernel

theorem witness_PushAddsTheKey :
    fullQueue.err = none ∧ 256 ≤ fullQueue.hp.length ∧
      ({ fullQueue with hp := List.replicate 255 (key 1 1) } : State).err = none ∧
      ({ fullQueue with hp := List.replicate 255 (key 1 1) } : State).hp.length < 256 ∧
      HeapOrdered [key 1 99, key 5 97, key 2 98] := by
  refine ⟨rfl, by decide +kernel, rfl, by decide +kernel, by decide⟩

theorem witness_TopReturnsTheRoot :
    State.reset.err = none ∧ State.reset.hp = [] ∧ fullQueue.err = none ∧
      fullQueue.hp = key 1 1 :: List.replicate 255 (key 1 1) := ⟨rfl, rfl, rfl, rfl⟩

theorem witness_PopRemovesTheRoot :
    State.reset.err = none ∧ State.reset.hp = [] ∧ fullQueue.err = none ∧
      fullQueue.hp = key 1 1 :: List.replicate 255 (key 1 1) ∧ HeapOrdered [key 1 99, key 5 97, key 2 98] :=
  ⟨rfl, rfl, rfl, rfl, by decide⟩

theorem witness_SizeReturnsTheCount :
    State.reset.err = none ∧ State.reset.hp.length ≤ 256 ∧ fullQueue.err = none ∧ fullQueue.hp.length ≤ 256 := by
  decide +kernel

theorem witness_QueueRefinesAnAscendingList :
    (∀ i ∈ [Instr.pqPush 5 97, .pqPush 2 98, .pqPop], isPushPop i = true) ∧ State.reset.err = none ∧
      HeapOrdered State.reset.hp ∧ State.reset.hp.Perm [] ∧ ([] : List Key).Pairwise (· ≤ ·) ∧
      ∃ t, execAll [.pqPush 5 97, .pqPush 2 98, .pqPop] State.reset = .next t ∧ decide (t.err = none) = true :=
  ⟨by decide, rfl, by decide, .refl _, .nil, exists_next _ (by decide)⟩

theorem witness_PutBitResult :
    State.reset.err = none ∧ State.reset.io = [] ∧ State.reset.wcnt ≠ 7 ∧
      ({ State.reset with wcnt := 7 } : State).wcnt = 7 := by decide

theorem witness_PutByteResult :
    State.reset.err = none ∧ State.reset.io = [] ∧ WriterOk State.reset ∧
      WriterOk { State.reset with wcnt := 7, wbuf := 0x7F } := by decide

theorem witness_PutIntResult :
    State.reset.err = none ∧ State.reset.io = [] ∧ State.reset.wcnt = 0 ∧ WriterOk State.reset ∧
      WriterOk { State.reset with wcnt := 7, wbuf := 0x7F } := by decide

theorem witness_CloseResult :
    State.reset.err = none ∧ State.reset.io = [] ∧ State.reset.wcnt = 0 ∧
      ({ State.reset with wcnt := 7 } : State).wcnt ≠ 0 := by decide

theorem witness_WriterStreamLaw :
    (∀ i ∈ [Instr.bwPutbit true, .bwPutbyte 0x61, .bwPutint 1], (putBitsOf i).isSome) ∧ State.reset.err = none ∧
      State.reset.io = [] ∧ State.reset.wcnt = 0 ∧ State.reset.wbuf = 0 := by decide

theorem witness_GetBitResult :
    State.reset.err = none ∧ State.reset.io = [] ∧ State.reset.rcnt = 0 ∧ State.reset.src = [] ∧
      (withSrc [0x80]).rcnt = 0 ∧ (withSrc [0x80]).src = 0x80 :: [] ∧
      ({ State.reset with rcnt := 1 } : State).rcnt ≠ 0 := by decide

theorem witness_GetByteResult :
    (withSrc [0x12]).err = none ∧ (withSrc [0x12]).io = [] ∧ ReaderOk (withSrc [0x12]) ∧
      8 ≤ (unread (withSrc [0x12])).length ∧ ReaderOk { State.reset with rcnt := 7 } ∧
      (unread { State.reset with rcnt := 7 }).length < 8 := by decide

theorem witness_GetIntResult :
    (withSrc [0xDE, 0xAD, 0xBE, 0xEF]).err = none ∧ (withSrc [0xDE, 0xAD, 0xBE, 0xEF]).io = [] ∧
      ReaderOk (withSrc [0xDE, 0xAD, 0xBE, 0xEF]) ∧ 32 ≤ (unread (withSrc [0xDE, 0xAD, 0xBE, 0xEF])).length ∧
      ReaderOk { withSrc [0xDE, 0xAD, 0xBE] with rcnt := 7 } ∧
      (unread { withSrc [0xDE, 0xAD, 0xBE] with rcnt := 7 }).length < 32 := by decide

theorem witness_ReaderInvertsWriter :
    ∃ (t r : State) (bytes : List Byte),
      (∀ i ∈ [Instr.bwPutbit true, .bwPutbyte 0x61], (putBitsOf i).isSome) ∧ State.reset.err = none ∧
        State.reset.io = [] ∧ State.reset.wcnt = 0 ∧ State.reset.wbuf = 0 ∧
        execAll ([.bwPutbit true, .bwPutbyte 0x61] ++ [.bwClose]) State.reset = .next t ∧
        t.snk = State.reset.snk ++ bytes ∧ r.err = none ∧ r.io = [] ∧ r.rcnt = 0 ∧ r.src = bytes := by
  obtain ⟨t, ht, -⟩ := exists_next (o := execAll ([.bwPutbit true, .bwPutbyte 0x61] ++ [.bwClose]) State.reset)
    (fun _ => true) (by decide +kernel)
  exact ⟨t, withSrc t.snk, t.snk, by decide, rfl, rfl, rfl, rfl, ht, rfl, rfl, rfl, rfl, rfl⟩

theorem witness_FtLoadResult :
    (withSrc [1, 2]).err = none ∧ (withSrc [1, 2]).io = [] ∧
      (withSrc [1, 2]).src.length ≤ ({ withSrc [1, 2] with cfg := ⟨2⟩ } : State).cfg.ibCap.toNat ∧
      ({ withSrc [1, 2] with cfg := ⟨1⟩ } : State).cfg.ibCap.toNat < (withSrc [1, 2]).src.length := by decide

theorem witness_BuildMakesATree :
    State.reset.err = none ∧ leafKeys State.reset.ft = [] ∧ leafKeys [(97, 3), (98, 1)] ≠ [] ∧
      2 ≤ (leafKeys [(97, 3), (98, 1)]).length ∧ (leafKeys [(120, 100)]).length = 1 := by decide +kernel

theorem witness_BuildMergesTheTwoSmallest :
    ∃ t, exec .tbBuild { State.reset with ft := [(97, 3), (98, 1)] } = .next t ∧
      decide (leafKeys [(97, 3), (98, 1)] ≠ []) = true := exists_next _ (by decide +kernel)

theorem treeAaab_tree : treeAaab.tree = some tAaab := by decide +kernel

theorem witness_SerializeWritesTheTree :
    State.reset.err = none ∧ State.reset.rootValid = false ∧ treeAaab.err = none ∧ treeAaab.io = [] ∧
      treeAaab.rootValid = true ∧ treeAaab.tree = some tAaab ∧ WriterOk treeAaab :=
  ⟨rfl, rfl, rfl, rfl, rfl, treeAaab_tree, by decide⟩

theorem witness_DeserializeReadsTheTree :
    (withSrc [0x58, 0xAC, 0x20]).err = none ∧ (withSrc [0x58, 0xAC, 0x20]).io = [] ∧
      ReaderOk (withSrc [0x58, 0xAC, 0x20]) ∧ (treeSymbols tAaab).Nodup ∧
      unread (withSrc [0x58, 0xAC, 0x20]) = treeBits tAaab ++ [false, false, false, false, false] := by decide +kernel

theorem witness_DeserializeAcceptsExactlyTrees :
    (withSrc [0x58, 0xAC]).err = none ∧ (withSrc [0x58, 0xAC]).io = [] ∧ ReaderOk (withSrc [0x58, 0xAC]) := by decide

theorem treeAaab_nodesOk : NodesOk treeAaab := by
  refine ⟨by decide, by decide, ?_, by decide⟩
  simp only [treeAaab, nodesAaab, nodeMemSize]
  simp
  decide

theorem treeAaab_treeOk : TreeOk treeAaab :=
  ⟨treeAaab_nodesOk, ⟨tAaab, treeAaab_tree, by decide, by decide, by decide⟩, by decide +kernel, by decide +kernel⟩

theorem treeAaab_treeInv : TreeInv treeAaab := ⟨treeAaab_nodesOk, fun _ => treeAaab_treeOk⟩

theorem witness_TreeRoundTrip :
    ∃ (t r : State) (bytes : List Byte), treeAaab.err = none ∧ treeAaab.io = [] ∧ treeAaab.wcnt = 0 ∧
      treeAaab.wbuf = 0 ∧ treeAaab.rootValid = true ∧ TreeOk treeAaab ∧
      execAll [.tsSerialize, .bwClose] treeAaab = .next t ∧ t.snk = treeAaab.snk ++ bytes ∧ r.err = none ∧
      r.io = [] ∧ r.rcnt = 0 ∧ r.src = bytes := by
  obtain ⟨t, ht, -⟩ := exists_next (o := execAll [.tsSerialize, .bwClose] treeAaab) (fun _ => true) (by decide +kernel)
  exact ⟨t, withSrc t.snk, t.snk, rfl, rfl, rfl, rfl, rfl, treeAaab_treeOk, ht, rfl, rfl, rfl, rfl, rfl⟩

theorem witness_DeriveBindsThePaths :
    State.reset.err = none ∧ State.reset.rootValid = false ∧ treeAaab.err = none ∧ treeAaab.rootValid = true ∧
      treeAaab.tree = some tAaab ∧ (treeSymbols tAaab).Nodup ∧ treeX.rootValid = true ∧
      treeX.tree = some (.leaf 120) ∧ (treeSymbols (.leaf 120)).Nodup ∧ treeCode tAaab 97 ≠ [] ∧
      treeCode tAaab 97 <+: treeCode tAaab 97 :=
  ⟨rfl, rfl, rfl, rfl, treeAaab_tree, by decide, rfl, by decide +kernel, by decide, by decide, by decide⟩

theorem witness_EmitWritesTheCodes :
    State.reset.err = none ∧ State.reset.io = [] ∧ WriterOk State.reset ∧
      (∀ b ∈ [(97 : Byte), 98], codeOf [(97, [true]), (98, [false])] b ≠ []) ∧
      ([97, 99] : List Byte) = [97] ++ 99 :: [] ∧ (∀ x ∈ [(97 : Byte)], codeOf [(97, [true])] x ≠ []) ∧
      codeOf [(97, [true])] 99 = [] := by decide

theorem witness_CompressWritesTheStream :
    (withSrc [1, 2]).err = none ∧ (withSrc [1, 2]).io = [] ∧
      (withSrc [1, 2]).src.length ≤ ({ withSrc [1, 2] with cfg := ⟨2⟩ } : State).cfg.ibCap.toNat ∧
      ({ withSrc [1, 2] with cfg := ⟨1⟩ } : State).cfg.ibCap.toNat < (withSrc [1, 2]).src.length := by decide

theorem witness_CompressDependsOnTheSourceOnly :
    ∃ t₁ t₂, (withSrc [1, 2]).err = none ∧ treeAaab.err = none ∧ (withSrc [1, 2]).io = [] ∧
      ({ treeAaab with src := [1, 2], wcnt := 3 } : State).io = [] ∧
      (withSrc [1, 2]).src = ({ treeAaab with src := [1, 2], wcnt := 3 } : State).src ∧
      (withSrc [1, 2]).src.length ≤ (withSrc [1, 2]).cfg.ibCap.toNat ∧
      exec .encCompress (withSrc [1, 2]) = .next t₁ ∧
      exec .encCompress { treeAaab with src := [1, 2], wcnt := 3 } = .next t₂ := by
  obtain ⟨t, ht, -⟩ := exists_next (o := exec .encCompress (withSrc [1, 2])) (fun _ => true) (by decide +kernel)
  obtain ⟨u, hu, -⟩ := exists_next (o := exec .encCompress { treeAaab with src := [1, 2], wcnt := 3 }) (fun _ => true)
    (by decide +kernel)
  exact ⟨t, u, rfl, rfl, rfl, rfl, rfl, by decide, ht, hu⟩

theorem witness_CompressIsItsUnitSteps :
    (withSrc [1, 2]).err = none ∧ (withSrc [1, 2]).wcnt = 0 ∧ (withSrc [1, 2]).wbuf = 0 ∧
      (∃ t, exec .encCompress (withSrc [1, 2]) = .next t ∧ decide (t.err = none) = true) ∧
      (∃ t, exec .encCompress { withSrc [1, 2] with io := [false, false, false, true] } = .next t ∧
        decide (t.err = some .ioError) = true) :=
  ⟨rfl, rfl, rfl, exists_next _ (by decide +kernel), exists_next _ (by decide +kernel)⟩

theorem witness_WalkOfASingleLeaf :
    treeX.err = none ∧ treeX.io = [] ∧ treeX.rootValid = true ∧ treeX.root.toNat < 256 ∧
      State.reset.rootValid = false := by decide

theorem witness_WalkDecodesTheCodes :
    ({ treeAaab with rbuf := 0x9C, rcnt := 5 } : State).err = none ∧ treeAaab.io = [] ∧
      ReaderOk { treeAaab with rbuf := 0x9C, rcnt := 5 } ∧ treeAaab.rootValid = true ∧
      ({ treeAaab with rbuf := 0x9C, rcnt := 5 } : State).tree = some tAaab ∧
      (∀ b ∈ [(97 : Byte), 97, 97, 98], b ∈ treeSymbols tAaab) ∧
      [(97 : Byte), 97, 97, 98].length = (4 : Word32).toNat ∧
      unread { treeAaab with rbuf := 0x9C, rcnt := 5 } = decoderBits tAaab [97, 97, 97, 98] ++ [false] :=
  ⟨rfl, rfl, by decide, rfl, treeAaab_tree, by decide, by decide, by decide⟩

/-- "aabc" in spec/95_test_vectors.md: 'a' has code 0, 'b' 10; the bits 0 1 stop inside a code. -/
theorem witness_WalkOfATruncatedSource :
    ∃ s : State, s.err = none ∧ s.io = [] ∧ ReaderOk s ∧ s.rootValid = true ∧
      s.tree = some (.node (.leaf 97) (.node (.leaf 98) (.leaf 99))) ∧
      (∀ x ∈ [(97 : Byte)], x ∈ treeSymbols (.node (.leaf 97) (.node (.leaf 98) (.leaf 99)))) ∧
      [(97 : Byte)].length < (2 : Word32).toNat ∧
      (98 : Byte) ∈ treeSymbols (.node (.leaf 97) (.node (.leaf 98) (.leaf 99))) ∧
      [true] <+: treeCode (.node (.leaf 97) (.node (.leaf 98) (.leaf 99))) 98 ∧
      [true] ≠ treeCode (.node (.leaf 97) (.node (.leaf 98) (.leaf 99))) 98 ∧
      unread s = encodeBytes (.node (.leaf 97) (.node (.leaf 98) (.leaf 99))) [97] ++ [true] :=
  ⟨{ State.reset with nm := [(97, ⟨2, none⟩), (98, ⟨1, none⟩), (99, ⟨1, none⟩), (256, ⟨2, some (98, 99)⟩),
                             (257, ⟨4, some (97, 256)⟩)],
                      nint := 2, root := 257, rootValid := true, rbuf := 0x01, rcnt := 2 },
    rfl, rfl, by decide, rfl, by decide +kernel, by decide, by decide, by decide, by decide, by decide, by decide⟩

theorem witness_DecompressReadsTheStream :
    (withSrc [0x58, 0xAC, 0x20, 0, 0, 0, 0x9C]).err = none ∧ (withSrc [0x58, 0xAC, 0x20, 0, 0, 0, 0x9C]).io = [] ∧
      (treeSymbols tAaab).Nodup ∧ (∀ b ∈ [(97 : Byte), 97, 97, 98], b ∈ treeSymbols tAaab) ∧
      [(97 : Byte), 97, 97, 98].length = (4 : Word32).toNat ∧
      bitsOfBytes (withSrc [0x58, 0xAC, 0x20, 0, 0, 0, 0x9C]).src =
        treeBits tAaab ++ bitsMsb (4 : Word32) ++ decoderBits tAaab [97, 97, 97, 98] ++ [false] := by decide +kernel

theorem witness_DecompressIsItsUnitSteps :
    (withSrc [0x58, 0xAC, 0x20, 0, 0, 0, 0x9C]).err = none ∧ (withSrc [0x58, 0xAC, 0x20, 0, 0, 0, 0x9C]).rcnt = 0 ∧
      (withSrc [0x58, 0xAC, 0x20, 0, 0, 0, 0x9C]).rbuf = 0 ∧
      (∃ t, exec .decDecompress (withSrc [0x58, 0xAC, 0x20, 0, 0, 0, 0x9C]) = .next t ∧
        decide (t.err = none ∧ t.rsp = [] ++ [responseWord none ((4 : Word32).setWidth 41)]) = true) ∧
      (∃ m, execAll [.tdDeserialize, .brGetint] (withSrc [0x58, 0xAC, 0x20, 0, 0, 0, 0x9C]) = .next m ∧
        decide (m.err = none) = true) ∧
      (∃ t, exec .decDecompress (withSrc [0xBC, 0, 0, 0, 1]) = .next t ∧ decide (t.err = some .corruptStream) = true) ∧
      ∃ m, execAll [.tdDeserialize, .brGetint] (withSrc [0xBC, 0, 0, 0, 1]) = .next m ∧
        decide (m.err = some .endOfStream) = true :=
  ⟨rfl, rfl, rfl, exists_next _ (by decide +kernel), exists_next _ (by decide +kernel),
    exists_next _ (by decide +kernel), exists_next _ (by decide +kernel)⟩

/-- An empty source holds no tree; V-DEC-7 ends 31 bits into the count; V-DEC-4 ends inside the walk. -/
theorem witness_DecompressRefusesEveryOtherSource :
    State.reset.err = none ∧ State.reset.io = [] ∧
      (¬ ∃ (tr : Tree) (rest : List Bool), (treeSymbols tr).Nodup ∧ bitsOfBytes State.reset.src = treeBits tr ++ rest) ∧
      (treeSymbols (.leaf 120)).Nodup ∧
      bitsOfBytes [0xBC, 0, 0, 0, 1] = treeBits (.leaf 120) ++ (bitsOfBytes [0xBC, 0, 0, 0, 1]).drop 9 ∧
      ((bitsOfBytes [0xBC, 0, 0, 0, 1]).drop 9).length < 32 ∧
      (treeSymbols tAaab).Nodup ∧ (∀ x ∈ [(97 : Byte), 97, 97, 98, 98], x ∈ treeSymbols tAaab) ∧
      [(97 : Byte), 97, 97, 98, 98].length < (6 : Word32).toNat ∧ (97 : Byte) ∈ treeSymbols tAaab ∧
      [] <+: treeCode tAaab 97 ∧ [] ≠ treeCode tAaab 97 ∧
      bitsOfBytes [0x58, 0xAC, 0x20, 0, 0, 0, 0xDC] =
        treeBits tAaab ++ bitsMsb (6 : Word32) ++ encodeBytes tAaab [97, 97, 97, 98, 98] ++ [] := by
  refine ⟨rfl, rfl, ?_, by decide, by decide +kernel, by decide, by decide, by decide, by decide, by decide, by decide,
    by decide, by decide +kernel⟩
  rintro ⟨tr, rest, -, h⟩
  cases tr <;> cases h

/-- An error that stands, with a host that keeps (d). -/
theorem witness_LaunchPremisesSuffice :
    (∃ t, step { State.reset with host := .command 0x1300000000000000 :: [] } = .next t) ∧
      Launch .encCompress [1, 2] { withSrc [1, 2] with host := [.command 0x5200000000000000], cfg := ⟨2⟩ } ∧
      Launch .decDecompress ([0x80, 0, 0, 0, 0, 0] ++ [0xFF])
        { withSrc [0x80, 0, 0, 0, 0, 0, 0xFF] with host := [.command 0x6100000000000000] } ∧
      ({ withHost (.command 0x7000000000000000) with err := some .underflow } : State).err ≠ none ∧
      ResetsAfterError { withHost (.command 0x7000000000000000) with err := some .underflow } ∧
      (withHost (.command 0x7000000000000000)).host ≠ [] := by
  refine ⟨⟨_, rfl⟩, ⟨rfl, by decide, fun h => absurd rfl h, fun _ => by decide⟩,
    ⟨rfl, by decide, fun h => absurd rfl h, fun h => by cases h⟩, by decide, fun _ => .inr (by decide), by decide⟩

theorem witness_DecompressInvertsCompress :
    State.reset.err = none ∧ State.reset.io = [] ∧ State.reset.src.length ≤ State.reset.cfg.ibCap.toNat ∧
      ∃ r : State, r.err = none ∧ r.io = [] ∧ r.src = [0x80, 0, 0, 0, 0, 0] ++ [0xFF] :=
  ⟨rfl, rfl, by decide, withSrc [0x80, 0, 0, 0, 0, 0, 0xFF], rfl, rfl, rfl⟩

theorem witness_StepKeepsTheBufferInvariants :
    BufferInv (withHost (.command 0x2000000000000001)) ∧
      ∃ t, step (withHost (.command 0x2000000000000001)) = .next t ∧ decide (t.wcnt = 1) = true :=
  ⟨by decide, exists_next _ (by decide)⟩

theorem witness_StepKeepsTheHeapProperty :
    QueueInv { withHost (.command 0x1000000000000263) with hp := [key 2 98, key 5 97] } ∧
      ∃ t, step { withHost (.command 0x1000000000000263) with hp := [key 2 98, key 5 97] } = .next t ∧
        decide (t.hp.length = 3) = true := ⟨by decide, exists_next _ (by decide)⟩

theorem witness_StepKeepsTheTablesCanonical :
    Memory.wf { treeAaab with host := [.command 0x5000000000000000] } ∧
      ∃ t, step { treeAaab with host := [.command 0x5000000000000000] } = .next t ∧
        decide (t.ct.length = 2) = true := ⟨by decide, exists_next _ (by decide +kernel)⟩

theorem witness_StepKeepsTheInputInvariant :
    InputInv { withSrc [1, 2] with host := [.command 0x4000000000000000] } ∧
      ∃ t, step { withSrc [1, 2] with host := [.command 0x4000000000000000] } = .next t ∧
        decide (t.ib = [1, 2]) = true := ⟨by decide +kernel, exists_next _ (by decide)⟩

theorem witness_StepKeepsTheTreeInvariants :
    TreeInv treeAaab ∧ ∃ t, step treeAaab = .next t := ⟨treeAaab_treeInv, _, rfl⟩

theorem witness_StepKeepsTheCodesPrefixFree :
    TreeInv treeAaab ∧ CodeInv { treeAaab with ct := [(97, [true]), (98, [false])] } ∧ CodeInv treeAaab ∧
      ∃ t, step treeAaab = .next t := ⟨treeAaab_treeInv, by decide, by decide, _, rfl⟩

theorem witness_EveryStepAnswers : TreeInv treeAaab := treeAaab_treeInv

theorem witness_FrameOfEveryCommand :
    (∃ t, exec .pqSize State.reset = .next t) ∧ (∃ t, exec (.sysRdreg 15) State.reset = .next t) ∧
      (∃ t, exec .sysReset State.reset = .next t) ∧ readsBits .brGetbit = true ∧
      (∃ t, exec .brGetbit (withSrc [0x12]) = .next t) ∧
      ∃ t, exec .decDecompress State.reset = .next t ∧ decide (t.rbuf = 0) = true :=
  ⟨⟨_, rfl⟩, ⟨_, rfl⟩, ⟨_, rfl⟩, rfl, ⟨_, rfl⟩, exists_next _ (by decide +kernel)⟩

theorem witness_IoFaultRaisesIOError :
    ({ State.reset with io := [true] } : State).err = none ∧ ({ State.reset with io := [true] } : State).io = true :: [] ∧
      ({ State.reset with io := [true], wcnt := 1 } : State).wcnt ≠ 0 ∧
      ({ State.reset with io := [true], wcnt := 7 } : State).wcnt = 7 ∧ State.reset.rcnt = 0 ∧
      State.reset.src.length ≤ State.reset.cfg.ibCap.toNat := by decide

end Sys2Proof.Tests
end

section
/-! SUPPORT. The rule of every command under one name, everything `exec` and one step can do, and which fields a rule
touches wherever it ends (spec/10_state.md R23 to R41, spec/30_encoding.md R86). -/

namespace Sys2Proof.Machine

/-! ### What a command and a step can do -/

/-- The rule a command performs once command entry lets it through (R86); SYS_RESET and SYS_RDREG have none. -/
def ruleOf : Instr → State → Res Value
  | .pqPush freq id, s => noResult (pushKey (mkKey freq id) s)
  | .pqTop, s => topKey s
  | .pqPop, s => noResult (popKey s)
  | .pqSize, s => .ok (s.hsize.setWidth 41) s
  | .bwPutbit bit, s => noResult (putBit bit s)
  | .bwPutbyte b, s => noResult (putByte b s)
  | .bwPutint v, s => noResult (putInt v s)
  | .bwClose, s => noResult (closeWriter s)
  | .brGetbit, s => (getBit s).bind fun b t => .ok ((BitVec.ofBool b).setWidth 41) t
  | .brGetbyte, s => (getByte s).bind fun b t => .ok (b.setWidth 41) t
  | .brGetint, s => (getInt s).bind fun v t => .ok (v.setWidth 41) t
  | .ftLoad, s => (loadInput s).bind fun n t => .ok (n.setWidth 41) t
  | .tbBuild, s => noResult (buildTree s)
  | .tsSerialize, s => noResult (serializeTree s)
  | .tdDeserialize, s => noResult (deserializeTree s)
  | .ctDerive, s => noResult (deriveCodes s)
  | .encEmit, s => noResult (emitInput s)
  | .encCompress, s => (compress s).bind fun n t => .ok (n.setWidth 41) t
  | .decWalk n, s => noResult (decodeSymbols n s)
  | .decDecompress, s => (decompress s).bind fun n t => .ok (n.setWidth 41) t
  | .sysReset, s | .sysRdreg _, s => .ok 0 s

/-- The two commands performed whatever `ERR` holds (R86). -/
def isSystem : Instr → Bool
  | .sysReset | .sysRdreg _ => true
  | _ => false

/-- Every other command is its rule behind command entry (R86). -/
theorem exec_eq_command {i : Instr} (hi : isSystem i = false) (s : State) : exec i s = command (ruleOf i) s := by
  cases i with
  | sysReset | sysRdreg idx => cases hi
  | _ => rfl

/-- SYS_RDREG of an index the map names (R45, R241). -/
theorem exec_sysRdreg_some {s : State} {idx : BitVec 4} {v : Value} (h : regMap s idx = some v) :
    exec (.sysRdreg idx) s = .next (s.respond v) := by
  simp only [exec, execSysRdreg, h]

/-- SYS_RDREG of a reserved index is an illegal word (R85). -/
theorem exec_sysRdreg_none {s : State} {idx : BitVec 4} (h : regMap s idx = none) :
    exec (.sysRdreg idx) s = illegalWord s := by
  simp only [exec, execSysRdreg, h]

/-- The two states differ in `ERR`, the responses and the host's own fields alone. -/
def SameBlock (s t : State) : Prop :=
  t = { s with err := t.err, src := t.src, snk := t.snk, host := t.host, rsp := t.rsp }

theorem sameBlock_respond (s : State) (v : Value) : SameBlock s (s.respond v) := rfl

theorem sameBlock_takeError (e : ErrorKind) (s : State) : SameBlock s (takeError e s) := rfl

section Packaged

variable {P : State → Prop} (hblock : ∀ s t, SameBlock s t → P s → P t)
include hblock

/-- Command entry keeps what its rule keeps and `SameBlock` does not see. -/
theorem command_keeps {body : State → Res Value} {s u : State} (hs : P s) (hbody : (body s).Ends P)
    (h : command body s = .next u) : P u := by
  rcases command_eq_next h with ⟨_, -, rfl⟩ | ⟨-, v, t, hb, rfl⟩ | ⟨-, e, t, hb, rfl⟩
  · exact hblock _ _ (sameBlock_respond s 0) hs
  · exact hblock _ _ (sameBlock_respond t v) (hbody.1 v t hb)
  · exact hblock _ _ (sameBlock_takeError e t) (hbody.2 e t hb)

theorem illegalWord_keeps {s u : State} (hs : P s) (h : illegalWord s = .next u) : P u :=
  command_keeps hblock hs (ends_raised hs) h

variable (hreset : ∀ s, P s → P (resetBlock s)) (hrule : ∀ i s, isSystem i = false → P s → (ruleOf i s).Ends P)
include hreset hrule

/-- Every command keeps what the reset and every rule keep. -/
theorem exec_keeps {i : Instr} {s u : State} (hs : P s) (h : exec i s = .next u) : P u := by
  by_cases hi : isSystem i = false
  · exact command_keeps hblock hs (hrule i s hi hs) (exec_eq_command hi s ▸ h)
  cases i with
  | sysReset =>
    obtain rfl : (resetBlock s).respond 0 = u := by injection h
    exact hblock _ _ (sameBlock_respond _ 0) (hreset s hs)
  | sysRdreg idx =>
    cases hv : regMap s idx with
    | some v =>
      rw [exec_sysRdreg_some hv] at h
      obtain rfl : s.respond v = u := by injection h
      exact hblock _ _ (sameBlock_respond s v) hs
    | none => exact illegalWord_keeps hblock hs (exec_sysRdreg_none hv ▸ h)
  | _ => exact absurd rfl hi

/-- Every step keeps what the reset and every rule keep: the one case split over what the host can do next. -/
theorem step_keeps {s u : State} (hs : P s) (h : step s = .next u) : P u := by
  unfold step hostStep at h
  split at h
  case h_1 =>
    obtain rfl : s = u := by injection h
    exact hs
  case h_2 cw rest _ =>
    have hs' : P { s with host := rest } := hblock s _ rfl hs
    unfold receive at h
    split at h
    · exact exec_keeps hblock hreset hrule hs' h
    · exact illegalWord_keeps hblock hs' h
  case h_3 bytes rest _ =>
    obtain rfl : { s with host := rest, src := bytes } = u := by injection h
    exact hblock s _ rfl hs
  case h_4 rest _ =>
    obtain rfl : { s with host := rest, snk := [] } = u := by injection h
    exact hblock s _ rfl hs
  case h_5 rest _ =>
    obtain rfl : resetBlock { s with host := rest } = u := by injection h
    exact hreset _ (hblock s _ rfl hs)

end Packaged

/-! ### Which fields a rule touches -/

/-- The frames of a command's parts compose (SYS_RESET has no parts). -/
theorem Frame.trans {i : Instr} {s t u : State} (h₁ : Frame i s t) (hi : i ≠ .sysReset) (h₂ : Frame i t u) :
    Frame i s u := by
  cases i with
  | sysReset => exact absurd rfl hi
  | _ =>
    unfold Frame at *
    rw [h₂, h₁]

theorem WriterFrame.toFrame {s t : State} (h : WriterFrame s t) : Frame .encEmit s t := by
  unfold WriterFrame at h; unfold Frame; rw [h]

theorem ReaderFrame.toFrame {s t : State} (h : ReaderFrame s t) : Frame .brGetbit s t := by
  unfold ReaderFrame at h; unfold Frame; rw [h]

theorem LoadFrame.toFrame {s t : State} (h : LoadFrame s t) : Frame .ftLoad s t := by
  unfold LoadFrame at h; unfold Frame; rw [h]

theorem BuildFrame.toFrame {s t : State} (h : BuildFrame s t) : Frame .tbBuild s t := by
  unfold BuildFrame at h; unfold Frame; rw [h]

theorem ParseFrame.toFrame {s t : State} (h : ParseFrame s t) : Frame .tdDeserialize s t := by
  unfold ParseFrame at h; unfold Frame; rw [h]

theorem WalkFrame.toFrame {s t : State} (h : WalkFrame s t) (n : Word32) : Frame (.decWalk n) s t := by
  unfold WalkFrame at h; unfold Frame; rw [h]

/-- What a part of the compress pipeline may touch, ENC_COMPRESS may (R203). -/
theorem Frame.compress {i : Instr} (hi : i ∈ [.ftLoad, .tbBuild, .encEmit, .ctDerive]) {s t : State}
    (h : Frame i s t) : Frame .encCompress s t := by
  simp only [List.mem_cons, List.not_mem_nil, or_false] at hi
  rcases hi with rfl | rfl | rfl | rfl <;> (unfold Frame at *; rw [h])

/-- What a part of the decompress pipeline may touch, DEC_DECOMPRESS may (R222). -/
theorem Frame.decompress {i : Instr} (hi : i ∈ [.tdDeserialize, .brGetbit, .decWalk 0]) {s t : State}
    (h : Frame i s t) : Frame .decDecompress s t := by
  simp only [List.mem_cons, List.not_mem_nil, or_false] at hi
  rcases hi with rfl | rfl | rfl <;> (unfold Frame at *; rw [h])

theorem ends_and {α : Type} {P Q : State → Prop} {r : Res α} (hP : r.Ends P) (hQ : r.Ends Q) :
    r.Ends fun s => P s ∧ Q s :=
  ⟨fun a t h => ⟨hP.1 a t h, hQ.1 a t h⟩, fun e t h => ⟨hP.2 e t h, hQ.2 e t h⟩⟩

theorem topKey_ends {P : State → Prop} {s : State} (h : P s) : (topKey s).Ends P := by
  unfold topKey
  split
  · exact ends_raised h
  · exact ends_ok h

theorem withTree_ends {α : Type} {P : State → Prop} {s : State} {f : Tree → Res α} (h : P s)
    (hf : ∀ t, s.rootValid = true → s.tree = some t → (f t).Ends P) : (withTree s f).Ends P := by
  unfold withTree
  split
  · split
    · exact hf _ ‹_› ‹_›
    · exact ends_broken
  · exact ends_raised h

/-- Computing the answer from the value of a rule's last part changes no state. -/
theorem answer_ends {α : Type} {P : State → Prop} {r : Res α} (f : α → Value) (h : r.Ends P) :
    (r.bind fun a t => .ok (f a) t).Ends P :=
  ends_bind h (fun _ ht => ht) fun _ _ ht => ends_ok ht

theorem noResult_ends {P : State → Prop} {r : Res Unit} (h : r.Ends P) : (noResult r).Ends P :=
  answer_ends (fun _ => 0) h

theorem pushKey_queue (k : Key) (s : State) : (pushKey k s).Ends (Frame .pqPop s) := by
  unfold pushKey
  split
  · exact ends_raised rfl
  · exact ends_ok rfl

theorem popKey_queue (s : State) : (popKey s).Ends (Frame .pqPop s) := by
  unfold popKey
  split
  · exact ends_raised rfl
  · exact ends_ok rfl

theorem loadInput_frame (s : State) : (loadInput s).Ends (Frame .ftLoad s) := by
  unfold loadInput
  split
  · exact ends_raised rfl
  · refine ends_bind (ends_mono (loadLoop_frame _ _) fun t ht => ?_) (fun _ ht => ht) fun _ _ ht => ends_ok ht
    exact Frame.trans (t := { s with ib := [], ft := [] }) rfl (by decide) ht.toFrame

theorem finishTree_frame (s : State) : (finishTree s).Ends (Frame .tbBuild s) := by
  have seq {α β : Type} := @ends_seq α β (Frame .tbBuild) fun _ _ _ h => h.trans (by decide)
  unfold finishTree
  split
  · exact ends_ok rfl
  · exact
      seq (ends_mono (mergeLoop_frame _ s) fun _ h => h.toFrame) fun _ t =>
      seq (topKey_ends rfl) fun _ u =>
      seq (ends_mono (popKey_frame u) fun _ h => h.toFrame) fun _ _ => ends_ok rfl

theorem buildTree_frame (s : State) : (buildTree s).Ends (Frame .tbBuild s) := by
  refine ends_seq (Frame .tbBuild) (fun _ _ _ h => h.trans (by decide))
    (ends_mono (pushLeaves_frame _ _) fun t ht => ?_) fun _ t => finishTree_frame t
  exact Frame.trans (t := { clearTree s with hp := [] }) rfl (by decide) ht.toFrame

theorem serializeTree_frame (s : State) : (serializeTree s).Ends (Frame .encEmit s) :=
  withTree_ends rfl fun t _ _ => ends_mono (serialize_frame t s) fun _ h => h.toFrame

theorem deriveCodes_frame (s : State) : (deriveCodes s).Ends (Frame .ctDerive s) :=
  withTree_ends rfl fun _ _ _ => ends_ok rfl

theorem decodeSymbols_frame (n m : Word32) (s : State) : (decodeSymbols n s).Ends (Frame (.decWalk m) s) := by
  refine ends_promote (withTree_ends rfl fun t _ _ => ?_)
  unfold walkTree
  split
  · exact ends_mono (writeRepeated_frame _ _ s) fun _ h => h.toFrame m
  · exact ends_mono (decodeLoop_frame _ _ s) fun _ h => h.toFrame m

theorem deserializeTree_frame (s : State) : (deserializeTree s).Ends (Frame .tdDeserialize s) := by
  refine ends_promote (ends_bind (ends_mono (deserialize_frame depthMax (clearTree s)) fun t ht => ?_) (fun _ ht => ht)
    fun r t ht => ends_ok ?_)
  · exact Frame.trans (t := clearTree s) rfl (by decide) ht.toFrame
  · exact ht.trans (by decide) rfl

/-- The compress pipeline keeps what each of its parts keeps (R203); all parts but three are the bit writer's. -/
theorem compress_keeps {P : State → Prop} (hload : ∀ s, P s → (loadInput s).Ends P)
    (hbuild : ∀ s, P s → (buildTree s).Ends P) (hderive : ∀ s, P s → (deriveCodes s).Ends P)
    (hwrite : ∀ s t, Frame .encEmit s t → P s → P t) {s : State} (hs : P s) : (compress s).Ends P := by
  have seq {α β : Type} {r : Res α} {f : α → State → Res β} (hr : r.Ends P) (hf : ∀ a s, P s → (f a s).Ends P) :
      (r.bind f).Ends P := ends_bind hr (fun _ h => h) hf
  have writer {s : State} (hs : P s) {r : Res Unit} (hr : r.Ends (WriterFrame s)) : r.Ends P :=
    ends_mono hr fun t ht => hwrite s t ht.toFrame hs
  exact
    seq (hload _ (hwrite s _ rfl hs)) fun _ s hs =>
    seq (hbuild s hs) fun _ s hs =>
    seq (ends_mono (serializeTree_frame s) fun t ht => hwrite s t ht hs) fun _ s hs =>
    seq (writer hs (putBits_frame _ s)) fun _ s hs =>
    seq (hderive s hs) fun _ s hs =>
    seq (writer hs (emitCodes_frame _ s)) fun _ s hs =>
    seq (writer hs (closeWriter_frame s)) fun _ _ hs => ends_ok hs

/-- Everything ENC_COMPRESS touches, part by part (R203). -/
theorem compress_frame (s : State) : (compress s).Ends (Frame .encCompress s) := by
  have part {i : Instr} (hi : i ∈ [.ftLoad, .tbBuild, .encEmit, .ctDerive]) {t u : State}
      (ht : Frame .encCompress s t) (hu : Frame i t u) : Frame .encCompress s u :=
    ht.trans (by decide) (hu.compress hi)
  refine compress_keeps (fun t ht => ?_) (fun t ht => ?_) (fun t ht => ?_) (fun t u hu ht => ?_) rfl
  · exact ends_mono (loadInput_frame t) fun u hu => part (by decide) ht hu
  · exact ends_mono (buildTree_frame t) fun u hu => part (by decide) ht hu
  · exact ends_mono (deriveCodes_frame t) fun u hu => part (by decide) ht hu
  · exact part (by decide) ht hu

/-- Everything DEC_DECOMPRESS touches, part by part (R222). -/
theorem decompress_frame (s : State) : (decompress s).Ends (Frame .decDecompress s) := by
  have seq {α β : Type} := @ends_seq α β (Frame .decDecompress) fun _ _ _ h => h.trans (by decide)
  exact ends_promote <|
    seq (ends_mono (deserializeTree_frame _) fun _ h =>
      Frame.trans (t := { s with rbuf := 0, rcnt := 0 }) rfl (by decide) (h.decompress (by decide))) fun _ t =>
    seq (ends_mono (getBits_frame 32 0 t) fun _ h => h.toFrame.decompress (by decide)) fun n t =>
    seq (ends_mono (decodeSymbols_frame n 0 t) fun _ h => h.decompress (by decide)) fun _ _ => ends_ok rfl

/-- Wherever the rule of a command ends, the fields outside the command's frame are unchanged. -/
theorem ruleOf_frame {i : Instr} (hi : isSystem i = false) (s : State) : (ruleOf i s).Ends (Frame i s) := by
  cases i with
  | pqPush freq id => exact noResult_ends (pushKey_queue _ s)
  | pqTop => exact topKey_ends rfl
  | pqPop => exact noResult_ends (popKey_queue s)
  | pqSize => exact ends_ok rfl
  | bwPutbit bit => exact noResult_ends (ends_mono (putBit_frame bit s) fun _ h => h.toFrame)
  | bwPutbyte b => exact noResult_ends (ends_mono (putBits_frame _ s) fun _ h => h.toFrame)
  | bwPutint v => exact noResult_ends (ends_mono (putBits_frame _ s) fun _ h => h.toFrame)
  | bwClose => exact noResult_ends (ends_mono (closeWriter_frame s) fun _ h => h.toFrame)
  | brGetbit => exact answer_ends _ (ends_mono (getBit_frame s) fun _ h => h.toFrame)
  | brGetbyte => exact answer_ends _ (ends_mono (getBits_frame 8 0 s) fun _ h => h.toFrame)
  | brGetint => exact answer_ends _ (ends_mono (getBits_frame 32 0 s) fun _ h => h.toFrame)
  | ftLoad => exact answer_ends _ (loadInput_frame s)
  | tbBuild => exact noResult_ends (buildTree_frame s)
  | tsSerialize => exact noResult_ends (serializeTree_frame s)
  | tdDeserialize => exact noResult_ends (deserializeTree_frame s)
  | ctDerive => exact noResult_ends (deriveCodes_frame s)
  | encEmit => exact noResult_ends (ends_mono (emitCodes_frame _ s) fun _ h => h.toFrame)
  | encCompress => exact answer_ends _ (compress_frame s)
  | decWalk n => exact noResult_ends (decodeSymbols_frame n n s)
  | decDecompress => exact answer_ends _ (decompress_frame s)
  | sysReset | sysRdreg idx => cases hi

end Sys2Proof.Machine
end

section
/-! SUPPORT. The input buffer and the frequency table (spec/10_state.md R29, R36), and the register map (R45). -/

namespace Sys2Proof.Machine

/-! ### Loading the input -/

/-- What the load loop keeps (R171): the bytes still to come fit as well, and `FT` is in canonical form. -/
def Loading (s : State) : Prop :=
  InputInv s ∧ storeSorted s.ft ∧ s.ib.length + s.src.length ≤ s.cfg.ibCap.toNat

/-- Appending a byte to the buffer and counting it keeps the counts exact: a buffer within `IB_CAP` never wraps a
count. -/
theorem loading_append {s : State} {b : Byte} {rest : List Byte} (io : List Bool) (h : Loading s)
    (hsrc : s.src = b :: rest) :
    Loading { s with io := io, src := rest, ib := s.ib ++ [b],
                     ft := countPut s.ft b.toNat (countGet s.ft b.toNat + 1) } := by
  obtain ⟨⟨hcfg, -, hcount⟩, hsorted, hfit⟩ := h
  have hcap := s.cfg.ibCap.isLt
  simp only [hsrc, List.length_cons] at hfit
  refine ⟨⟨hcfg, ?_, fun sym hsym => ?_⟩, countPut_sorted hsorted _ _, ?_⟩
  · simp only [List.length_append, List.length_singleton]
    omega
  · have hle : s.ib.count (BitVec.ofNat 8 sym) ≤ s.ib.length := List.count_le_length
    simp only [countGet_countPut hsorted, List.count_append, List.count_singleton]
    by_cases hb : b.toNat = sym
    · subst hb
      have hbyte : BitVec.ofNat 8 b.toNat = b := BitVec.eq_of_toNat_eq (by simp)
      have := hcount b.toNat hsym
      simp only [hbyte] at this hle
      simp only [if_true, hbyte, beq_self_eq_true, BitVec.toNat_add, this]
      simp
      omega
    · have hne : b ≠ BitVec.ofNat 8 sym := by
        rintro rfl
        exact hb (by simpa [alphabetSize] using hsym)
      simp [hb, hne, hcount sym hsym]
  · simp only [List.length_append, List.length_singleton]
    omega

theorem loadLoop_keeps_loading (fuel : Nat) {s : State} (h : Loading s) : (loadLoop fuel s).Ends Loading := by
  induction fuel generalizing s with
  | zero => exact ends_ok h
  | succ fuel ih =>
    unfold loadLoop
    rcases srcRead_cases s with ⟨io, hr, _⟩ | ⟨io, b, rest, hr, hsrc⟩ | ⟨io, hr, _⟩
    · rw [hr]; exact ends_ok h
    · have hnext := loading_append io h hsrc
      rw [hr]
      exact ih hnext
    · rw [hr]; exact ends_raised h

/-- `FtLoad` keeps the input invariant wherever it ends (R171). -/
theorem loadInput_keeps_input {s : State} (h : InputInv s) : (loadInput s).Ends InputInv := by
  unfold loadInput
  split
  · exact ends_raised h
  · rename_i hfit
    have hstart : Loading { s with ib := [], ft := [] } :=
      ⟨⟨h.1, Nat.zero_le _, by simp⟩, List.Pairwise.nil, by simpa using hfit⟩
    exact ends_bind (ends_mono (loadLoop_keeps_loading _ hstart) fun _ ht => ht.1) (fun _ ht => ht)
      fun _ _ ht => ends_ok ht

/-! ### The input invariant -/

theorem inputInv_congr {s t : State} (hcfg : t.cfg = s.cfg) (hib : t.ib = s.ib) (hft : t.ft = s.ft) (h : InputInv s) :
    InputInv t := by
  simpa only [InputInv, hcfg, hib, hft] using h

/-- A command other than the two that load the input keeps the input invariant by its frame. -/
theorem inputInv_of_frame {i : Instr} (hi : i ∉ [.ftLoad, .encCompress, .sysReset]) {s t : State} (hf : Frame i s t)
    (h : InputInv s) : InputInv t := by
  cases i with
  | ftLoad | encCompress | sysReset => simp at hi
  | _ =>
    unfold Frame at hf
    exact inputInv_congr (by rw [hf]) (by rw [hf]) (by rw [hf]) h

theorem resetBlock_keeps_input {s : State} (h : InputInv s) : InputInv (resetBlock s) :=
  ⟨h.1, Nat.zero_le _, by simp⟩

/-- Every rule keeps the input invariant: the two that load the input by the load loop, every other by its frame. -/
theorem ruleOf_keeps_input {i : Instr} {s : State} (hi : isSystem i = false) (h : InputInv s) :
    (ruleOf i s).Ends InputInv := by
  by_cases hload : i ∈ [.ftLoad, .encCompress, .sysReset]
  · simp only [List.mem_cons, List.not_mem_nil, or_false] at hload
    rcases hload with rfl | rfl | rfl
    · exact answer_ends _ (loadInput_keeps_input h)
    · exact answer_ends _ (compress_keeps (fun _ => loadInput_keeps_input)
        (fun s hs => ends_mono (buildTree_frame s) fun _ ht => inputInv_of_frame (by decide) ht hs)
        (fun s hs => ends_mono (deriveCodes_frame s) fun _ ht => inputInv_of_frame (by decide) ht hs)
        (fun _ _ ht hs => inputInv_of_frame (by decide) ht hs) h)
    · cases hi
  · exact ends_mono (ruleOf_frame hi s) fun _ ht => inputInv_of_frame hload ht h

/-- Settles O55: loading counts each byte it appends and an input that fits never wraps a count; no other rule writes
`IB`, `FT` or `IB_CAP`. -/
theorem stepKeepsTheInputInvariant : Obligations.StepKeepsTheInputInvariant := by
  intro s t hs h
  refine step_keeps (P := InputInv) (fun s t hb hs => ?_) (fun _ => resetBlock_keeps_input)
    (fun _ _ => ruleOf_keeps_input) hs h
  unfold SameBlock at hb
  exact inputInv_congr (by rw [hb]) (by rw [hb]) (by rw [hb]) hs

/-! ### The register map -/

/-- The value of two fields side by side. -/
theorem toNat_append_eq {m n : Nat} (x : BitVec m) (y : BitVec n) : (x ++ y).toNat = 2 ^ n * x.toNat + y.toNat := by
  rw [BitVec.toNat_append, ← Nat.shiftLeft_add_eq_or_of_lt y.isLt, Nat.shiftLeft_eq, Nat.mul_comm]

/-- A register of at most 41 bits is shown whole. -/
theorem eq_setWidth_of_toNat {w : Nat} {v : Value} {x : BitVec w} (hw : w ≤ 41) (h : v.toNat = x.toNat) :
    some (x.setWidth 41) = some v := by
  refine congrArg some (BitVec.eq_of_toNat_eq ?_)
  rw [BitVec.toNat_setWidth_of_le hw, h]

/-- Settles O16: the register map row by row, for the decoder reads the index back from its word. -/
theorem sysRdregResult : Obligations.SysRdregResult := by
  refine ⟨by unfold SpeltBy; decide, fun s idx => ⟨fun v hv => ?_, fun hidx => ?_, fun hhp => ?_, fun hib => ?_⟩⟩
  · refine exec_sysRdreg_some ?_
    rcases hv with ⟨rfl, h⟩ | ⟨rfl, h⟩ | ⟨rfl, h⟩ | ⟨rfl, h⟩ | ⟨rfl, h⟩ | ⟨rfl, h⟩ | ⟨rfl, h⟩
    · exact eq_setWidth_of_toNat (by omega) (by rw [h, toNat_append_eq]; simp)
    · exact eq_setWidth_of_toNat (by omega) (by rw [h, toNat_append_eq]; rfl)
    · exact eq_setWidth_of_toNat (by omega) (by rw [h, toNat_append_eq]; rfl)
    · exact eq_setWidth_of_toNat (by omega) h
    · exact eq_setWidth_of_toNat (by omega) h
    · exact eq_setWidth_of_toNat (by omega) h
    · exact eq_setWidth_of_toNat (by omega) h
  · have hnone : regMap s idx = none := by
      unfold regMap
      split
      case h_8 => rfl
      all_goals omega
    rw [exec_sysRdreg_none hnone, illegalWord_eq]
    cases he : s.err with
    | none => rfl
    | some e => simp [State.respond, he]
  · exact exec_sysRdreg_some (congrArg some (hsize_setWidth hhp))
  · exact exec_sysRdreg_some (congrArg some (ilen_setWidth hib))

end Sys2Proof.Machine
end

section
/-! SUPPORT. Node memory as a forest (spec/10_state.md R33, R34): while a tree is built or read back, the valid nodes
are those of a list of trees without a common node, and a leaf or an internal node is added at a time. -/

namespace Sys2Proof.Machine

/-! ### Trees with their node ids -/

/-- A tree whose internal nodes carry their node ids; a leaf's id is its symbol (R16). -/
inductive Shape where
  | leaf (sym : Byte)
  | node (id : NodeId) (left right : Shape)

namespace Shape

/-- The id of the root. -/
def root : Shape → NodeId
  | leaf sym => leafId sym
  | node id _ _ => id

@[simp] theorem root_leaf (sym : Byte) : (leaf sym).root = leafId sym := rfl
@[simp] theorem root_node (id : NodeId) (l r : Shape) : (node id l r).root = id := rfl

/-- The abstract tree T(id) of R35. -/
@[simp] def tree : Shape → Tree
  | leaf sym => .leaf sym
  | node _ l r => .node l.tree r.tree

/-- The node ids in pre-order. -/
@[simp] def ids : Shape → List Nat
  | leaf sym => [sym.toNat]
  | node id l r => id.toNat :: (l.ids ++ r.ids)

/-- Node memory holds the tree: every node is valid, and an internal node lists its children (R33). -/
def In (nm : Store Node) : Shape → Prop
  | leaf sym => nodeValid nm sym.toNat
  | node id l r =>
    256 ≤ id.toNat ∧ (∃ f, storeGet nm id.toNat = some ⟨f, some (l.root, r.root)⟩) ∧ l.In nm ∧ r.In nm

end Shape

@[simp] theorem toNat_leafId (sym : Byte) : (leafId sym).toNat = sym.toNat := by
  have := sym.isLt
  simp [leafId]
  omega

@[simp] theorem isLeafId_leafId (sym : Byte) : isLeafId (leafId sym) = true := by
  have := sym.isLt
  simpa [isLeafId] using this

@[simp] theorem leafSym_leafId (sym : Byte) : leafSym (leafId sym) = sym := by
  apply BitVec.eq_of_toNat_eq
  have := sym.isLt
  simp [leafSym]
  omega

theorem root_mem_ids (x : Shape) : x.root.toNat ∈ x.ids := by
  cases x <;> simp

theorem isLeafId_eq_false {id : NodeId} (h : 256 ≤ id.toNat) : isLeafId id = false := by
  simp [isLeafId, h]

/-- Reading T(id) from node memory that holds a tree under `id` gives that tree (R35). -/
theorem treeAt_of_in {nm : Store Node} {x : Shape} {fuel : Nat} (hx : x.In nm) (hf : treeDepth x.tree ≤ fuel) :
    treeAt nm fuel x.root = some x.tree := by
  induction x generalizing fuel with
  | leaf sym =>
    obtain ⟨fuel, rfl⟩ : ∃ n, fuel = n + 1 := ⟨fuel - 1, by simp [Shape.tree, treeDepth] at hf; omega⟩
    simp [treeAt]
  | node id l r ihl ihr =>
    obtain ⟨hid, ⟨f, hget⟩, hl, hr⟩ := hx
    simp only [Shape.tree, treeDepth] at hf
    obtain ⟨fuel, rfl⟩ : ∃ n, fuel = n + 1 := ⟨fuel - 1, by omega⟩
    simp [treeAt, isLeafId_eq_false hid, hget, ihl (fuel := fuel) hl (by omega),
      ihr (fuel := fuel) hr (by omega)]

/-- The ids met on the way are the tree's. -/
theorem treeIds_of_in {nm : Store Node} {x : Shape} {fuel : Nat} (hx : x.In nm) (hf : treeDepth x.tree ≤ fuel) :
    treeIds nm fuel x.root = x.ids := by
  induction x generalizing fuel with
  | leaf sym =>
    obtain ⟨fuel, rfl⟩ : ∃ n, fuel = n + 1 := ⟨fuel - 1, by simp [Shape.tree, treeDepth] at hf; omega⟩
    simp [treeIds]
  | node id l r ihl ihr =>
    obtain ⟨hid, ⟨f, hget⟩, hl, hr⟩ := hx
    simp only [Shape.tree, treeDepth] at hf
    obtain ⟨fuel, rfl⟩ : ∃ n, fuel = n + 1 := ⟨fuel - 1, by omega⟩
    simp [treeIds, isLeafId_eq_false hid, hget, ihl (fuel := fuel) hl (by omega),
      ihr (fuel := fuel) hr (by omega)]

/-- A write at an id outside the tree leaves the tree held. -/
theorem in_storePut {nm : Store Node} {x : Shape} {i : Nat} (n : Node) (hx : x.In nm) (hi : i ∉ x.ids) :
    x.In (storePut nm i n) := by
  induction x with
  | leaf sym =>
    simp only [Shape.ids, List.mem_singleton] at hi
    rw [Shape.In, nodeValid, storeGet_storePut_other nm n hi]
    exact hx
  | node id l r ihl ihr =>
    obtain ⟨hid, hget, hl, hr⟩ := hx
    simp only [Shape.ids, List.mem_cons, List.mem_append, not_or] at hi
    obtain ⟨hne, hil, hir⟩ := hi
    exact ⟨hid, by simpa only [storeGet_storePut_other nm n hne] using hget, ihl hl hil, ihr hr hir⟩

/-- A path cannot be longer than the number of leaves. -/
theorem treeDepth_le_length (t : Tree) : 1 ≤ (treeSymbols t).length ∧ treeDepth t ≤ (treeSymbols t).length := by
  induction t with
  | leaf sym => simp [treeSymbols, treeDepth]
  | node l r ihl ihr =>
    simp only [treeSymbols, treeDepth, List.length_append]
    omega

/-- The symbols of the leaves are node ids of the tree, in the same order. -/
theorem symbols_sublist_ids (x : Shape) : ((treeSymbols x.tree).map BitVec.toNat).Sublist x.ids := by
  induction x with
  | leaf sym => exact .refl _
  | node id l r ihl ihr =>
    simp only [Shape.tree, treeSymbols, Shape.ids, List.map_append]
    exact (ihl.append ihr).cons _

/-- Distinct symbols are at most 256. -/
theorem length_le_of_nodup {l : List Byte} (h : l.Nodup) : l.length ≤ 256 := by
  simpa using (h.map fun _ _ => BitVec.eq_of_toFin_eq).length_le_card

/-! ### The forest -/

/-- Every node id of a list of trees. -/
def forestIds (xs : List Shape) : List Nat := xs.flatMap Shape.ids

/-- Every symbol of a list of trees. -/
def forestSymbols (xs : List Shape) : List Byte := xs.flatMap fun x => treeSymbols x.tree

/-- Node memory holds exactly the trees of the list, without a common node, and `NINT` counts their internal nodes: one
less than the leaves in each tree. -/
structure Forest (s : State) (xs : List Shape) : Prop where
  nodes : NodesOk s
  held : ∀ x ∈ xs, x.In s.nm
  nodup : (forestIds xs).Nodup
  valid : ∀ id, nodeValid s.nm id ↔ id ∈ forestIds xs
  count : (forestSymbols xs).length = s.nint.toNat + xs.length

theorem Forest.congr {s t : State} {xs : List Shape} (h : Forest s xs) (hnm : t.nm = s.nm) (hnint : t.nint = s.nint) :
    Forest t xs where
  nodes := by simpa only [NodesOk, hnm, hnint] using h.nodes
  held := hnm ▸ h.held
  nodup := h.nodup
  valid := hnm ▸ h.valid
  count := hnint ▸ h.count

theorem Forest.perm {s : State} {xs ys : List Shape} (h : Forest s xs) (hp : ys.Perm xs) : Forest s ys where
  nodes := h.nodes
  held x hx := h.held x (hp.mem_iff.1 hx)
  nodup := (hp.flatMap_right _).nodup_iff.2 h.nodup
  valid id := (h.valid id).trans (hp.flatMap_right _).mem_iff.symm
  count := by rw [hp.length_eq, ← h.count]; exact (hp.flatMap_right _).length_eq

theorem forestSymbols_sublist (xs : List Shape) : ((forestSymbols xs).map BitVec.toNat).Sublist (forestIds xs) := by
  induction xs with
  | nil => exact .refl _
  | cons x xs ih =>
    simp only [forestSymbols, forestIds, List.flatMap_cons, List.map_append]
    exact (symbols_sublist_ids x).append ih

theorem Forest.symbols_nodup {s : State} {xs : List Shape} (h : Forest s xs) : (forestSymbols xs).Nodup :=
  (h.nodup.sublist (forestSymbols_sublist xs)).of_map _

/-- The alphabet bounds the nodes: 256 symbols. -/
theorem Forest.count_le {s : State} {xs : List Shape} (h : Forest s xs) : s.nint.toNat + xs.length ≤ 256 :=
  h.count ▸ length_le_of_nodup h.symbols_nodup

/-- Cleared node memory holds no tree. -/
theorem forest_nil {s : State} (hnm : s.nm = []) (hnint : s.nint = 0) : Forest s [] where
  nodes := by simp [NodesOk, hnm, hnint]
  held := by simp
  nodup := List.nodup_nil
  valid := by simp [hnm, forestIds]
  count := by simp [hnint, forestSymbols]

/-- A forest of one tree meets the tree invariants (R34) once its root is in `ROOT`. -/
theorem Forest.treeOk {s t : State} {x : Shape} (h : Forest s [x]) (hnm : t.nm = s.nm) (hnint : t.nint = s.nint)
    (hroot : t.root = x.root) : TreeOk t := by
  replace h := h.congr hnm hnint
  have hids : forestIds [x] = x.ids := by simp [forestIds]
  have hsyms : forestSymbols [x] = treeSymbols x.tree := by simp [forestSymbols]
  have hnodup := hsyms ▸ h.symbols_nodup
  have hx : x.In t.nm := h.held x (List.mem_singleton_self x)
  have hdepth : treeDepth x.tree ≤ depthMax := (treeDepth_le_length _).2.trans (length_le_of_nodup hnodup)
  have hfuel : treeDepth x.tree ≤ nodeMemSize := hdepth.trans (by decide)
  have htree : t.tree = some x.tree := by rw [State.tree, hroot, treeAt_of_in hx hfuel]
  have htreeIds : treeIds t.nm nodeMemSize t.root = x.ids := by rw [hroot, treeIds_of_in hx hfuel]
  refine ⟨h.nodes, ⟨x.tree, htree, hdepth, hnodup, ?_⟩, ?_, fun id _ => ?_⟩
  · rw [← hsyms, h.count, List.length_singleton]
  · rw [htreeIds, ← hids]
    exact h.nodup
  · rw [htreeIds, ← hids]
    exact h.valid id

/-! ### Adding a node -/

theorem nodeValid_storePut {nm : Store Node} {i j : Nat} {n : Node} :
    nodeValid (storePut nm i n) j ↔ j = i ∨ nodeValid nm j := by
  rw [nodeValid, storeGet_storePut]
  by_cases h : i = j
  · simp [h]
  · simp [h, Ne.symm h]

/-- In range, a valid internal node is one of the `NINT` made so far. -/
theorem nodeValid_lt {s : State} (h : NodesOk s) {id : Nat} (hid : nodeValid s.nm id) : id < 256 + s.nint.toNat := by
  obtain ⟨-, -, hentries, -⟩ := h
  obtain ⟨n, hn⟩ := Option.isSome_iff_exists.1 hid
  obtain ⟨-, -, hlt, -⟩ := hentries _ (mem_of_storeGet hn)
  simp only at hlt
  omega

/-- Writing a leaf keeps `NodesOk`. -/
theorem nodesOk_putLeaf {s : State} (h : NodesOk s) {sym : Nat} (hsym : sym < 256) (f : Word32) :
    NodesOk { s with nm := storePut s.nm sym ⟨f, none⟩ } := by
  obtain ⟨hsorted, hnint, hentries, hinner⟩ := h
  refine ⟨storePut_sorted hsorted _ _, hnint, fun e he => ?_, fun k hk => nodeValid_storePut.2 (.inr (hinner k hk))⟩
  rcases mem_storePut he with rfl | he
  · refine ⟨by simp [nodeMemSize]; omega, ?_, ?_, ?_⟩ <;> simp <;> omega
  · obtain ⟨hsize, hkids, hmade, hbelow⟩ := hentries e he
    refine ⟨hsize, hkids, hmade, fun k hk => ?_⟩
    obtain ⟨hl, hr, hne, hvl, hvr⟩ := hbelow k hk
    exact ⟨hl, hr, hne, nodeValid_storePut.2 (.inr hvl), nodeValid_storePut.2 (.inr hvr)⟩

theorem toNat_nextInnerId {nint : BitVec 9} (h : nint.toNat ≤ 255) : (nextInnerId nint).toNat = 256 + nint.toNat := by
  simp [nextInnerId]
  omega

theorem toNat_add_one {nint : BitVec 9} (h : nint.toNat ≤ 255) : (nint + 1).toNat = nint.toNat + 1 := by
  simp
  omega

/-- Writing the next internal node over two different valid nodes keeps `NodesOk`. -/
theorem nodesOk_putInner {s : State} (h : NodesOk s) (hn : s.nint.toNat ≤ 254) {l r : NodeId} (f : Word32) (hne : l ≠ r)
    (hl : nodeValid s.nm l.toNat) (hr : nodeValid s.nm r.toNat) :
    NodesOk { s with nint := s.nint + 1, nm := storePut s.nm (nextInnerId s.nint).toNat ⟨f, some (l, r)⟩ } := by
  have hll := nodeValid_lt h hl
  have hrl := nodeValid_lt h hr
  obtain ⟨hsorted, hnint, hentries, hinner⟩ := h
  have hid := toNat_nextInnerId hnint
  have hone := toNat_add_one hnint
  refine ⟨storePut_sorted hsorted _ _, by simp only [hone]; omega, fun e he => ?_, fun k hk => ?_⟩
  · simp only [hone]
    rcases mem_storePut he with rfl | he
    · simp only [hid, nodeMemSize, Option.isSome_some, true_iff, Option.mem_some_iff, forall_eq']
      exact ⟨by omega, by omega, by omega, hll, hrl, hne, nodeValid_storePut.2 (.inr hl),
        nodeValid_storePut.2 (.inr hr)⟩
    · obtain ⟨hsize, hkids, hmade, hbelow⟩ := hentries e he
      refine ⟨hsize, hkids, fun h => (hmade h).trans (by omega), fun k hk => ?_⟩
      obtain ⟨hl, hr, hne, hvl, hvr⟩ := hbelow k hk
      exact ⟨hl, hr, hne, nodeValid_storePut.2 (.inr hvl), nodeValid_storePut.2 (.inr hvr)⟩
  · simp only [hone] at hk
    refine nodeValid_storePut.2 ?_
    rcases Nat.lt_succ_iff_lt_or_eq.1 hk with hk | rfl
    · exact .inr (hinner k hk)
    · exact .inl hid.symm

/-- A leaf written where no node is valid is a tree more. -/
theorem Forest.putLeaf {s : State} {xs : List Shape} (h : Forest s xs) {sym : Byte} (f : Word32)
    (hfresh : ¬ nodeValid s.nm sym.toNat) :
    Forest { s with nm := storePut s.nm sym.toNat ⟨f, none⟩ } (.leaf sym :: xs) := by
  have hnew : sym.toNat ∉ forestIds xs := fun hm => hfresh ((h.valid _).2 hm)
  have hids : forestIds (.leaf sym :: xs) = sym.toNat :: forestIds xs := by simp [forestIds, Shape.ids]
  refine ⟨nodesOk_putLeaf h.nodes sym.isLt f, fun x hx => ?_, ?_, fun id => ?_, ?_⟩
  · rcases List.mem_cons.1 hx with rfl | hx
    · exact nodeValid_storePut.2 (.inl rfl)
    · exact in_storePut _ (h.held x hx) fun hm => hnew (List.mem_flatMap.2 ⟨x, hx, hm⟩)
  · rw [hids]
    exact List.nodup_cons.2 ⟨hnew, h.nodup⟩
  · rw [hids, nodeValid_storePut, h.valid, List.mem_cons]
  · have := h.count
    simp only [forestSymbols, List.flatMap_cons, List.length_append, List.length_cons] at this ⊢
    simp only [Shape.tree, treeSymbols, List.length_singleton]
    omega

/-- The next internal node written over the roots of two trees joins them. -/
theorem Forest.putInner {s : State} {l r : Shape} {xs : List Shape} (h : Forest s (l :: r :: xs)) (f : Word32) :
    Forest { s with nint := s.nint + 1,
                    nm := storePut s.nm (nextInnerId s.nint).toNat ⟨f, some (l.root, r.root)⟩ }
      (.node (nextInnerId s.nint) l r :: xs) := by
  have hbound := h.count_le
  simp only [List.length_cons] at hbound
  have hid := toNat_nextInnerId (nint := s.nint) (by omega)
  have hnew : (nextInnerId s.nint).toNat ∉ forestIds (l :: r :: xs) := fun hm => by
    have := nodeValid_lt h.nodes ((h.valid _).2 hm)
    omega
  have hids : forestIds (.node (nextInnerId s.nint) l r :: xs) =
      (nextInnerId s.nint).toNat :: forestIds (l :: r :: xs) := by simp [forestIds, Shape.ids]
  have hroot (x : Shape) (hx : x ∈ l :: r :: xs) : nodeValid s.nm x.root.toNat :=
    (h.valid _).2 (List.mem_flatMap.2 ⟨x, hx, root_mem_ids x⟩)
  have hne : l.root ≠ r.root := fun he => by
    have hdisj := (List.nodup_append.1 h.nodup).2.2
    refine hdisj _ (root_mem_ids l) _ ?_ (congrArg BitVec.toNat he)
    exact List.mem_flatMap.2 ⟨r, List.mem_cons_self .., root_mem_ids r⟩
  have hkept (x : Shape) (hx : x ∈ l :: r :: xs) :
      x.In (storePut s.nm (nextInnerId s.nint).toNat ⟨f, some (l.root, r.root)⟩) :=
    in_storePut _ (h.held x hx) fun hm => hnew (List.mem_flatMap.2 ⟨x, hx, hm⟩)
  refine ⟨nodesOk_putInner h.nodes (by omega) f hne (hroot l (by simp)) (hroot r (by simp)), fun x hx => ?_, ?_,
    fun id => ?_, ?_⟩
  · rcases List.mem_cons.1 hx with rfl | hx
    · exact ⟨by omega, ⟨f, storeGet_storePut_same ..⟩, hkept l (by simp), hkept r (by simp)⟩
    · exact hkept x (by simp [hx])
  · rw [hids]
    exact List.nodup_cons.2 ⟨hnew, h.nodup⟩
  · rw [hids, nodeValid_storePut, h.valid, List.mem_cons]
  · have := h.count
    simp only [forestSymbols, List.flatMap_cons, List.length_append, List.length_cons] at this ⊢
    simp only [Shape.tree, treeSymbols, List.length_append, toNat_add_one (show s.nint.toNat ≤ 255 by omega)]
    omega

end Sys2Proof.Machine
end

section
/-! SUPPORT. TB_BUILD and TD_DESERIALIZE as the growth of a forest (spec/44_tree_builder.md R172, R181), and that every step
keeps the tree invariants (spec/10_state.md R34). -/

namespace Sys2Proof.Machine

/-! ### Building: the queue holds the roots of the forest -/

/-- The queue holds a key for each tree of a forest that node memory holds, the key's id the root of the tree. -/
def Queued (s : State) : Prop := ∃ xs, Forest s xs ∧ List.Forall₂ (fun k x => keyId k = x.root) s.hp xs

/-- The order in which the queue lists its keys does not matter. -/
theorem queued_of_perm {s : State} {keys : List Key} {xs : List Shape} (h : Forest s xs)
    (hk : List.Forall₂ (fun k x => keyId k = x.root) keys xs) (hp : s.hp.Perm keys) : Queued s := by
  obtain ⟨ys, hys, hperm⟩ := List.perm_comp_forall₂ hp hk
  exact ⟨ys, h.perm hperm, hys⟩

theorem keyId_mkKey (f : Word32) (id : NodeId) : keyId (mkKey f id) = id := argId_append f id

/-- The key of a new tree goes into the queue: it is never full, for every key is the root of a tree with a leaf of its
own. -/
theorem pushKey_queued {s : State} {k : Key} {x : Shape} {xs : List Shape} (h : Forest s (x :: xs))
    (hk : keyId k = x.root) (hq : List.Forall₂ (fun k x => keyId k = x.root) s.hp xs) :
    pushKey k s = .ok () { s with hp := heapPush k s.hp } ∧ Queued { s with hp := heapPush k s.hp } := by
  have hle := h.count_le
  have hlen := hq.length_eq
  simp only [List.length_cons] at hle
  exact ⟨pushKey_room (by simp only [heapCap]; omega),
    queued_of_perm (h.congr rfl rfl) (.cons hk hq) (heapPush_perm k s.hp)⟩

/-- The leaf pass makes a tree of one leaf for each symbol that occurs (R172). -/
theorem pushLeaves_queued {syms : List Nat} {s : State} (hq : Queued s) (hnodup : syms.Nodup)
    (hsyms : ∀ sym ∈ syms, sym < 256 ∧ ¬ nodeValid s.nm sym) : ∃ t, pushLeaves syms s = .ok () t ∧ Queued t := by
  induction syms generalizing s with
  | nil => exact ⟨s, rfl, hq⟩
  | cons sym syms ih =>
    obtain ⟨hnew, hrestNodup⟩ := List.nodup_cons.1 hnodup
    obtain ⟨⟨hlt, hfresh⟩, hrest⟩ := List.forall_mem_cons.1 hsyms
    by_cases hf : countGet s.ft sym = 0
    · rw [pushLeaves, if_pos hf]
      exact ih hq hrestNodup hrest
    · obtain ⟨xs, hforest, hkeys⟩ := hq
      obtain ⟨b, rfl⟩ : ∃ b : Byte, sym = b.toNat := ⟨BitVec.ofNat 8 sym, by simp; omega⟩
      have hid : keyId (mkKey (countGet s.ft b.toNat) (BitVec.ofNat 9 b.toNat)) = leafId b :=
        (keyId_mkKey ..).trans (BitVec.ofNat_toNat ..)
      obtain ⟨hpush, hq'⟩ := pushKey_queued (hforest.putLeaf (countGet s.ft b.toNat) hfresh) hid hkeys
      obtain ⟨t, ht, hqt⟩ := ih hq' hrestNodup fun sym hsym => ⟨(hrest sym hsym).1, fun hv => by
        rcases nodeValid_storePut.1 hv with rfl | hv
        · exact hnew hsym
        · exact (hrest sym hsym).2 hv⟩
      refine ⟨t, ?_, hqt⟩
      rw [pushLeaves, if_neg hf, hpush, bind_ok]
      exact ht

/-- A merge joins two trees into one (R172). -/
theorem mergeOnce_queued {s : State} (hq : Queued s) (hlen : 2 ≤ s.hp.length) :
    ∃ t, mergeOnce s = .ok () t ∧ Queued t ∧ t.hp.length + 1 = s.hp.length := by
  obtain ⟨a, rest, hs⟩ := List.exists_cons_of_length_pos (show 0 < s.hp.length by omega)
  have hpop := length_heapPop a rest
  obtain ⟨b, rest', hs'⟩ := List.exists_cons_of_length_pos (l := heapPop (a :: rest)) (by
    rw [hs, List.length_cons] at hlen
    omega)
  have hperm : (a :: b :: heapPop (b :: rest')).Perm s.hp :=
    ((heapPop_perm b rest').cons a).trans (by rw [← hs', hs]; exact heapPop_perm a rest)
  obtain ⟨xs, hforest, hkeys⟩ := hq
  obtain ⟨ys, hys, hyxs⟩ := List.perm_comp_forall₂ hperm hkeys
  cases hys with
  | @cons _ x _ _ hx hys => cases hys with
    | @cons _ y _ ys hy hys =>
      have hnode := (hforest.perm hyxs).putInner (keyFreq a + keyFreq b)
      rw [← hx, ← hy] at hnode
      obtain ⟨hpush, hqueued⟩ := pushKey_queued (k := mkKey (keyFreq a + keyFreq b) (nextInnerId s.nint))
        (hnode.congr (t := { s with hp := heapPop (b :: rest'), nint := _, nm := _ }) rfl rfl) (keyId_mkKey ..) hys
      refine ⟨_, ?_, hqueued, ?_⟩
      · rw [mergeOnce, topKey_cons hs, bind_ok, popKey_cons hs, bind_ok, topKey_cons hs', bind_ok, popKey_cons hs',
          bind_ok]
        exact hpush
      · have := hperm.length_eq
        simpa using this

/-- The merges leave one tree (R172). -/
theorem mergeLoop_queued {fuel : Nat} {s : State} (hq : Queued s) (hpos : 1 ≤ s.hp.length)
    (hfuel : s.hp.length ≤ fuel + 1) :
    ∃ t, mergeLoop fuel s = .ok () t ∧ Queued t ∧ t.hp.length = 1 := by
  induction fuel generalizing s with
  | zero => exact ⟨s, rfl, hq, by omega⟩
  | succ fuel ih =>
    by_cases hone : s.hp.length ≤ 1
    · exact ⟨s, by rw [mergeLoop, if_pos hone], hq, by omega⟩
    · obtain ⟨t, ht, hqt, hlt⟩ := mergeOnce_queued hq (by omega)
      obtain ⟨u, hu, hqu, hone'⟩ := ih hqt (by omega) (by omega)
      exact ⟨u, by rw [mergeLoop, if_neg hone, ht, bind_ok, hu], hqu, hone'⟩

/-- The last tree, or the sentinel leaf of an empty table, becomes the current tree (R172, R174). -/
theorem finishTree_treeOk {s : State} (hq : Queued s) :
    ∃ t, finishTree s = .ok () t ∧ TreeOk t := by
  by_cases h0 : s.hp.length = 0
  · obtain ⟨xs, hforest, hkeys⟩ := hq
    obtain rfl : xs = [] := List.length_eq_zero_iff.1 (hkeys.length_eq ▸ h0)
    have hleaf := hforest.putLeaf (sym := 0) 0 fun hv => by simpa [forestIds] using (hforest.valid _).1 hv
    have hfinish : finishTree s = .ok () { s with nm := storePut s.nm 0 ⟨0, none⟩, root := 0, rootValid := true } := by
      rw [finishTree, if_pos h0]
    exact ⟨_, hfinish, hleaf.treeOk rfl rfl rfl⟩
  · obtain ⟨t, ht, ⟨xs, hforest, hkeys⟩, hone⟩ := mergeLoop_queued hq (by omega) (Nat.le_succ _)
    obtain ⟨k, hk⟩ := List.length_eq_one_iff.1 hone
    rw [hk] at hkeys
    cases hkeys with
    | @cons _ x _ _ hx hnil =>
      cases hnil
      have hfinish : finishTree s = .ok () { t with hp := heapPop [k], root := keyId k, rootValid := true } := by
        rw [finishTree, if_neg h0, ht, bind_ok, topKey_cons hk, bind_ok, popKey_cons hk, bind_ok]
      exact ⟨_, hfinish, hforest.treeOk rfl rfl hx⟩

/-- `TbBuild` always completes and leaves a tree (R172, R34). -/
theorem buildTree_treeOk (s : State) : ∃ t, buildTree s = .ok () t ∧ TreeOk t := by
  have hstart : Queued { clearTree s with hp := [] } := ⟨[], forest_nil rfl rfl, .nil⟩
  obtain ⟨t, ht, hq⟩ := pushLeaves_queued (syms := List.range alphabetSize) hstart List.nodup_range
    fun sym hsym => ⟨List.mem_range.1 hsym, by simp⟩
  obtain ⟨u, hu, hok⟩ := finishTree_treeOk hq
  exact ⟨u, by rw [buildTree, ht, bind_ok, hu], hok⟩

/-! ### Reading back: each subtree read is a tree more -/

theorem forest_of_reader {s t : State} {xs : List Shape} (h : Forest s xs) (hr : ReaderFrame s t) : Forest t xs := by
  unfold ReaderFrame at hr
  exact h.congr (by rw [hr]) (by rw [hr])

theorem readLeaf_forest {s t : State} {r : NodeId} {xs : List Shape} (h : Forest s xs) (hr : readLeaf s = .ok r t) :
    ∃ x, Forest t (x :: xs) ∧ x.root = r := by
  obtain ⟨sym, u, hsym, hr⟩ := bind_eq_ok_iff.1 hr
  have hu := forest_of_reader h ((getBits_frame 8 0 s).1 _ _ hsym)
  split at hr
  · cases hr
  · rename_i hfresh
    cases hr
    exact ⟨.leaf sym, hu.putLeaf 0 hfresh, rfl⟩

/-- `Des` that completes adds one tree to the forest and answers its root (R181). -/
theorem deserialize_forest {levels : Nat} {s t : State} {r : NodeId} {xs : List Shape} (h : Forest s xs)
    (hd : deserialize levels s = .ok r t) : ∃ x, Forest t (x :: xs) ∧ x.root = r := by
  induction levels generalizing s t r xs with
  | zero => cases hd
  | succ levels ih =>
    obtain ⟨flag, u, hflag, hd⟩ := bind_eq_ok_iff.1 hd
    have hu := forest_of_reader h ((getBit_frame s).1 _ _ hflag)
    split at hd
    · exact readLeaf_forest hu hd
    · obtain ⟨l, v, hl, hd⟩ := bind_eq_ok_iff.1 hd
      obtain ⟨r', w, hr, hd⟩ := bind_eq_ok_iff.1 hd
      obtain ⟨x, hx, rfl⟩ := ih hu hl
      obtain ⟨y, hy, rfl⟩ := ih hx hr
      cases hd
      exact ⟨_, (hy.perm (.swap ..)).putInner _, rfl⟩

/-- Where `Des` raises, the nodes made before stand (R181). -/
theorem deserialize_raised {levels : Nat} {s t : State} {e : ErrorKind} {xs : List Shape} (h : Forest s xs)
    (hd : deserialize levels s = .raised e t) : NodesOk t := by
  induction levels generalizing s t xs with
  | zero =>
    cases hd
    exact h.nodes
  | succ levels ih =>
    rcases bind_eq_raised_iff.1 hd with hflag | ⟨flag, u, hflag, hd⟩
    · exact (forest_of_reader h ((getBit_frame s).2 _ _ hflag)).nodes
    have hu := forest_of_reader h ((getBit_frame s).1 _ _ hflag)
    split at hd
    · rcases bind_eq_raised_iff.1 hd with hsym | ⟨sym, v, hsym, hd⟩
      · exact (forest_of_reader hu ((getBits_frame 8 0 u).2 _ _ hsym)).nodes
      · have hv := forest_of_reader hu ((getBits_frame 8 0 u).1 _ _ hsym)
        split at hd <;> cases hd
        exact hv.nodes
    · rcases bind_eq_raised_iff.1 hd with hl | ⟨l, v, hl, hd⟩
      · exact ih hu hl
      obtain ⟨x, hx, -⟩ := deserialize_forest hu hl
      rcases bind_eq_raised_iff.1 hd with hr | ⟨r, w, -, hd⟩
      · exact ih hx hr
      · cases hd

/-! ### The tree invariants -/

theorem treeInv_congr {s t : State} (hnm : t.nm = s.nm) (hnint : t.nint = s.nint) (hroot : t.root = s.root)
    (hvalid : t.rootValid = s.rootValid) (h : TreeInv s) : TreeInv t := by
  simpa only [TreeInv, TreeOk, NodesOk, State.tree, hnm, hnint, hroot, hvalid] using h

/-- A command that makes no tree keeps the tree invariants by its frame. -/
theorem treeInv_of_frame {i : Instr} (hi : i ∉ [.tbBuild, .tdDeserialize, .encCompress, .decDecompress, .sysReset])
    {s t : State} (hf : Frame i s t) (h : TreeInv s) : TreeInv t := by
  cases i with
  | tbBuild | tdDeserialize | encCompress | decDecompress | sysReset => simp at hi
  | _ =>
    unfold Frame at hf
    exact treeInv_congr (by rw [hf]) (by rw [hf]) (by rw [hf]) (by rw [hf]) h

theorem treeInv_of_treeOk {s : State} (h : TreeOk s) : TreeInv s := ⟨h.1, fun _ => h⟩

theorem treeInv_of_noTree {s : State} (h : NodesOk s) (hv : s.rootValid = false) : TreeInv s :=
  ⟨h, fun ht => by rw [hv] at ht; cases ht⟩

theorem resetBlock_treeInv (s : State) : TreeInv (resetBlock s) := treeInv_of_noTree (forest_nil rfl rfl).nodes rfl

theorem buildTree_treeInv (s : State) : (buildTree s).Ends TreeInv := by
  obtain ⟨t, ht, hok⟩ := buildTree_treeOk s
  rw [ht]
  exact ends_ok (treeInv_of_treeOk hok)

/-- TD_DESERIALIZE leaves a tree, or, where it raises, no current tree over well-formed nodes (R181). -/
theorem deserializeTree_treeInv (s : State) : (deserializeTree s).Ends TreeInv := by
  have hstart : Forest (clearTree s) [] := forest_nil rfl rfl
  refine ends_promote ⟨fun _ t h => ?_, fun e t h => ?_⟩
  · obtain ⟨r, u, hd, h⟩ := bind_eq_ok_iff.1 h
    obtain ⟨x, hx, hr⟩ := deserialize_forest hstart hd
    cases h
    exact treeInv_of_treeOk (hx.treeOk rfl rfl hr.symm)
  · rcases bind_eq_raised_iff.1 h with hd | ⟨r, u, -, h⟩
    · have hframe := (deserialize_frame depthMax (clearTree s)).2 e t hd
      unfold ParseFrame at hframe
      exact treeInv_of_noTree (deserialize_raised hstart hd) (by rw [hframe]; rfl)
    · cases h

theorem decompress_treeInv (s : State) : (decompress s).Ends TreeInv :=
  ends_promote <|
    ends_bind (deserializeTree_treeInv _) (fun _ h => h) fun _ t ht =>
    ends_bind (ends_mono (getBits_frame 32 0 t) fun _ hu => treeInv_of_frame (by decide) hu.toFrame ht) (fun _ h => h)
      fun n _ hu =>
    ends_bind (ends_mono (decodeSymbols_frame n 0 _) fun _ hv => treeInv_of_frame (by decide) hv hu) (fun _ h => h)
      fun _ _ hv => ends_ok hv

/-- Every rule keeps the tree invariants: the four that make a tree by the growth of a forest, every other by its
frame. -/
theorem ruleOf_keeps_treeInv {i : Instr} {s : State} (hi : isSystem i = false) (h : TreeInv s) :
    (ruleOf i s).Ends TreeInv := by
  by_cases htree : i ∈ [.tbBuild, .tdDeserialize, .encCompress, .decDecompress, .sysReset]
  · simp only [List.mem_cons, List.not_mem_nil, or_false] at htree
    rcases htree with rfl | rfl | rfl | rfl | rfl
    · exact noResult_ends (buildTree_treeInv s)
    · exact noResult_ends (deserializeTree_treeInv s)
    · exact answer_ends _ (compress_keeps
        (fun s hs => ends_mono (loadInput_frame s) fun _ ht => treeInv_of_frame (by decide) ht hs)
        (fun s _ => buildTree_treeInv s)
        (fun s hs => ends_mono (deriveCodes_frame s) fun _ ht => treeInv_of_frame (by decide) ht hs)
        (fun _ _ ht hs => treeInv_of_frame (by decide) ht hs) h)
    · exact answer_ends _ (decompress_treeInv s)
    · cases hi
  · exact ends_mono (ruleOf_frame hi s) fun _ ht => treeInv_of_frame htree ht h

theorem sameBlock_treeInv {s t : State} (hb : SameBlock s t) (hs : TreeInv s) : TreeInv t := by
  unfold SameBlock at hb
  exact treeInv_congr (by rw [hb]) (by rw [hb]) (by rw [hb]) (by rw [hb]) hs

/-- Settles O56: TB_BUILD and TD_DESERIALIZE grow a forest from nothing, and no other rule writes node memory. -/
theorem stepKeepsTheTreeInvariants : Obligations.StepKeepsTheTreeInvariants := fun _ _ hs h =>
  step_keeps (P := TreeInv) (fun _ _ => sameBlock_treeInv) (fun s _ => resetBlock_treeInv s)
    (fun _ _ => ruleOf_keeps_treeInv) hs h

end Sys2Proof.Machine
end

section
/-! SUPPORT. The code table a tree gives (spec/45_encoder.md R200, R201), and that every step keeps the code invariant
(spec/10_state.md R38). -/

namespace Sys2Proof.Machine

/-- The symbol of the leaf a path ends at, left on 0 and right on 1 (R103); `none` for a path that ends elsewhere. -/
def leafAt : Tree → List Bool → Option Byte
  | .leaf sym, [] => some sym
  | .node l r, bit :: path => if bit then leafAt r path else leafAt l path
  | _, _ => none

/-- A path to a leaf goes no further (R200). -/
theorem leafAt_append {t : Tree} {p q : List Bool} {a b : Byte} (hp : leafAt t p = some a)
    (hq : leafAt t (p ++ q) = some b) : q = [] := by
  induction t generalizing p with
  | leaf sym =>
    cases p with
    | nil => cases q with
      | nil => rfl
      | cons _ _ => cases hq
    | cons _ _ => cases hp
  | node l r ihl ihr =>
    cases p with
    | nil => cases hp
    | cons bit p =>
      simp only [leafAt, List.cons_append] at hp hq
      cases bit with
      | false => exact ihl hp hq
      | true => exact ihr hp hq

/-- A path to a leaf has one edge less than nodes. -/
theorem length_lt_treeDepth {t : Tree} {p : List Bool} {a : Byte} (hp : leafAt t p = some a) :
    p.length < treeDepth t := by
  induction t generalizing p with
  | leaf sym =>
    cases p with
    | nil => exact Nat.one_pos
    | cons _ _ => cases hp
  | node l r ihl ihr =>
    cases p with
    | nil => cases hp
    | cons bit p =>
      simp only [leafAt] at hp
      simp only [List.length_cons, treeDepth]
      cases bit with
      | false => have := ihl hp; omega
      | true => have := ihr hp; omega

/-- What `Walk` binds are the paths to the leaves, each after the path walked so far (R201). -/
theorem mem_walkCodes {t : Tree} {path : List Bool} {ct : Store (List Bool)} {e : Nat × List Bool}
    (h : e ∈ walkCodes t path ct) :
    e ∈ ct ∨ ∃ p sym, leafAt t p = some sym ∧ e = (sym.toNat, path ++ p) := by
  induction t generalizing path ct with
  | leaf sym =>
    rcases mem_storePut h with rfl | h
    · exact .inr ⟨[], sym, rfl, by rw [List.append_nil]⟩
    · exact .inl h
  | node l r ihl ihr =>
    rcases ihr h with h | ⟨p, sym, hp, rfl⟩
    · rcases ihl h with h | ⟨p, sym, hp, rfl⟩
      · exact .inl h
      · exact .inr ⟨false :: p, sym, hp, by simp⟩
    · exact .inr ⟨true :: p, sym, hp, by simp⟩

/-- The codes of a tree within the depth bound meet the code invariant (R38, R200). -/
theorem codesOf_codeInv {s : State} {t : Tree} (hd : treeDepth t ≤ depthMax) : CodeInv { s with ct := codesOf t } := by
  cases t with
  | leaf sym => simp [CodeInv, codesOf, storePut, codeMax]
  | node l r =>
    have hpath {e : Nat × List Bool} (he : e ∈ codesOf (.node l r)) :
        ∃ p sym, leafAt (.node l r) p = some sym ∧ e = (sym.toNat, p) := by
      simpa using mem_walkCodes (t := .node l r) he
    intro e he
    obtain ⟨p, a, hp, rfl⟩ := hpath he
    have hlen := length_lt_treeDepth hp
    refine ⟨?_, ?_, fun f hf hpre => ?_⟩
    · cases p with
      | nil => cases hp
      | cons _ _ => simp
    · simp only [codeMax, depthMax] at hd ⊢
      omega
    · obtain ⟨q, b, hq, rfl⟩ := hpath hf
      obtain ⟨tail, rfl⟩ := hpre
      obtain rfl := leafAt_append hp hq
      rw [List.append_nil, hp] at hq
      cases hq
      rw [List.append_nil]

theorem codeInv_congr {s t : State} (hct : t.ct = s.ct) (h : CodeInv s) : CodeInv t := by
  simpa only [CodeInv, hct] using h

/-- A command that binds no code keeps the code invariant by its frame. -/
theorem codeInv_of_frame {i : Instr} (hi : i ∉ [.ctDerive, .encCompress, .sysReset]) {s t : State} (hf : Frame i s t)
    (h : CodeInv s) : CodeInv t := by
  cases i with
  | ctDerive | encCompress | sysReset => simp at hi
  | _ =>
    unfold Frame at hf
    exact codeInv_congr (by rw [hf]) h

/-- CT_DERIVE binds the paths of the current tree, which the tree invariants bound (R34 (f), R201). -/
theorem deriveCodes_codeInv {s : State} (ht : TreeInv s) (hc : CodeInv s) : (deriveCodes s).Ends CodeInv := by
  refine withTree_ends hc fun t hv htree => ends_ok (codesOf_codeInv ?_)
  obtain ⟨-, ⟨t', htree', hdepth, -⟩, -⟩ := ht.2 hv
  rw [htree] at htree'
  cases htree'
  exact hdepth

/-- The tree invariants and the code invariant together: codes are derived from the current tree. -/
def TreeAndCodes (s : State) : Prop := TreeInv s ∧ CodeInv s

theorem loadInput_treeAndCodes {s : State} (h : TreeAndCodes s) : (loadInput s).Ends TreeAndCodes :=
  ends_mono (loadInput_frame s) fun _ ht => ⟨treeInv_of_frame (by decide) ht h.1, codeInv_of_frame (by decide) ht h.2⟩

theorem buildTree_treeAndCodes {s : State} (h : TreeAndCodes s) : (buildTree s).Ends TreeAndCodes :=
  ends_and (buildTree_treeInv s) (ends_mono (buildTree_frame s) fun _ ht => codeInv_of_frame (by decide) ht h.2)

theorem deriveCodes_treeAndCodes {s : State} (h : TreeAndCodes s) : (deriveCodes s).Ends TreeAndCodes :=
  ends_and (ends_mono (deriveCodes_frame s) fun _ ht => treeInv_of_frame (by decide) ht h.1)
    (deriveCodes_codeInv h.1 h.2)

/-- Every rule keeps both invariants: the two that bind codes bind the paths of the current tree. -/
theorem ruleOf_keeps_treeAndCodes {i : Instr} {s : State} (hi : isSystem i = false) (h : TreeAndCodes s) :
    (ruleOf i s).Ends TreeAndCodes := by
  by_cases hcodes : i ∈ [.ctDerive, .encCompress, .sysReset]
  · simp only [List.mem_cons, List.not_mem_nil, or_false] at hcodes
    rcases hcodes with rfl | rfl | rfl
    · exact noResult_ends (deriveCodes_treeAndCodes h)
    · exact answer_ends _ (compress_keeps (fun _ => loadInput_treeAndCodes) (fun _ => buildTree_treeAndCodes)
        (fun _ => deriveCodes_treeAndCodes)
        (fun _ _ ht hs => ⟨treeInv_of_frame (by decide) ht hs.1, codeInv_of_frame (by decide) ht hs.2⟩) h)
    · cases hi
  · exact ends_and (ruleOf_keeps_treeInv hi h.1) (ends_mono (ruleOf_frame hi s) fun _ ht =>
      codeInv_of_frame hcodes ht h.2)

theorem resetBlock_codeInv (s : State) : CodeInv (resetBlock s) := by simp [CodeInv]

/-- Settles O57: a code is the path to a leaf, which goes no further and is shorter than the tree is deep. -/
theorem stepKeepsTheCodesPrefixFree : Obligations.StepKeepsTheCodesPrefixFree := by
  intro s t htree hcodes h
  refine (step_keeps (P := TreeAndCodes) (fun s t hb hs => ?_)
    (fun s _ => ⟨resetBlock_treeInv s, resetBlock_codeInv s⟩) (fun _ _ => ruleOf_keeps_treeAndCodes)
    ⟨htree, hcodes⟩ h).2
  refine ⟨sameBlock_treeInv hb hs.1, ?_⟩
  unfold SameBlock at hb
  exact codeInv_congr (by rw [hb]) hs.2

end Sys2Proof.Machine
end

section
/-! SUPPORT. The decoder and the encoder are inverse to each other, and each row of the opcode table holds of the words whose
fields are those of one command form (spec/30_encoding.md R80, R81, R83 to R85, R89). -/

namespace Sys2Proof

/-! ### A command form: the command without its operands -/

/-- The operand format of a command (R81). -/
def Instr.format : Instr → Format
  | .pqPush _ _ => .k41
  | .bwPutbit _ => .b1
  | .bwPutbyte _ => .b8
  | .bwPutint _ | .decWalk _ => .w32
  | .sysRdreg _ => .r4
  | _ => .z

/-- The command of the same row with the operands that `arg` carries (R81). -/
def Instr.withArg : Instr → Value → Instr
  | .pqPush _ _, arg => .pqPush (argFreq arg) (argId arg)
  | .bwPutbit _, arg => .bwPutbit (argBit arg)
  | .bwPutbyte _, arg => .bwPutbyte (argByte arg)
  | .bwPutint _, arg => .bwPutint (argWord arg)
  | .decWalk _, arg => .decWalk (argWord arg)
  | .sysRdreg _, arg => .sysRdreg (argIdx arg)
  | i, _ => i

/-- One command of every row, in the order of the table (R83). -/
def commandForms : List Instr :=
  [.pqPush 0 0, .pqTop, .pqPop, .pqSize, .bwPutbit false, .bwPutbyte 0, .bwPutint 0, .bwClose,
   .brGetbit, .brGetbyte, .brGetint, .ftLoad, .tbBuild, .tsSerialize, .tdDeserialize,
   .ctDerive, .encEmit, .encCompress, .decWalk 0, .decDecompress, .sysReset, .sysRdreg 0]

/-- The word `cw` has the `op` of `i`, a zero `rsv` and no bit of `arg` outside the operand bits of the format (R80, R81). -/
def Instr.FormOf (i : Instr) (cw : Word64) : Prop :=
  opField cw = i.op ∧ rsvField cw = 0 ∧ argField cw &&& ~~~ i.format.operandBits = 0

theorem formatOf_op (i : Instr) : formatOf i.op = some i.format := by
  cases i <;> rfl

@[simp] theorem withArg_op (i : Instr) (arg : Value) : (i.withArg arg).op = i.op := by
  cases i <;> rfl

@[simp] theorem withArg_mnemonic (i : Instr) (arg : Value) : (i.withArg arg).mnemonic = i.mnemonic := by
  cases i <;> rfl

/-- Every `op` of the opcode map is that of a row. -/
theorem exists_form_of_op : ∀ op : BitVec 8, (formatOf op).isSome → ∃ i ∈ commandForms, i.op = op := by
  decide

/-! ### Operands and the operand field -/

/-- An operand at the foot of `arg` is read back. -/
theorem extractLsb'_setWidth {w : Nat} (v : BitVec w) (hw : w ≤ 41) : (v.setWidth 41).extractLsb' 0 w = v := by
  rw [BitVec.extractLsb'_setWidth_of_le (by omega), BitVec.extractLsb'_eq_self]

/-- The operand at the foot of `arg`, put back, is `arg` under the mask of its `w` bits. -/
theorem setWidth_extractLsb' {w : Nat} (arg m : Value) (hm : ∀ i < 41, m.getLsbD i = decide (i < w)) :
    (arg.extractLsb' 0 w).setWidth 41 = arg &&& m := by
  apply BitVec.eq_of_getLsbD_eq
  intro i hi
  rw [BitVec.getLsbD_and, hm i hi]
  simp [hi, Bool.and_comm]

/-- The operands of a command are those its `arg` carries. -/
theorem withArg_arg (i : Instr) : i.withArg i.arg = i := by
  cases i with
  | pqPush freq id => exact congrArg₂ Instr.pqPush (argFreq_append freq id) (argId_append freq id)
  | bwPutbit bit => cases bit <;> rfl
  | bwPutbyte b => exact congrArg Instr.bwPutbyte (extractLsb'_setWidth b (by omega))
  | bwPutint v => exact congrArg Instr.bwPutint (extractLsb'_setWidth v (by omega))
  | decWalk n => exact congrArg Instr.decWalk (extractLsb'_setWidth n (by omega))
  | sysRdreg idx => exact congrArg Instr.sysRdreg (extractLsb'_setWidth idx (by omega))
  | _ => rfl

/-- The `arg` of the operands taken from `arg` is `arg` at the operand bits and 0 elsewhere (R81). -/
theorem arg_withArg (i : Instr) (arg : Value) : (i.withArg arg).arg = arg &&& i.format.operandBits := by
  cases i with
  | pqPush freq id => exact BitVec.extractLsb'_append_extractLsb'.trans BitVec.and_allOnes.symm
  | bwPutbit bit => exact BitVec.and_one_eq_setWidth_ofBool_getLsbD.symm
  | bwPutbyte b => exact setWidth_extractLsb' arg (Format.operandBits .b8) (by decide)
  | bwPutint v => exact setWidth_extractLsb' arg (Format.operandBits .w32) (by decide)
  | decWalk n => exact setWidth_extractLsb' arg (Format.operandBits .w32) (by decide)
  | sysRdreg idx => exact setWidth_extractLsb' arg (Format.operandBits .r4) (by decide)
  | _ => exact BitVec.and_zero.symm

/-! ### Words and command forms -/

/-- A word is given by its three fields (R80). -/
theorem word_eq_append_iff {cw : Word64} {op : BitVec 8} {rsv : BitVec 15} {arg : Value} :
    cw = op ++ rsv ++ arg ↔ opField cw = op ∧ rsvField cw = rsv ∧ argField cw = arg := by
  constructor
  · rintro rfl
    exact ⟨opField_append .., rsvField_append .., argField_append ..⟩
  · rintro ⟨rfl, rfl, rfl⟩
    exact word_eq_fields cw

theorem and_eq_self_of_and_not {w : Nat} {x m : BitVec w} (h : x &&& ~~~ m = 0) : x &&& m = x := by
  calc x &&& m = (x &&& m) ||| (x &&& ~~~ m) := by rw [h]; exact BitVec.or_zero.symm
    _ = x := by rw [← BitVec.and_or_distrib_left]; simp

/-- A word of a form is the word of the form's command with the operands of the word. -/
theorem encode_withArg {i : Instr} {cw : Word64} (h : i.FormOf cw) : encode (i.withArg (argField cw)) = cw := by
  obtain ⟨hop, hrsv, harg⟩ := h
  refine (word_eq_append_iff.2 ⟨?_, hrsv, ?_⟩).symm
  · rw [withArg_op, hop]
  · rw [arg_withArg, and_eq_self_of_and_not harg]

/-- The word of a command has the command's form. -/
theorem formOf_encode (i : Instr) : i.FormOf (encode i) := by
  refine ⟨opField_encode i, rsvField_encode i, ?_⟩
  have harg : i.arg = i.arg &&& i.format.operandBits := by
    conv_lhs => rw [← withArg_arg i, arg_withArg]
  rw [argField_encode, harg, BitVec.and_assoc, BitVec.and_not_self]
  exact BitVec.and_zero

/-! ### The decoder -/

theorem buildInstr_op (i : Instr) (arg : Value) :
    buildInstr i.op arg = if (i.withArg arg).wf then .ok (i.withArg arg) else .error .registerIndex := by
  cases i <;> rfl

/-- What the decoder does with a word of a form. -/
theorem decode_of_formOf {i : Instr} {cw : Word64} (h : i.FormOf cw) :
    decode cw =
      if (i.withArg (argField cw)).wf then .ok (i.withArg (argField cw)) else .error .registerIndex := by
  obtain ⟨hop, hrsv, harg⟩ := h
  simp only [decode, hop, formatOf_op, hrsv, harg, buildInstr_op, ne_eq, not_true_eq_false, if_false]

/-- A word the decoder accepts has passed the field checks of R85. -/
theorem exists_formOf_of_decode {cw : Word64} {i : Instr} (h : decode cw = .ok i) : ∃ j : Instr, j.FormOf cw := by
  unfold decode at h
  split at h
  case h_1 => cases h
  case h_2 f hf =>
    obtain ⟨j, -, hop⟩ := exists_form_of_op (opField cw) (hf ▸ rfl)
    obtain rfl : j.format = f := Option.some.inj (by rw [← formatOf_op, hop, hf])
    split at h
    case isTrue => cases h
    case isFalse hrsv =>
      split at h
      case isTrue => cases h
      case isFalse harg => exact ⟨j, hop.symm, not_not.1 hrsv, not_not.1 harg⟩

/-- The decoder gives a command on the command's own word alone, and there exactly when the command is well-formed. -/
theorem decode_eq_ok_iff {cw : Word64} {i : Instr} : decode cw = .ok i ↔ i.wf = true ∧ encode i = cw := by
  constructor
  · intro h
    obtain ⟨j, hj⟩ := exists_formOf_of_decode h
    rw [decode_of_formOf hj] at h
    split at h
    case isTrue hwf =>
      obtain rfl : j.withArg (argField cw) = i := by injection h
      exact ⟨hwf, encode_withArg hj⟩
    case isFalse => cases h
  · rintro ⟨hwf, rfl⟩
    rw [decode_of_formOf (formOf_encode i), argField_encode, withArg_arg, if_pos hwf]

/-- Settles O1: the operands put into the word of a command are those the decoder takes out of it. -/
theorem decodeInvertsEncode : Obligations.DecodeInvertsEncode := fun _ hwf => decode_eq_ok_iff.2 ⟨hwf, rfl⟩

/-- Settles O2: the fields of a legal word are those of the command it spells, so the word is the command's own. -/
theorem legalWordIsItsCommandsEncoding : Obligations.LegalWordIsItsCommandsEncoding :=
  fun _ _ h => decode_eq_ok_iff.1 h

/-! ### The opcode table -/

/-- The row of a command as R81 and R83 give it: the mask takes every bit that is not an operand bit. -/
def Instr.row (i : Instr) : OpcodeRow :=
  ⟨i.mnemonic, i.op ++ (0#15) ++ (0#41), (0xFF#8) ++ (0x7FFF#15) ++ ~~~ i.format.operandBits⟩

/-- The table the spec prints is made of the rows of the 22 command forms (R84). -/
theorem opcodeTable_eq_rows : opcodeTable = commandForms.map Instr.row := by decide

theorem withArg_zero_mem (i : Instr) : i.withArg 0 ∈ commandForms := by
  apply List.mem_of_elem_eq_true
  cases i <;> rfl

theorem row_withArg (i : Instr) (arg : Value) : (i.withArg arg).row = i.row := by
  cases i <;> rfl

theorem mem_opcodeTable_iff {row : OpcodeRow} : row ∈ opcodeTable ↔ ∃ i : Instr, i.row = row := by
  rw [opcodeTable_eq_rows, List.mem_map]
  constructor
  · rintro ⟨i, -, h⟩
    exact ⟨i, h⟩
  · rintro ⟨i, rfl⟩
    exact ⟨i.withArg 0, withArg_zero_mem i, row_withArg i 0⟩

theorem opField_and (a b : Word64) : opField (a &&& b) = opField a &&& opField b := BitVec.extractLsb'_and
theorem rsvField_and (a b : Word64) : rsvField (a &&& b) = rsvField a &&& rsvField b := BitVec.extractLsb'_and
theorem argField_and (a b : Word64) : argField (a &&& b) = argField a &&& argField b := BitVec.extractLsb'_and

/-- A word matches the row of a command exactly when it has the command's form. -/
theorem matches_row_iff {i : Instr} {cw : Word64} : cw &&& i.row.mask = i.row.pattern ↔ i.FormOf cw := by
  simp only [Instr.row, Instr.FormOf, word_eq_append_iff, opField_and, rsvField_and, argField_and, opField_append,
    rsvField_append, argField_append]
  rw [show (0xFF#8) = BitVec.allOnes 8 from rfl, show (0x7FFF#15) = BitVec.allOnes 15 from rfl, BitVec.and_allOnes,
    BitVec.and_allOnes]
  rfl

/-- The `op` of a row is that of no other. -/
theorem row_eq_of_op : ∀ a ∈ opcodeTable, ∀ b ∈ opcodeTable, opField a.pattern = opField b.pattern → a = b := by
  decide

theorem opField_row_pattern (i : Instr) : opField i.row.pattern = i.op := opField_append ..

/-- The index of SYS_RDREG is at the foot of its word. -/
theorem registerIndexOk_iff : ∀ idx : BitVec 4,
    registerIndexOk idx = true ↔ (encode (.sysRdreg idx) &&& 0xF).toNat ≤ 6 := by
  decide

/-- The one condition of R85 on operands, read off the command's word. -/
theorem wf_iff (i : Instr) : i.wf = true ↔ (i.mnemonic = "SYS_RDREG" → (encode i &&& 0xF).toNat ≤ 6) := by
  cases i with
  | sysRdreg idx => exact ⟨fun h _ => (registerIndexOk_iff idx).1 h, fun h => (registerIndexOk_iff idx).2 (h rfl)⟩
  | _ => simp [Instr.wf, Instr.mnemonic]

/-- Settles O3: the words of a row are those of one command form, and the forms differ in `op`. -/
theorem wordSpellsTheRowItMatches : Obligations.WordSpellsTheRowItMatches := by
  constructor
  · intro a ha b hb cw hcwa hcwb
    obtain ⟨i, rfl⟩ := mem_opcodeTable_iff.1 ha
    obtain ⟨j, rfl⟩ := mem_opcodeTable_iff.1 hb
    apply row_eq_of_op _ ha _ hb
    rw [opField_row_pattern, opField_row_pattern, ← (matches_row_iff.1 hcwa).1, ← (matches_row_iff.1 hcwb).1]
  · intro cw m
    constructor
    · rintro ⟨i, hi, rfl⟩
      obtain ⟨hwf, rfl⟩ := decode_eq_ok_iff.1 hi
      exact ⟨i.row, mem_opcodeTable_iff.2 ⟨i, rfl⟩, rfl, matches_row_iff.2 (formOf_encode i), (wf_iff i).1 hwf⟩
    · rintro ⟨row, hrow, rfl, hcw, hidx⟩
      obtain ⟨i, rfl⟩ := mem_opcodeTable_iff.1 hrow
      have henc := encode_withArg (matches_row_iff.1 hcw)
      have hm : (i.withArg (argField cw)).mnemonic = i.row.mnemonic := withArg_mnemonic i _
      refine ⟨i.withArg (argField cw), decode_eq_ok_iff.2 ⟨(wf_iff _).2 ?_, henc⟩, hm⟩
      rw [hm, henc]
      exact hidx

/-! ### Written lines -/

/-- Settles O5: the assembler run on each printed line. -/
theorem printedLinesAssemble : Obligations.PrintedLinesAssemble :=
  ⟨by decide, by decide, by decide, by decide, by decide, by decide, by decide, by decide⟩

end Sys2Proof
end

section
/-! SUPPORT. No rule answers or sets `ERR` itself: command entry does both, once (spec/30_encoding.md R82, R86). -/

namespace Sys2Proof.Machine

/-! ### The response word -/

/-- The fields of a response word (R82). -/
theorem responseWord_fields (err : Option ErrorKind) (value : Value) :
    (responseWord err value).extractLsb' 61 3 = errCode err ∧ (responseWord err value).extractLsb' 41 20 = 0 ∧
      (responseWord err value).extractLsb' 0 41 = value := by
  unfold responseWord
  refine ⟨?_, ?_, BitVec.extractLsb'_append_eq_right⟩
  · exact (BitVec.extractLsb'_append_eq_of_le (by omega)).trans BitVec.extractLsb'_append_eq_left
  · exact (BitVec.extractLsb'_append_eq_of_le (by omega)).trans BitVec.extractLsb'_append_eq_right

/-- IllegalOperation is answered by one word whatever the command (R82, R86). -/
theorem responseWord_illegalOperation : responseWord (some .illegalOperation) 0 = 0xA000000000000000 := by decide

/-! ### Rules do not answer -/

/-- `ERR` and the responses are the same. -/
def SameAnswers (s t : State) : Prop := t.err = s.err ∧ t.rsp = s.rsp

theorem SameAnswers.refl (s : State) : SameAnswers s s := ⟨rfl, rfl⟩

theorem SameAnswers.trans {s t u : State} (h₁ : SameAnswers s t) (h₂ : SameAnswers t u) : SameAnswers s u :=
  ⟨h₂.1.trans h₁.1, h₂.2.trans h₁.2⟩

theorem writer_sameAnswers {α : Type} {s : State} {r : Res α} (h : r.Ends (WriterFrame s)) :
    r.Ends (SameAnswers s) :=
  ends_mono h fun t ht => by unfold WriterFrame at ht; exact ⟨by rw [ht], by rw [ht]⟩

theorem reader_sameAnswers {α : Type} {s : State} {r : Res α} (h : r.Ends (ReaderFrame s)) :
    r.Ends (SameAnswers s) :=
  ends_mono h fun t ht => by unfold ReaderFrame at ht; exact ⟨by rw [ht], by rw [ht]⟩

theorem load_sameAnswers {α : Type} {s : State} {r : Res α} (h : r.Ends (LoadFrame s)) :
    r.Ends (SameAnswers s) :=
  ends_mono h fun t ht => by unfold LoadFrame at ht; exact ⟨by rw [ht], by rw [ht]⟩

theorem build_sameAnswers {α : Type} {s : State} {r : Res α} (h : r.Ends (BuildFrame s)) :
    r.Ends (SameAnswers s) :=
  ends_mono h fun t ht => by unfold BuildFrame at ht; exact ⟨by rw [ht], by rw [ht]⟩

theorem parse_sameAnswers {α : Type} {s : State} {r : Res α} (h : r.Ends (ParseFrame s)) :
    r.Ends (SameAnswers s) :=
  ends_mono h fun t ht => by unfold ParseFrame at ht; exact ⟨by rw [ht], by rw [ht]⟩

theorem walk_sameAnswers {α : Type} {s : State} {r : Res α} (h : r.Ends (WalkFrame s)) :
    r.Ends (SameAnswers s) :=
  ends_mono h fun t ht => by unfold WalkFrame at ht; exact ⟨by rw [ht], by rw [ht]⟩

/-- Two parts that do not answer make a sequence that does not. -/
theorem seq_sameAnswers {α β : Type} {s : State} {r : Res α} {f : α → State → Res β} (hr : r.Ends (SameAnswers s))
    (hf : ∀ a t, (f a t).Ends (SameAnswers t)) : (r.bind f).Ends (SameAnswers s) :=
  ends_seq SameAnswers (fun _ _ _ => SameAnswers.trans) hr hf

theorem loadInput_sameAnswers (s : State) : (loadInput s).Ends (SameAnswers s) := by
  unfold loadInput
  split
  · exact ends_raised (.refl s)
  · exact
      seq_sameAnswers (load_sameAnswers (s := { s with ib := [], ft := [] }) (loadLoop_frame ..)) fun _ t =>
        ends_ok (.refl t)

theorem finishTree_sameAnswers (s : State) : (finishTree s).Ends (SameAnswers s) := by
  unfold finishTree
  split
  · exact ends_ok ⟨rfl, rfl⟩
  · exact
      seq_sameAnswers (build_sameAnswers (mergeLoop_frame _ s)) fun _ t =>
      seq_sameAnswers (topKey_ends (.refl t)) fun _ u =>
      seq_sameAnswers (build_sameAnswers (popKey_frame u)) fun _ _ => ends_ok ⟨rfl, rfl⟩

theorem buildTree_sameAnswers (s : State) : (buildTree s).Ends (SameAnswers s) :=
  seq_sameAnswers (build_sameAnswers (s := { clearTree s with hp := [] }) (pushLeaves_frame ..)) fun _ t =>
    finishTree_sameAnswers t

theorem serializeTree_sameAnswers (s : State) : (serializeTree s).Ends (SameAnswers s) :=
  withTree_ends (.refl s) fun t _ _ => writer_sameAnswers (serialize_frame t s)

theorem deriveCodes_sameAnswers (s : State) : (deriveCodes s).Ends (SameAnswers s) :=
  withTree_ends (.refl s) fun _ _ _ => ends_ok ⟨rfl, rfl⟩

theorem deserializeTree_sameAnswers (s : State) : (deserializeTree s).Ends (SameAnswers s) :=
  ends_promote <|
    seq_sameAnswers (parse_sameAnswers (s := clearTree s) (deserialize_frame ..)) fun _ _ =>
      ends_ok ⟨rfl, rfl⟩

theorem decodeSymbols_sameAnswers (n : Word32) (s : State) : (decodeSymbols n s).Ends (SameAnswers s) := by
  refine ends_promote (withTree_ends (.refl s) fun t _ _ => ?_)
  unfold walkTree
  split
  · exact walk_sameAnswers (writeRepeated_frame _ _ s)
  · exact walk_sameAnswers (decodeLoop_frame _ _ s)

theorem compress_sameAnswers (s : State) : (compress s).Ends (SameAnswers s) :=
  seq_sameAnswers (loadInput_sameAnswers { s with wbuf := 0, wcnt := 0 }) fun _ s =>
  seq_sameAnswers (buildTree_sameAnswers s) fun _ s =>
  seq_sameAnswers (serializeTree_sameAnswers s) fun _ s =>
  seq_sameAnswers (writer_sameAnswers (putBits_frame _ s)) fun _ s =>
  seq_sameAnswers (deriveCodes_sameAnswers s) fun _ s =>
  seq_sameAnswers (writer_sameAnswers (emitCodes_frame _ s)) fun _ s =>
  seq_sameAnswers (writer_sameAnswers (closeWriter_frame s)) fun _ s => ends_ok (.refl s)

theorem decompress_sameAnswers (s : State) : (decompress s).Ends (SameAnswers s) :=
  ends_promote <|
    seq_sameAnswers (deserializeTree_sameAnswers { s with rbuf := 0, rcnt := 0 }) fun _ s =>
    seq_sameAnswers (reader_sameAnswers (getBits_frame 32 0 s)) fun n s =>
    seq_sameAnswers (decodeSymbols_sameAnswers n s) fun _ s => ends_ok (.refl s)

/-- Wherever the rule of a command ends, `ERR` and the responses are those it started with. -/
theorem ruleOf_sameAnswers (i : Instr) (s : State) : (ruleOf i s).Ends (SameAnswers s) := by
  cases i with
  | pqPush freq id => exact noResult_ends (build_sameAnswers (pushKey_frame _ s))
  | pqTop => exact topKey_ends (.refl s)
  | pqPop => exact noResult_ends (build_sameAnswers (popKey_frame s))
  | pqSize | sysReset | sysRdreg idx => exact ends_ok (.refl s)
  | bwPutbit bit => exact noResult_ends (writer_sameAnswers (putBit_frame bit s))
  | bwPutbyte b => exact noResult_ends (writer_sameAnswers (putBits_frame _ s))
  | bwPutint v => exact noResult_ends (writer_sameAnswers (putBits_frame _ s))
  | bwClose => exact noResult_ends (writer_sameAnswers (closeWriter_frame s))
  | brGetbit => exact answer_ends _ (reader_sameAnswers (getBit_frame s))
  | brGetbyte => exact answer_ends _ (reader_sameAnswers (getBits_frame 8 0 s))
  | brGetint => exact answer_ends _ (reader_sameAnswers (getBits_frame 32 0 s))
  | ftLoad => exact answer_ends _ (loadInput_sameAnswers s)
  | tbBuild => exact noResult_ends (buildTree_sameAnswers s)
  | tsSerialize => exact noResult_ends (serializeTree_sameAnswers s)
  | tdDeserialize => exact noResult_ends (deserializeTree_sameAnswers s)
  | ctDerive => exact noResult_ends (deriveCodes_sameAnswers s)
  | encEmit => exact noResult_ends (writer_sameAnswers (emitCodes_frame _ s))
  | encCompress => exact answer_ends _ (compress_sameAnswers s)
  | decWalk n => exact noResult_ends (decodeSymbols_sameAnswers n s)
  | decDecompress => exact answer_ends _ (decompress_sameAnswers s)

/-! ### Every command answers once -/

/-- The state `t` is reached from `s` with one more response word, which carries `ERR` as it stands in `t` and `v`. -/
def AnswersOnce (s t : State) (v : Value) : Prop := t.rsp = s.rsp ++ [responseWord t.err v]

/-- A command behind command entry answers once, with the value of its rule where it ends without an error, else with 0. -/
theorem command_answersOnce {body : State → Res Value} {s t : State} (hbody : (body s).Ends (SameAnswers s))
    (h : command body s = .next t) :
    ∃ v, AnswersOnce s t v ∧ (v ≠ 0 → t.err = none ∧ ∃ u, body s = .ok v u) := by
  rcases command_eq_next h with ⟨e, he, rfl⟩ | ⟨he, v, u, hb, rfl⟩ | ⟨he, e, u, hb, rfl⟩
  · exact ⟨0, rfl, fun h => absurd rfl h⟩
  · obtain ⟨herr, hrsp⟩ := hbody.1 v u hb
    refine ⟨v, ?_, fun _ => ⟨herr.trans he, u, hb⟩⟩
    rw [AnswersOnce, respond_rsp, respond_err, hrsp]
  · obtain ⟨-, hrsp⟩ := hbody.2 e u hb
    refine ⟨0, ?_, fun h => absurd rfl h⟩
    rw [AnswersOnce, takeError_rsp, takeError_err, hrsp]

theorem illegalWord_answersOnce {s t : State} (h : illegalWord s = .next t) : AnswersOnce s t 0 := by
  obtain ⟨v, hv, hval⟩ := command_answersOnce (ends_raised (.refl s)) h
  obtain rfl : v = 0 := by
    by_contra hne
    obtain ⟨-, u, hu⟩ := hval hne
    cases hu
  exact hv

/-- A rule without a result ends with the value 0 (R82). -/
theorem noResult_eq_ok {r : Res Unit} {v : Value} {t : State} (h : noResult r = .ok v t) : v = 0 := by
  obtain ⟨_, _, -, h⟩ := bind_eq_ok_iff.1 h
  cases h
  rfl

theorem ruleOf_value {i : Instr} (hi : hasResult i = false) {s t : State} {v : Value} (h : ruleOf i s = .ok v t) :
    v = 0 := by
  cases i with
  | pqTop | pqSize | brGetbit | brGetbyte | brGetint | ftLoad | encCompress | decDecompress | sysRdreg => cases hi
  | sysReset => cases h; rfl
  | _ => exact noResult_eq_ok h

/-- Every command answers once; the value is 0 for a command without a result, and for every command but SYS_RDREG when an
error stands afterwards. -/
theorem exec_answersOnce {i : Instr} {s t : State} (h : exec i s = .next t) :
    ∃ v, AnswersOnce s t v ∧ (hasResult i = false → v = 0) ∧ (t.err ≠ none → (∀ idx, i ≠ .sysRdreg idx) → v = 0) := by
  by_cases hi : isSystem i = false
  · rw [exec_eq_command hi] at h
    obtain ⟨v, hv, hval⟩ := command_answersOnce (ruleOf_sameAnswers i s) h
    refine ⟨v, hv, fun hres => ?_, fun herr _ => ?_⟩
    · by_contra hne
      obtain ⟨-, u, hu⟩ := hval hne
      exact hne (ruleOf_value hres hu)
    · by_contra hne
      exact herr (hval hne).1
  cases i with
  | sysReset =>
    obtain rfl : (resetBlock s).respond 0 = t := by injection h
    exact ⟨0, rfl, fun _ => rfl, fun _ _ => rfl⟩
  | sysRdreg idx =>
    cases hv : regMap s idx with
    | some v =>
      rw [exec_sysRdreg_some hv] at h
      obtain rfl : s.respond v = t := by injection h
      exact ⟨v, rfl, nofun, fun _ hne => absurd rfl (hne idx)⟩
    | none =>
      rw [exec_sysRdreg_none hv] at h
      exact ⟨0, illegalWord_answersOnce h, fun _ => rfl, fun _ _ => rfl⟩
  | _ => exact absurd rfl hi

/-- Settles O10: the one word command entry appends, taken apart field by field. -/
theorem everyCommandAnswersOnce : Obligations.EveryCommandAnswersOnce := by
  intro i s t h
  obtain ⟨v, hv, hres, herr⟩ := exec_answersOnce h
  obtain ⟨hcode, hzero, hvalue⟩ := responseWord_fields t.err v
  exact ⟨responseWord t.err v, v, hv, hcode, hzero, hvalue, hres, herr⟩

/-! ### Illegal words -/

/-- A word that decodes to no command is answered as illegal. -/
theorem step_of_decode_error {s : State} {cw : Word64} {rest : List HostEvent} {e : DecodeError}
    (hhost : s.host = .command cw :: rest) (hcw : decode cw = .error e) :
    step s = illegalWord { s with host := rest } := by
  simp only [step, hostStep, hhost, receive, hcw]

/-- Settles O7: command entry of an illegal word, by the two cases of `ERR`. -/
theorem illegalWordRaisesOrIsIgnored : Obligations.IllegalWordRaisesOrIsIgnored := by
  intro s cw rest e hhost hcw
  rw [step_of_decode_error hhost hcw, illegalWord_eq]
  cases he : s.err with
  | none => simp only [takeError, State.respond, responseWord_illegalOperation]
  | some k => simp only [State.respond]

end Sys2Proof.Machine
end

section
/-! SUPPORT. That every step keeps the capacity and the heap order of the queue (spec/10_state.md R26,
spec/41_priority_queue.md R110). -/

namespace Sys2Proof.Machine

/-! ### Pushes and pops, alone and in TB_BUILD -/

theorem heapOrdered_nil : HeapOrdered [] := fun _ hi => absurd hi (Nat.not_lt_zero _)

theorem queueInv_of_hp_nil {s : State} (h : s.hp = []) : QueueInv s := by
  rw [QueueInv, h]
  exact ⟨Nat.zero_le _, heapOrdered_nil⟩

theorem queueInv_congr {s t : State} (hhp : t.hp = s.hp) (h : QueueInv s) : QueueInv t := by
  simpa only [QueueInv, hhp] using h

/-- `Push` keeps the queue invariant, for it refuses a full queue (R111). -/
theorem pushKey_queueInv (k : Key) {s : State} (h : QueueInv s) : (pushKey k s).Ends QueueInv := by
  by_cases hfull : heapCap ≤ s.hp.length
  · rw [pushKey_full hfull]
    exact ends_raised h
  · rw [pushKey_room (Nat.lt_of_not_le hfull)]
    refine ends_ok ⟨?_, heapPush_ordered k h.2⟩
    rw [length_heapPush]
    omega

/-- `Pop` keeps the queue invariant (R113). -/
theorem popKey_queueInv {s : State} (h : QueueInv s) : (popKey s).Ends QueueInv := by
  obtain ⟨hcap, hord⟩ := h
  cases hhp : s.hp with
  | nil =>
    rw [popKey_nil hhp]
    exact ends_raised ⟨hcap, hord⟩
  | cons k rest =>
    rw [popKey_cons hhp]
    rw [hhp] at hcap hord
    refine ends_ok ⟨?_, heapPop_ordered hord⟩
    rw [length_heapPop]
    exact (Nat.le_succ _).trans hcap

/-- Two parts that keep the queue invariant make a sequence that does. -/
theorem seq_queueInv {α β : Type} {r : Res α} {f : α → State → Res β} (hr : r.Ends QueueInv)
    (hf : ∀ a s, QueueInv s → (f a s).Ends QueueInv) : (r.bind f).Ends QueueInv :=
  ends_bind hr (fun _ h => h) hf

theorem pushLeaves_queueInv (syms : List Nat) {s : State} (h : QueueInv s) : (pushLeaves syms s).Ends QueueInv := by
  induction syms generalizing s with
  | nil => exact ends_ok h
  | cons sym syms ih =>
    simp only [pushLeaves]
    split
    · exact ih h
    · exact seq_queueInv (pushKey_queueInv _ h) fun _ _ => ih

theorem mergeOnce_queueInv {s : State} (h : QueueInv s) : (mergeOnce s).Ends QueueInv :=
  seq_queueInv (topKey_ends h) fun _ _ h =>
  seq_queueInv (popKey_queueInv h) fun _ _ h =>
  seq_queueInv (topKey_ends h) fun _ _ h =>
  seq_queueInv (popKey_queueInv h) fun _ _ h => pushKey_queueInv _ h

theorem mergeLoop_queueInv (fuel : Nat) {s : State} (h : QueueInv s) : (mergeLoop fuel s).Ends QueueInv := by
  induction fuel generalizing s with
  | zero => exact ends_ok h
  | succ fuel ih =>
    unfold mergeLoop
    split
    · exact ends_ok h
    · exact seq_queueInv (mergeOnce_queueInv h) fun _ _ => ih

theorem finishTree_queueInv {s : State} (h : QueueInv s) : (finishTree s).Ends QueueInv := by
  unfold finishTree
  split
  · exact ends_ok h
  · exact
      seq_queueInv (mergeLoop_queueInv _ h) fun _ _ h =>
      seq_queueInv (topKey_ends h) fun _ _ h =>
      seq_queueInv (popKey_queueInv h) fun _ _ h => ends_ok h

/-- `TbBuild` empties the queue first, so it needs nothing of the queue it finds (R172). -/
theorem buildTree_queueInv (s : State) : (buildTree s).Ends QueueInv :=
  seq_queueInv (pushLeaves_queueInv _ (s := { clearTree s with hp := [] }) (queueInv_of_hp_nil rfl)) fun _ _ =>
    finishTree_queueInv

/-! ### Every rule and every step -/

/-- The commands that write the queue (R26, R31). -/
def writesQueue : Instr → Bool
  | .pqPush _ _ | .pqPop | .tbBuild | .encCompress | .sysReset => true
  | _ => false

/-- A command that does not write the queue keeps the queue invariant by its frame. -/
theorem queueInv_of_frame {i : Instr} (hi : writesQueue i = false) {s t : State} (hf : Frame i s t) (h : QueueInv s) :
    QueueInv t := by
  cases i with
  | pqPush | pqPop | tbBuild | encCompress | sysReset => cases hi
  | _ =>
    unfold Frame at hf
    exact queueInv_congr (by rw [hf]) h

/-- Every rule keeps the queue invariant: the four that write the queue by pushes and pops, every other by its frame. -/
theorem ruleOf_keeps_queueInv {i : Instr} {s : State} (hi : isSystem i = false) (h : QueueInv s) :
    (ruleOf i s).Ends QueueInv := by
  by_cases hw : writesQueue i = false
  · exact ends_mono (ruleOf_frame hi s) fun _ ht => queueInv_of_frame hw ht h
  cases i with
  | pqPush freq id => exact noResult_ends (pushKey_queueInv _ h)
  | pqPop => exact noResult_ends (popKey_queueInv h)
  | tbBuild => exact noResult_ends (buildTree_queueInv s)
  | encCompress =>
    exact answer_ends _ (compress_keeps
      (fun s hs => ends_mono (loadInput_frame s) fun _ ht => queueInv_of_frame rfl ht hs)
      (fun s _ => buildTree_queueInv s)
      (fun s hs => ends_mono (deriveCodes_frame s) fun _ ht => queueInv_of_frame rfl ht hs)
      (fun _ _ ht hs => queueInv_of_frame rfl ht hs) h)
  | sysReset => cases hi
  | _ => exact absurd rfl hw

/-- Settles O53: a push into a queue with room and a pop keep the heap order, TB_BUILD is made of pushes and pops on a queue
it has emptied, and no other rule writes the queue. -/
theorem stepKeepsTheHeapProperty : Obligations.StepKeepsTheHeapProperty := by
  intro s t hs h
  refine step_keeps (P := QueueInv) (fun s t hb hs => ?_) (fun s _ => queueInv_of_hp_nil (resetBlock_hp s))
    (fun _ _ => ruleOf_keeps_queueInv) hs h
  unfold SameBlock at hb
  exact queueInv_congr (by rw [hb]) hs

end Sys2Proof.Machine
end

section
/-! SUPPORT. The queue commands (spec/41_priority_queue.md R111 to R114), and that under them the heap refines an ascending
list (R115). -/

namespace Sys2Proof.Machine

/-! ### The four commands -/

/-- Without an error and a result the response word is 0 (R82). -/
theorem responseWord_none_zero : responseWord none 0 = 0 := by decide

section Commands

variable {s t : State} (herr : s.err = none)
include herr

/-- A command whose rule ends with a value (R82, R86). -/
theorem exec_of_rule_ok {i : Instr} {v : Value} (hi : isSystem i = false) (h : ruleOf i s = .ok v t) :
    exec i s = .next (t.respond v) := by
  rw [exec_eq_command hi, command_ok herr h]

/-- A command whose rule ends at a `raise` (R86, R252). -/
theorem exec_of_rule_raised {i : Instr} {e : ErrorKind} (hi : isSystem i = false) (h : ruleOf i s = .raised e t) :
    exec i s = .next (takeError e t) := by
  rw [exec_eq_command hi, command_raised herr h]

theorem exec_pqPush_room (freq : Word32) (id : NodeId) (h : s.hp.length < heapCap) :
    exec (.pqPush freq id) s = .next { s with hp := heapPush (mkKey freq id) s.hp, rsp := s.rsp ++ [0] } := by
  rw [exec_of_rule_ok herr rfl (by rw [ruleOf, pushKey_room h, noResult_ok]), State.respond, herr, responseWord_none_zero]

theorem exec_pqPush_full (freq : Word32) (id : NodeId) (h : heapCap ≤ s.hp.length) :
    exec (.pqPush freq id) s = .next (takeError .illegalOperation s) :=
  exec_of_rule_raised herr rfl (by rw [ruleOf, pushKey_full h, noResult_raised])

theorem exec_pqPop_cons {k : Key} {rest : List Key} (h : s.hp = k :: rest) :
    exec .pqPop s = .next { s with hp := heapPop (k :: rest), rsp := s.rsp ++ [0] } := by
  rw [exec_of_rule_ok herr rfl (by rw [ruleOf, popKey_cons h, noResult_ok]), State.respond, herr, responseWord_none_zero]

theorem exec_pqPop_nil (h : s.hp = []) : exec .pqPop s = .next (takeError .underflow s) :=
  exec_of_rule_raised herr rfl (by rw [ruleOf, popKey_nil h, noResult_raised])

theorem exec_pqTop_cons {k : Key} {rest : List Key} (h : s.hp = k :: rest) : exec .pqTop s = .next (s.respond k) :=
  exec_of_rule_ok herr rfl (topKey_cons h)

theorem exec_pqTop_nil (h : s.hp = []) : exec .pqTop s = .next (takeError .underflow s) :=
  exec_of_rule_raised herr rfl (topKey_nil h)

theorem exec_pqSize : exec .pqSize s = .next (s.respond (s.hsize.setWidth 41)) := exec_of_rule_ok herr rfl rfl

end Commands

/-- Settles O17: the two cases of `Push`, with the heap laws of a push. -/
theorem pushAddsTheKey : Obligations.PushAddsTheKey := fun freq id s herr =>
  ⟨fun hroom => ⟨_, exec_pqPush_room herr freq id hroom, heapPush_perm _ s.hp, heapPush_ordered _⟩,
    exec_pqPush_full herr freq id⟩

/-- Settles O19: the two cases of `Pop`, with the heap laws of a pop. -/
theorem popRemovesTheRoot : Obligations.PopRemovesTheRoot := fun _ herr =>
  ⟨fun k rest hhp => ⟨_, exec_pqPop_cons herr hhp, hhp ▸ heapPop_perm k rest, fun hord => heapPop_ordered (hhp ▸ hord)⟩,
    exec_pqPop_nil herr⟩

/-- Settles O18: the two cases of `Top`. -/
theorem topReturnsTheRoot : Obligations.TopReturnsTheRoot := by
  refine ⟨decode_eq_ok_iff.2 ⟨rfl, rfl⟩, fun s herr => ⟨fun k rest hhp => ?_, exec_pqTop_nil herr⟩⟩
  rw [exec_pqTop_cons herr hhp, State.respond, herr]

/-- Settles O20: `Size` answers `HSIZE`, which is the number of elements of a queue that fits. -/
theorem sizeReturnsTheCount : Obligations.SizeReturnsTheCount := by
  refine ⟨decode_eq_ok_iff.2 ⟨rfl, rfl⟩, fun s herr => ⟨?_, fun hcap => ?_⟩⟩
  · rw [exec_pqSize herr, State.respond, herr]
  · rw [exec_pqSize herr, State.respond, herr, hsize_setWidth hcap]

/-! ### The heap and the ascending list (R115) -/

theorem insertKey_eq_orderedInsert (k : Key) (q : List Key) : insertKey k q = q.orderedInsert (· ≤ ·) k := by
  induction q with
  | nil => rfl
  | cons x q ih => rw [insertKey, List.orderedInsert, ih]

theorem insertKey_perm (k : Key) (q : List Key) : (insertKey k q).Perm (k :: q) := by
  rw [insertKey_eq_orderedInsert]
  exact List.perm_orderedInsert _ k q

theorem insertKey_ascending (k : Key) {q : List Key} (h : q.Pairwise (· ≤ ·)) : (insertKey k q).Pairwise (· ≤ ·) := by
  rw [insertKey_eq_orderedInsert]
  exact h.orderedInsert k q

/-- The heap `hp` holds the keys of the ascending list `q`. -/
def RefinesList (hp q : List Key) : Prop := HeapOrdered hp ∧ hp.Perm q ∧ q.Pairwise (· ≤ ·)

/-- The root of the heap is the head of the list: each is a minimum of the same keys. -/
theorem RefinesList.head_eq {k x : Key} {rest q : List Key} (h : RefinesList (k :: rest) (x :: q)) : k = x := by
  obtain ⟨hord, hperm, hasc⟩ := h
  refine BitVec.le_antisymm (heap_head_le hord x (hperm.mem_iff.2 List.mem_cons_self)) ?_
  rcases List.mem_cons.1 (hperm.mem_iff.1 List.mem_cons_self) with rfl | hk
  · exact key_le_refl _
  · exact List.rel_of_pairwise_cons hasc hk

theorem RefinesList.head? {hp q : List Key} (h : RefinesList hp q) : hp.head? = q.head? := by
  cases hp with
  | nil => rw [h.2.1.nil_eq]
  | cons k rest =>
    cases q with
    | nil => exact absurd h.2.1.eq_nil (List.cons_ne_nil k rest)
    | cons x q => exact congrArg some h.head_eq

theorem RefinesList.push (k : Key) {hp q : List Key} (h : RefinesList hp q) :
    RefinesList (heapPush k hp) (insertKey k q) := by
  obtain ⟨hord, hperm, hasc⟩ := h
  refine ⟨heapPush_ordered k hord, ?_, insertKey_ascending k hasc⟩
  calc (heapPush k hp).Perm (k :: hp) := heapPush_perm k hp
    (k :: hp).Perm (k :: q) := hperm.cons k
    (k :: q).Perm (insertKey k q) := (insertKey_perm k q).symm

theorem RefinesList.pop {k : Key} {rest q : List Key} (h : RefinesList (k :: rest) q) :
    RefinesList (heapPop (k :: rest)) q.tail := by
  cases q with
  | nil => exact absurd h.2.1.eq_nil (List.cons_ne_nil k rest)
  | cons x q =>
    obtain rfl := h.head_eq
    obtain ⟨hord, hperm, hasc⟩ := h
    exact ⟨heapPop_ordered hord, ((heapPop_perm k rest).trans hperm).cons_inv, hasc.of_cons⟩

/-! ### Runs of pushes and pops -/

theorem execAll_cons_eq_next {i : Instr} {is : List Instr} {s t : State} (h : execAll (i :: is) s = .next t) :
    ∃ u, exec i s = .next u ∧ execAll is u = .next t := by
  rw [execAll] at h
  split at h
  case h_1 u hu => exact ⟨u, hu, h⟩
  all_goals cases h

theorem isSystem_of_isPushPop {i : Instr} (hi : isPushPop i = true) : isSystem i = false := by
  cases i with
  | sysReset | sysRdreg => cases hi
  | _ => rfl

/-- Pushes and pops leave a standing error as it is (R86, R254). -/
theorem execAll_keeps_error {is : List Instr} (his : ∀ i ∈ is, isPushPop i = true) {s t : State} {e : ErrorKind}
    (herr : s.err = some e) (h : execAll is s = .next t) : t.err = some e := by
  induction is generalizing s with
  | nil =>
    cases h
    exact herr
  | cons i is ih =>
    obtain ⟨hi, his⟩ := List.forall_mem_cons.1 his
    obtain ⟨u, hu, h⟩ := execAll_cons_eq_next h
    rw [exec_eq_command (isSystem_of_isPushPop hi), command_ignored herr] at hu
    cases hu
    exact ih his (s := s.respond 0) herr h

/-- A push or a pop that does not raise does to the heap what it does to the list, and a push adds one element where a pop
takes one away (R115). -/
theorem exec_refines {i : Instr} (hi : isPushPop i = true) {s t : State} {q : List Key} (herr : s.err = none)
    (hq : RefinesList s.hp q) (h : exec i s = .next t) (ht : t.err = none) :
    RefinesList t.hp (queueSpec [i] q) ∧
      t.hp.length + [i].countP (· == .pqPop) = s.hp.length + [i].countP (· != .pqPop) := by
  cases i with
  | pqPush freq id =>
    by_cases hroom : s.hp.length < heapCap
    · rw [exec_pqPush_room herr freq id hroom] at h
      cases h
      exact ⟨hq.push _, length_heapPush _ s.hp⟩
    · rw [exec_pqPush_full herr freq id (Nat.le_of_not_lt hroom)] at h
      cases h
      cases ht
  | pqPop =>
    cases hhp : s.hp with
    | cons k rest =>
      rw [exec_pqPop_cons herr hhp] at h
      cases h
      rw [hhp] at hq
      exact ⟨hq.pop, congrArg (· + 1) (length_heapPop k rest)⟩
    | nil =>
      rw [exec_pqPop_nil herr hhp] at h
      cases h
      cases ht
  | _ => cases hi

theorem queueSpec_cons (i : Instr) (is : List Instr) (q : List Key) :
    queueSpec (i :: is) q = queueSpec is (queueSpec [i] q) := by
  cases i <;> rfl

/-- The step of `exec_refines`, along a run that leaves no error (R115). -/
theorem execAll_refines {is : List Instr} (his : ∀ i ∈ is, isPushPop i = true) {s t : State} {q : List Key}
    (herr : s.err = none) (hq : RefinesList s.hp q) (h : execAll is s = .next t) (ht : t.err = none) :
    RefinesList t.hp (queueSpec is q) ∧
      t.hp.length + is.countP (· == .pqPop) = s.hp.length + is.countP (· != .pqPop) := by
  induction is generalizing s q with
  | nil =>
    cases h
    exact ⟨hq, rfl⟩
  | cons i is ih =>
    obtain ⟨hi, his⟩ := List.forall_mem_cons.1 his
    obtain ⟨u, hu, h⟩ := execAll_cons_eq_next h
    cases huerr : u.err with
    | some e => exact absurd ((execAll_keeps_error his huerr h).symm.trans ht) (Option.some_ne_none e)
    | none =>
      obtain ⟨hq, hlen⟩ := exec_refines hi herr hq hu huerr
      obtain ⟨hq, hlen'⟩ := ih his huerr hq h
      refine ⟨queueSpec_cons i is q ▸ hq, ?_⟩
      rw [← List.singleton_append, List.countP_append, List.countP_append]
      omega

/-- Settles O21: the refinement goes through every push and pop, and both heads are minima of the same keys. -/
theorem queueRefinesAnAscendingList : Obligations.QueueRefinesAnAscendingList := by
  intro is s t q his herr hord hperm hasc h ht
  obtain ⟨hq, hlen⟩ := execAll_refines his herr ⟨hord, hperm, hasc⟩ h ht
  exact ⟨hq.1, hq.2.1, hq.2.2, hq.head?, hlen⟩

end Sys2Proof.Machine
end

section
/-! SUPPORT. The bit writer's commands (spec/42_bit_writer.md R131 to R134), and that a run of them closed by BW_CLOSE
appends the bits written and the zero padding (R135). -/

namespace Sys2Proof.Machine

/-! ### Bits and bytes -/

/-- Bits held in range are their value (R130). -/
theorem lowBits_injective {n : Nat} {v w : Byte} (hv : v.toNat < 2 ^ n) (hw : w.toNat < 2 ^ n)
    (h : lowBits n v = lowBits n w) : v = w := by
  apply BitVec.eq_of_getLsbD_eq
  intro i _
  by_cases hi : i < n
  · have hbit := List.getElem_of_eq h (i := n - 1 - i) (by simp; omega)
    simpa [lowBits, show n - 1 - (n - 1 - i) = i by omega] using hbit
  · have hpow : 2 ^ n ≤ 2 ^ i := Nat.pow_le_pow_right (by omega) (by omega)
    rw [BitVec.getLsbD, BitVec.getLsbD, Nat.testBit_lt_two_pow (by omega), Nat.testBit_lt_two_pow (by omega)]

theorem bitsMsb_injective {v w : Byte} (h : bitsMsb v = bitsMsb w) : v = w :=
  lowBits_injective v.isLt w.isLt (by rwa [bitsMsb_eq_lowBits, bitsMsb_eq_lowBits] at h)

theorem bitsOfBytes_injective {as bs : List Byte} (h : bitsOfBytes as = bitsOfBytes bs) : as = bs := by
  induction as generalizing bs with
  | nil =>
    cases bs with
    | nil => rfl
    | cons b bs => cases h
  | cons a as ih =>
    cases bs with
    | nil => cases h
    | cons b bs =>
      obtain ⟨hhead, htail⟩ := List.append_inj h (by simp)
      rw [bitsMsb_injective hhead, ih htail]

/-- A byte across the buffer: the bits held and the high bits of `b` make the byte emitted, the low bits of `b` stay
(R132). -/
theorem bits_across_buffer {c : Nat} (hc : c ≤ 7) (v b : Byte) :
    bitsMsb ((v <<< (8 - c)) ||| (b >>> c)) ++ lowBits c (BitVec.ofNat 8 (b.toNat % 2 ^ c)) =
      lowBits c v ++ bitsMsb b := by
  rw [bitsMsb_eq_lowBits, bitsMsb_eq_lowBits]
  apply List.ext_getElem (by simp; omega)
  intro i h _
  simp only [List.length_append, length_lowBits] at h
  simp only [List.getElem_append, lowBits, List.getElem_map, List.getElem_range, List.length_map, List.length_range,
    BitVec.getLsbD_or, BitVec.getLsbD_shiftLeft, BitVec.getLsbD_ushiftRight, BitVec.getLsbD_ofNat,
    Nat.testBit_mod_two_pow]
  rcases Nat.lt_or_ge i c with hic | hic
  · have hb : b.getLsbD (c + (8 - 1 - i)) = false := BitVec.getLsbD_of_ge b _ (by omega)
    simp [hic, hb, show i < 8 by omega, show 8 - 1 - i - (8 - c) = c - 1 - i by omega, show 7 - i < 8 by omega,
      show 8 - c ≤ 7 - i by omega]
  rcases Nat.lt_or_ge i 8 with hi8 | hi8
  · simp [Nat.not_lt.2 hic, hi8, show 8 - 1 - i < 8 - c by omega,
      show 8 - 1 - (i - c) = c + (8 - 1 - i) by omega]
  · simp [Nat.not_lt.2 hic, Nat.not_lt.2 hi8, BitVec.getLsbD, show c - 1 - (i - 8) < c by omega,
      show c - 1 - (i - 8) < 8 by omega, show 8 - 1 - (i - c) = c - 1 - (i - 8) by omega]

theorem bitsMsb_append {m n : Nat} (u : BitVec m) (v : BitVec n) : bitsMsb (u ++ v) = bitsMsb u ++ bitsMsb v := by
  rw [bitsMsb, List.range_add, List.map_append, List.map_map]
  refine congrArg₂ (· ++ ·) (List.map_congr_left fun i hi => ?_) (List.map_congr_left fun i _ => ?_)
  · rw [BitVec.getMsbD_append, if_neg (Nat.not_le.2 (List.mem_range.1 hi))]
  · rw [Function.comp_apply, BitVec.getMsbD_append, if_pos (Nat.le_add_right m i), Nat.add_sub_cancel_left]

/-- The bytes of a word, highest first, carry its bits (R63). -/
theorem bitsOfBytes_word (v : Word32) :
    bitsOfBytes [v.extractLsb' 24 8, v.extractLsb' 16 8, v.extractLsb' 8 8, v.extractLsb' 0 8] = bitsMsb v := by
  have hv : v.extractLsb' 24 8 ++ (v.extractLsb' 16 8 ++ (v.extractLsb' 8 8 ++ v.extractLsb' 0 8)) = v := by
    rw [BitVec.extractLsb'_append_extractLsb'_eq_extractLsb' (by rfl),
      BitVec.extractLsb'_append_extractLsb'_eq_extractLsb' (by rfl),
      BitVec.extractLsb'_append_extractLsb'_eq_extractLsb' (by rfl), BitVec.extractLsb'_eq_self]
  conv_rhs => rw [← hv]
  simp only [bitsMsb_append, bitsOfBytes_cons, bitsOfBytes_nil, List.append_nil]

theorem length_written (s : State) : (written s).length = 8 * s.snk.length + s.wcnt.toNat := by
  simp [written]

theorem padding_congr {m n : Nat} (h : m % 8 = n % 8) : padding m = padding n := by
  rw [padding, padding, h]

theorem length_padding (n : Nat) : (padding n).length = (8 - n % 8) % 8 := List.length_replicate

/-! ### One bit, whole bytes, the close -/

/-- Fewer than seven bits held: the bit is shifted in (R131). -/
theorem putBit_of_ne_seven (b : Bool) {s : State} (h : s.wcnt ≠ 7) :
    putBit b s = .ok () { s with wbuf := shiftIn s.wbuf b, wcnt := s.wcnt + 1 } := by
  have h8 : s.wcnt + 1 ≠ 8 := fun h8 => h (by bv_omega)
  exact if_neg h8

/-- The eighth bit: the byte is written from `WBUF`, and the buffer is cleared once it is (R131). -/
theorem putBit_of_eq_seven (b : Bool) {s : State} (h : s.wcnt = 7) :
    putBit b s =
      (snkWrite (shiftIn s.wbuf b) { s with wbuf := shiftIn s.wbuf b, wcnt := 8 }).bind fun _ u =>
        .ok () { u with wbuf := 0, wcnt := 0 } := by
  have h8 : s.wcnt + 1 = 8 := by rw [h]; rfl
  simp only [putBit, h8, if_true]

theorem closeWriter_of_eq_zero {s : State} (h : s.wcnt = 0) : closeWriter s = .ok () s := if_pos h

theorem closeWriter_of_ne_zero {s : State} (h : s.wcnt ≠ 0) :
    closeWriter s =
      (snkWrite (s.wbuf <<< (8 - s.wcnt.toNat)) s).bind fun _ t => .ok () { t with wbuf := 0, wcnt := 0 } := if_neg h

theorem putBits_singleton (b : Bool) (s : State) : putBits [b] s = putBit b s := by
  cases h : putBit b s <;> simp [putBits, h]

/-- Whole bytes' worth of bits leave `WCNT` as it was and append as many bytes (R132, R133). -/
theorem putBits_whole_bytes {k : Nat} {bits : List Bool} (hk : bits.length = 8 * k) {s : State} (hio : s.io = [])
    (hw : WriterOk s) :
    ∃ (wbuf : Byte) (bytes : List Byte),
      putBits bits s = .ok () { s with wbuf := wbuf, snk := s.snk ++ bytes } ∧
      bytes.length = k ∧ wbuf.toNat < 2 ^ s.wcnt.toNat ∧
      bitsOfBytes bytes ++ lowBits s.wcnt.toNat wbuf = lowBits s.wcnt.toNat s.wbuf ++ bits := by
  obtain ⟨wbuf, wcnt, bytes, hput, ⟨hcnt, hbuf⟩, hbits⟩ := putBits_written bits hio hw
  have hlen := congrArg List.length hbits
  simp only [length_written, List.length_append, hk] at hlen
  obtain rfl : wcnt = s.wcnt := by
    have hcnt' : s.wcnt.toNat ≤ 7 := hw.1
    dsimp only at hcnt hlen
    exact BitVec.eq_of_toNat_eq (by omega)
  refine ⟨wbuf, bytes, hput, by omega, hbuf, ?_⟩
  simpa [written] using hbits

/-! ### The four commands -/

/-- A command without a result whose rule goes through answers 0 (R82, R86). -/
theorem exec_of_unit_rule {i : Instr} (hi : isSystem i = false) {s t : State} (herr : s.err = none) {r : Res Unit}
    (hrule : ruleOf i s = noResult r) (hr : r = .ok () t) (ht : t.err = none) :
    exec i s = .next { t with rsp := t.rsp ++ [0] } := by
  rw [exec_of_rule_ok herr hi (hrule.trans (by rw [hr, noResult_ok])), State.respond, ht, responseWord_none_zero]

/-- Settles O22: the two cases of `PutBit`. -/
theorem putBitResult : Obligations.PutBitResult := by
  refine ⟨fun bit => decode_eq_ok_iff.2 ⟨rfl, rfl⟩, fun bit s herr hio => ⟨fun h => ?_, fun h => ?_⟩⟩
  · exact exec_of_unit_rule rfl herr rfl (putBit_of_ne_seven bit h) herr
  · refine exec_of_unit_rule (t := { s with wbuf := 0, wcnt := 0, snk := s.snk ++ [shiftIn s.wbuf bit] }) rfl herr rfl ?_
      herr
    rw [putBit_of_eq_seven bit h, snkWrite_never _ (by exact hio), bind_ok]

/-- Settles O25: the two cases of `Close`. -/
theorem closeResult : Obligations.CloseResult := by
  refine ⟨decode_eq_ok_iff.2 ⟨rfl, rfl⟩, fun s herr hio => ⟨fun h => ?_, fun h => ?_⟩⟩
  · exact exec_of_unit_rule rfl herr rfl (closeWriter_of_eq_zero h) herr
  · refine exec_of_unit_rule
      (t := { s with snk := s.snk ++ [s.wbuf <<< (8 - s.wcnt.toNat)], wbuf := 0, wcnt := 0 }) rfl herr rfl ?_ herr
    rw [closeWriter_of_ne_zero h, snkWrite_never _ hio, bind_ok]

/-- Settles O23: the byte and the bits kept are those that carry the bits held followed by the bits of `b`. -/
theorem putByteResult : Obligations.PutByteResult := by
  refine ⟨fun b => decode_eq_ok_iff.2 ⟨rfl, rfl⟩, fun b s herr hio hw => ?_⟩
  obtain ⟨wbuf, bytes, hput, hlen, hbuf, hbits⟩ := putBits_whole_bytes (k := 1) (length_bitsMsb b) hio hw
  obtain ⟨x, rfl⟩ := List.length_eq_one_iff.1 hlen
  rw [bitsOfBytes_cons, bitsOfBytes_nil, List.append_nil, ← bits_across_buffer hw.1 s.wbuf b] at hbits
  obtain ⟨hx, hrest⟩ := List.append_inj hbits (by simp)
  have hmod : b.toNat % 2 ^ s.wcnt.toNat < 2 ^ s.wcnt.toNat := Nat.mod_lt _ (Nat.two_pow_pos _)
  rw [bitsMsb_injective hx, lowBits_injective hbuf ((Nat.mod_le _ _).trans_lt hmod) hrest] at hput
  exact exec_of_unit_rule rfl herr rfl hput herr

/-- Settles O24: 32 bits are four whole bytes, and from an empty buffer the bytes are those that carry the bits of `v`. -/
theorem putIntResult : Obligations.PutIntResult := by
  refine ⟨fun v => decode_eq_ok_iff.2 ⟨rfl, rfl⟩, fun v s herr hio hw => ?_⟩
  obtain ⟨wbuf, bytes, hput, hlen, hbuf, hbits⟩ := putBits_whole_bytes (k := 4) (length_bitsMsb v) hio hw
  refine ⟨bytes, wbuf, exec_of_unit_rule rfl herr rfl hput herr, hlen, hbuf, ?_, fun h0 => ⟨?_, ?_⟩⟩
  · rw [written, written, bitsOfBytes_append, List.append_assoc, hbits, List.append_assoc, bitsMsb]
  · apply bitsOfBytes_injective
    rw [bitsOfBytes_word]
    simpa [h0] using hbits
  · apply BitVec.eq_of_toNat_eq
    simpa [h0] using hbuf

/-! ### Closed runs (R135) -/

/-- A command that writes bits puts exactly those (R131 to R133). -/
theorem ruleOf_of_putBitsOf {i : Instr} {bits : List Bool} (h : putBitsOf i = some bits) :
    isSystem i = false ∧ ∀ s, ruleOf i s = noResult (putBits bits s) := by
  cases i with
  | bwPutbit b =>
    cases h
    exact ⟨rfl, fun s => by rw [putBits_singleton]; rfl⟩
  | bwPutbyte | bwPutint =>
    cases h
    exact ⟨rfl, fun _ => rfl⟩
  | _ => cases h

/-- The bits a list of commands writes. -/
def bitsOfRun (is : List Instr) : List Bool := is.flatMap fun i => (putBitsOf i).getD []

/-- A run of writes closed: the sink holds the bits written before, those of the run, and the zero bits that complete them to
whole bytes (R135). -/
theorem execAll_writes_close {is : List Instr} (his : ∀ i ∈ is, (putBitsOf i).isSome) {s : State}
    (herr : s.err = none) (hio : s.io = []) (hw : WriterOk s) :
    ∃ (bytes : List Byte) (rsp : List Word64),
      execAll (is ++ [.bwClose]) s = .next { s with wbuf := 0, wcnt := 0, snk := s.snk ++ bytes, rsp := rsp } ∧
      bitsOfBytes (s.snk ++ bytes) = written s ++ bitsOfRun is ++ padding (written s ++ bitsOfRun is).length := by
  induction is generalizing s with
  | nil =>
    obtain ⟨bytes, hclose, hbits⟩ := closeWriter_written hio hw
    have hexec := exec_of_unit_rule (i := .bwClose) rfl herr rfl hclose herr
    refine ⟨bytes, _, by rw [List.nil_append, execAll, hexec]; rfl, ?_⟩
    have hpad : padding s.wcnt.toNat = padding (written s).length :=
      padding_congr (by rw [length_written]; omega)
    simpa [bitsOfRun, hpad] using hbits
  | cons i is ih =>
    obtain ⟨hi, his⟩ := List.forall_mem_cons.1 his
    obtain ⟨bits, hbits⟩ := Option.isSome_iff_exists.1 hi
    obtain ⟨hsys, hrule⟩ := ruleOf_of_putBitsOf hbits
    obtain ⟨wbuf, wcnt, bytes, hput, hw, hgrow⟩ := putBits_written bits hio hw
    have hexec := exec_of_unit_rule hsys herr (hrule s) hput herr
    obtain ⟨bytes', rsp, hrun, hstream⟩ := ih his
      (s := { s with wbuf := wbuf, wcnt := wcnt, snk := s.snk ++ bytes, rsp := s.rsp ++ [0] }) herr hio hw
    refine ⟨bytes ++ bytes', rsp, ?_, ?_⟩
    · rw [List.cons_append, execAll, hexec]
      simpa using hrun
    · have hcons : bitsOfRun (i :: is) = bits ++ bitsOfRun is := by simp [bitsOfRun, hbits]
      rw [hcons, ← List.append_assoc, ← List.append_assoc, ← hgrow]
      exact hstream

/-- Settles O26: from an empty buffer the bytes appended are the bits of the run and their padding. -/
theorem writerStreamLaw : Obligations.WriterStreamLaw := by
  intro is s his herr hio hcnt hbuf
  have hw : WriterOk s := by rw [WriterOk, hcnt, hbuf]; decide
  obtain ⟨bytes, rsp, hrun, hstream⟩ := execAll_writes_close his herr hio hw
  have hstart : written s = bitsOfBytes s.snk := by simp [written, hcnt]
  have hpad : padding (bitsOfBytes s.snk ++ bitsOfRun is).length = padding (bitsOfRun is).length :=
    padding_congr (by simp)
  rw [hstart, hpad, bitsOfBytes_append, List.append_assoc] at hstream
  have hbits := List.append_cancel_left hstream
  refine ⟨bytes, rsp, ?_, ?_, hbits⟩
  · rw [hrun, ← hcnt, ← hbuf]
  · have hlen := congrArg List.length hbits
    rw [length_bitsOfBytes, List.length_append, length_padding] at hlen
    exact (show bytes.length = ((bitsOfRun is).length + 7) / 8 by omega)

end Sys2Proof.Machine
end

section
/-! SUPPORT. That every step keeps the bit buffers in range (spec/42_bit_writer.md R130, spec/43_bit_reader.md R150), with
what one step can do where what it keeps depends on the error it takes (spec/60_exceptions.md R252). -/

namespace Sys2Proof.Machine

/-! ### What a step can do, with the error it leaves -/

/-- Everything a command can do: answer, reset, be illegal, or be performed behind command entry. -/
theorem exec_cases {i : Instr} {s u : State} (h : exec i s = .next u) :
    (∃ v, u = s.respond v) ∨ u = (resetBlock s).respond 0 ∨ illegalWord s = .next u ∨
      (isSystem i = false ∧ command (ruleOf i) s = .next u) := by
  by_cases hi : isSystem i = false
  · exact .inr (.inr (.inr ⟨hi, exec_eq_command hi s ▸ h⟩))
  cases i with
  | sysReset => exact .inr (.inl (by injection h with h; exact h.symm))
  | sysRdreg idx =>
    cases hv : regMap s idx with
    | some v => exact .inl ⟨v, by rw [exec_sysRdreg_some hv] at h; injection h with h; exact h.symm⟩
    | none => exact .inr (.inr (.inl (exec_sysRdreg_none hv ▸ h)))
  | _ => exact absurd rfl hi

/-- Everything a step can do: leave the block and `ERR` alone, reset the block, meet an illegal word, or perform the rule of
a command; the last two in a state that differs in the host's plans alone. -/
theorem step_cases {s u : State} (h : step s = .next u) :
    (SameBlock s u ∧ u.err = s.err) ∨ (SameBlock (resetBlock s) u ∧ u.err = none) ∨
      ∃ rest, illegalWord { s with host := rest } = .next u ∨
        ∃ i, isSystem i = false ∧ command (ruleOf i) { s with host := rest } = .next u := by
  unfold step hostStep at h
  split at h
  case h_1 => cases h; exact .inl ⟨rfl, rfl⟩
  case h_2 cw rest _ =>
    unfold receive at h
    split at h
    · rcases exec_cases h with ⟨v, rfl⟩ | rfl | h | ⟨hi, h⟩
      · exact .inl ⟨rfl, rfl⟩
      · exact .inr (.inl ⟨rfl, rfl⟩)
      · exact .inr (.inr ⟨rest, .inl h⟩)
      · exact .inr (.inr ⟨rest, .inr ⟨_, hi, h⟩⟩)
    · exact .inr (.inr ⟨rest, .inl h⟩)
  case h_3 => cases h; exact .inl ⟨rfl, rfl⟩
  case h_4 => cases h; exact .inl ⟨rfl, rfl⟩
  case h_5 => cases h; exact .inr (.inl ⟨rfl, rfl⟩)

/-! ### The bit reader -/

theorem getBit_readerOk {s : State} (h : ReaderOk s) : (getBit s).Ends ReaderOk := by
  unfold getBit refill
  split
  · rcases srcRead_cases s with ⟨io, hr, _⟩ | ⟨io, b, rest, hr, _⟩ | ⟨io, hr, _⟩
    · rw [hr]; exact ends_raised h
    · rw [hr]; exact ends_ok (by decide : (8 - 1 : BitVec 4).toNat ≤ 7)
    · rw [hr]; exact ends_raised h
  · rename_i h0
    refine ends_ok ?_
    have hcnt : s.rcnt.toNat ≤ 7 := h
    show (s.rcnt - 1).toNat ≤ 7
    bv_omega

/-- Two parts that keep `RCNT` in range make a sequence that does. -/
theorem seq_readerOk {α β : Type} {r : Res α} {f : α → State → Res β} (hr : r.Ends ReaderOk)
    (hf : ∀ a s, ReaderOk s → (f a s).Ends ReaderOk) : (r.bind f).Ends ReaderOk :=
  ends_bind hr (fun _ h => h) hf

theorem getBits_readerOk {w : Nat} (n : Nat) (v : BitVec w) {s : State} (h : ReaderOk s) :
    (getBits n v s).Ends ReaderOk := by
  induction n generalizing v s with
  | zero => exact ends_ok h
  | succ n ih => exact seq_readerOk (getBit_readerOk h) fun b _ => ih (shiftIn v b)

theorem readLeaf_readerOk {s : State} (h : ReaderOk s) : (readLeaf s).Ends ReaderOk := by
  refine seq_readerOk (getBits_readerOk 8 0 h) fun sym t ht => ?_
  split
  · exact ends_raised ht
  · exact ends_ok ht

theorem deserialize_readerOk (levels : Nat) {s : State} (h : ReaderOk s) : (deserialize levels s).Ends ReaderOk := by
  induction levels generalizing s with
  | zero => exact ends_raised h
  | succ levels ih =>
    refine seq_readerOk (getBit_readerOk h) fun flag t ht => ?_
    split
    · exact readLeaf_readerOk ht
    · exact seq_readerOk (ih ht) fun _ _ hu => seq_readerOk (ih hu) fun _ _ hv => ends_ok hv

theorem deserializeTree_readerOk {s : State} (h : ReaderOk s) : (deserializeTree s).Ends ReaderOk :=
  ends_promote (seq_readerOk (deserialize_readerOk depthMax (s := clearTree s) h) fun _ _ ht => ends_ok ht)

theorem snkWrite_readerOk (b : Byte) {s : State} (h : ReaderOk s) : (snkWrite b s).Ends ReaderOk := by
  rcases snkWrite_cases b s with ⟨io, hr⟩ | ⟨io, hr, _⟩
  · rw [hr]; exact ends_ok h
  · rw [hr]; exact ends_raised h

theorem walkToLeaf_readerOk (t : Tree) {s : State} (h : ReaderOk s) : (walkToLeaf t s).Ends ReaderOk := by
  induction t generalizing s with
  | leaf sym => exact ends_ok h
  | node l r ihl ihr =>
    refine seq_readerOk (getBit_readerOk h) fun b u hu => ?_
    split
    · exact ihr hu
    · exact ihl hu

theorem writeRepeated_readerOk (b : Byte) (n : Nat) {s : State} (h : ReaderOk s) :
    (writeRepeated b n s).Ends ReaderOk := by
  induction n generalizing s with
  | zero => exact ends_ok h
  | succ n ih => exact seq_readerOk (snkWrite_readerOk b h) fun _ _ => ih

theorem decodeLoop_readerOk (t : Tree) (n : Nat) {s : State} (h : ReaderOk s) : (decodeLoop t n s).Ends ReaderOk := by
  induction n generalizing s with
  | zero => exact ends_ok h
  | succ n ih =>
    exact seq_readerOk (walkToLeaf_readerOk t h) fun sym _ hu => seq_readerOk (snkWrite_readerOk sym hu) fun _ _ => ih

theorem decodeSymbols_readerOk (n : Word32) {s : State} (h : ReaderOk s) : (decodeSymbols n s).Ends ReaderOk := by
  refine ends_promote (withTree_ends h fun t _ _ => ?_)
  unfold walkTree
  split
  · exact writeRepeated_readerOk _ _ h
  · exact decodeLoop_readerOk _ _ h

/-- `DecDecompress` clears the bit reader first, so it needs nothing of what it finds there (R222). -/
theorem decompress_readerOk (s : State) : (decompress s).Ends ReaderOk :=
  ends_promote <|
    seq_readerOk (deserializeTree_readerOk (s := { s with rbuf := 0, rcnt := 0 }) (Nat.zero_le 7)) fun _ _ h =>
    seq_readerOk (getBits_readerOk 32 0 h) fun n _ h =>
    seq_readerOk (decodeSymbols_readerOk n h) fun _ _ h => ends_ok h

/-- The commands that write the bit reader (R25). -/
def writesReader : Instr → Bool
  | .decDecompress | .sysReset => true
  | i => readsBits i

/-- A command that does not write the bit reader leaves `RCNT` as it is. -/
theorem rcnt_of_frame {i : Instr} (hi : writesReader i = false) {s t : State} (hf : Frame i s t) : t.rcnt = s.rcnt := by
  cases i with
  | brGetbit | brGetbyte | brGetint | tdDeserialize | decWalk | decDecompress | sysReset => cases hi
  | _ =>
    unfold Frame at hf
    rw [hf]

theorem ruleOf_keeps_readerOk {i : Instr} {s : State} (hi : isSystem i = false) (h : ReaderOk s) :
    (ruleOf i s).Ends ReaderOk := by
  by_cases hw : writesReader i = false
  · exact ends_mono (ruleOf_frame hi s) fun _ ht => by rw [ReaderOk, rcnt_of_frame hw ht]; exact h
  cases i with
  | brGetbit => exact answer_ends _ (getBit_readerOk h)
  | brGetbyte => exact answer_ends _ (getBits_readerOk 8 0 h)
  | brGetint => exact answer_ends _ (getBits_readerOk 32 0 h)
  | tdDeserialize => exact noResult_ends (deserializeTree_readerOk h)
  | decWalk n => exact noResult_ends (decodeSymbols_readerOk n h)
  | decDecompress => exact answer_ends _ (decompress_readerOk s)
  | sysReset => cases hi
  | _ => exact absurd rfl hw

theorem step_keeps_readerOk {s t : State} (hs : ReaderOk s) (h : step s = .next t) : ReaderOk t := by
  refine step_keeps (P := ReaderOk) (fun s t hb hs => ?_) (fun s _ => Nat.zero_le 7)
    (fun _ _ => ruleOf_keeps_readerOk) hs h
  unfold SameBlock at hb
  rw [ReaderOk, hb]
  exact hs

/-! ### The bit writer -/

/-- The bit writer's half of `BufferInv` in a state whose `ERR` is `err`: after an IOError the eighth bit may still be held
(R130, R252). -/
abbrev WriterInv (err : Option ErrorKind) (s : State) : Prop :=
  if err = some .ioError then s.wcnt.toNat ≤ 8 else WriterOk s

/-- The rule's body ends with the bit writer in range, for the error it ends with. -/
def WriterKept {α : Type} (r : Res α) : Prop :=
  (∀ a t, r = .ok a t → WriterOk t) ∧ ∀ e t, r = .raised e t → WriterInv (some e) t

theorem writerInv_of_writerOk {err : Option ErrorKind} {s : State} (h : WriterOk s) : WriterInv err s := by
  unfold WriterInv
  split
  · exact Nat.le_succ_of_le h.1
  · exact h

theorem writerInv_congr {err : Option ErrorKind} {s t : State} (hbuf : t.wbuf = s.wbuf) (hcnt : t.wcnt = s.wcnt)
    (h : WriterInv err s) : WriterInv err t := by
  simpa only [WriterInv, WriterOk, hbuf, hcnt] using h

theorem writerInv_of_sameBlock {err : Option ErrorKind} {s t : State} (hb : SameBlock s t) (h : WriterInv err s) :
    WriterInv err t := by
  unfold SameBlock at hb
  exact writerInv_congr (by rw [hb]) (by rw [hb]) h

theorem writerKept_ok {α : Type} {a : α} {s : State} (h : WriterOk s) : WriterKept (Res.ok a s) :=
  ⟨fun _ _ h' => by cases h'; exact h, nofun⟩

theorem writerKept_ioError {α : Type} {s : State} (h : s.wcnt.toNat ≤ 8) :
    WriterKept (Res.raised .ioError s : Res α) :=
  ⟨nofun, fun _ _ h' => by cases h'; exact h⟩

/-- A part that keeps the bit writer in range wherever it ends does so for every error. -/
theorem writerKept_of_ends {α : Type} {r : Res α} (h : r.Ends WriterOk) : WriterKept r :=
  ⟨h.1, fun e t ht => writerInv_of_writerOk (h.2 e t ht)⟩

theorem writerKept_bind {α β : Type} {r : Res α} {f : α → State → Res β} (hr : WriterKept r)
    (hf : ∀ a s, WriterOk s → WriterKept (f a s)) : WriterKept (r.bind f) := by
  cases r with
  | ok a s => exact hf a s (hr.1 a s rfl)
  | raised e s => exact ⟨nofun, fun _ _ h => by cases h; exact hr.2 e s rfl⟩
  | broken => exact ⟨nofun, nofun⟩

/-- SnkWrite with at most eight bits held, and the buffer cleared once the byte is out (R131, R134). -/
theorem snkWrite_clear_writerKept (b : Byte) {s : State} (h : s.wcnt.toNat ≤ 8) :
    WriterKept ((snkWrite b s).bind fun _ t => .ok () { t with wbuf := 0, wcnt := 0 }) := by
  rcases snkWrite_cases b s with ⟨io, hr⟩ | ⟨io, hr, _⟩
  · rw [hr]
    exact writerKept_ok ⟨Nat.zero_le 7, Nat.one_pos⟩
  · rw [hr]
    exact writerKept_ioError h

/-- A bit fits below the eighth; the eighth is held only where the sink fails (R131, R252). -/
theorem putBit_writerKept (b : Bool) {s : State} (h : WriterOk s) : WriterKept (putBit b s) := by
  obtain ⟨hcnt, hbuf⟩ := h
  by_cases h7 : s.wcnt = 7
  · rw [putBit_of_eq_seven b h7]
    exact snkWrite_clear_writerKept _ (Nat.le_refl 8)
  · rw [putBit_of_ne_seven b h7]
    have hsucc : (s.wcnt + 1).toNat = s.wcnt.toNat + 1 := by bv_omega
    have hne : s.wcnt.toNat ≠ 7 := fun h => h7 (BitVec.eq_of_toNat_eq h)
    refine writerKept_ok ⟨?_, ?_⟩
    · rw [hsucc]
      omega
    · rw [hsucc]
      exact shiftIn_lt b hbuf

theorem putBits_writerKept (bits : List Bool) {s : State} (h : WriterOk s) : WriterKept (putBits bits s) := by
  induction bits generalizing s with
  | nil => exact writerKept_ok h
  | cons b bits ih => exact writerKept_bind (putBit_writerKept b h) fun _ _ => ih

theorem closeWriter_writerKept {s : State} (h : WriterOk s) : WriterKept (closeWriter s) := by
  by_cases h0 : s.wcnt = 0
  · rw [closeWriter_of_eq_zero h0]
    exact writerKept_ok h
  · rw [closeWriter_of_ne_zero h0]
    exact snkWrite_clear_writerKept _ (Nat.le_succ_of_le h.1)

theorem serializeTree_writerKept {s : State} (h : WriterOk s) : WriterKept (serializeTree s) := by
  unfold serializeTree withTree
  split
  · split
    · show WriterKept (serialize _ s)
      rw [serialize_eq_putBits]
      exact putBits_writerKept _ h
    · exact writerKept_of_ends ends_broken
  · exact writerKept_of_ends (ends_raised h)

theorem emitCodes_writerKept (bytes : List Byte) {s : State} (h : WriterOk s) : WriterKept (emitCodes bytes s) := by
  induction bytes generalizing s with
  | nil => exact writerKept_ok h
  | cons b bytes ih =>
    unfold emitCodes
    split
    · exact writerKept_of_ends (ends_raised h)
    · exact writerKept_bind (putBits_writerKept _ h) fun _ _ => ih

/-- The commands that write the bit writer (R24). -/
def writesWriter : Instr → Bool
  | .bwPutbit _ | .bwPutbyte _ | .bwPutint _ | .bwClose | .tsSerialize | .encEmit | .encCompress | .sysReset => true
  | _ => false

/-- A part of a rule that does not write the bit writer keeps it in range by its frame. -/
theorem writerKept_of_frame {α : Type} {i : Instr} (hi : writesWriter i = false) {s : State} {r : Res α}
    (hr : r.Ends (Frame i s)) (h : WriterOk s) : WriterKept r := by
  refine writerKept_of_ends (ends_mono hr fun t ht => ?_)
  cases i with
  | bwPutbit | bwPutbyte | bwPutint | bwClose | tsSerialize | encEmit | encCompress | sysReset => cases hi
  | _ =>
    unfold Frame at ht
    rw [WriterOk, ht]
    exact h

/-- `EncCompress` clears the bit writer first, and its parts keep it in range (R203). -/
theorem compress_writerKept (s : State) : WriterKept (compress s) := by
  have hclear : WriterOk { s with wbuf := 0, wcnt := 0 } := ⟨Nat.zero_le 7, Nat.one_pos⟩
  exact
    writerKept_bind (writerKept_of_frame (i := .ftLoad) rfl (loadInput_frame _) hclear) fun _ s h =>
    writerKept_bind (writerKept_of_frame (i := .tbBuild) rfl (buildTree_frame s) h) fun _ _ h =>
    writerKept_bind (serializeTree_writerKept h) fun _ _ h =>
    writerKept_bind (putBits_writerKept _ h) fun _ s h =>
    writerKept_bind (writerKept_of_frame (i := .ctDerive) rfl (deriveCodes_frame s) h) fun _ _ h =>
    writerKept_bind (emitCodes_writerKept _ h) fun _ _ h =>
    writerKept_bind (closeWriter_writerKept h) fun _ _ h => writerKept_ok h

theorem answer_writerKept {α : Type} {r : Res α} (f : α → Value) (h : WriterKept r) :
    WriterKept (r.bind fun a t => .ok (f a) t) :=
  writerKept_bind h fun _ _ ht => writerKept_ok ht

/-- Every rule keeps the bit writer in range: those that write it bit by bit, every other by its frame. -/
theorem ruleOf_writerKept {i : Instr} {s : State} (hi : isSystem i = false) (h : WriterOk s) :
    WriterKept (ruleOf i s) := by
  by_cases hw : writesWriter i = false
  · exact writerKept_of_frame hw (ruleOf_frame hi s) h
  cases i with
  | bwPutbit b => exact answer_writerKept _ (putBit_writerKept b h)
  | bwPutbyte | bwPutint => exact answer_writerKept _ (putBits_writerKept _ h)
  | bwClose => exact answer_writerKept _ (closeWriter_writerKept h)
  | tsSerialize => exact answer_writerKept _ (serializeTree_writerKept h)
  | encEmit => exact answer_writerKept _ (emitCodes_writerKept _ h)
  | encCompress => exact answer_writerKept _ (compress_writerKept s)
  | sysReset => cases hi
  | _ => exact absurd rfl hw

/-- Command entry puts the error a rule ends with into `ERR` (R86, R252). -/
theorem command_keeps_writerInv {body : State → Res Value} {s u : State} (hs : WriterInv s.err s)
    (hbody : WriterOk s → WriterKept (body s)) (h : command body s = .next u) : WriterInv u.err u := by
  rcases command_eq_next h with ⟨e, -, rfl⟩ | ⟨he, v, t, hb, rfl⟩ | ⟨he, e, t, hb, rfl⟩
  · exact hs
  · exact writerInv_of_writerOk ((hbody (by rw [he] at hs; exact hs)).1 v t hb)
  · exact (hbody (by rw [he] at hs; exact hs)).2 e t hb

theorem step_keeps_writerInv {s u : State} (hs : WriterInv s.err s) (h : step s = .next u) : WriterInv u.err u := by
  rcases step_cases h with ⟨hb, herr⟩ | ⟨hb, herr⟩ | ⟨rest, hill | ⟨i, hi, hc⟩⟩
  · rw [herr]
    exact writerInv_of_sameBlock hb hs
  · rw [herr]
    exact writerInv_of_sameBlock hb ⟨Nat.zero_le 7, Nat.one_pos⟩
  · exact command_keeps_writerInv (s := { s with host := rest }) hs (fun hw => writerKept_of_ends (ends_raised hw)) hill
  · exact command_keeps_writerInv (s := { s with host := rest }) hs (ruleOf_writerKept hi) hc

/-- Settles O52: a rule that reads or writes bits keeps its counter in range bit by bit, and raises with an eighth bit held
at an IOError alone; no other rule writes the buffers. -/
theorem stepKeepsTheBufferInvariants : Obligations.StepKeepsTheBufferInvariants := fun _ _ ⟨hr, hw⟩ h =>
  ⟨step_keeps_readerOk hr h, step_keeps_writerInv hw h⟩

end Sys2Proof.Machine
end

section
/-! SUPPORT. The bit reader's commands (spec/43_bit_reader.md R151 to R153), and that reading back a closed run of writes at
the widths written answers what was written (R154). -/

namespace Sys2Proof.Machine

/-! ### One bit -/

/-- A bit is left: it comes out, and `src` is not asked (R151). -/
theorem getBit_of_ne_zero {s : State} (h : s.rcnt ≠ 0) :
    getBit s = .ok (s.rbuf.getLsbD (s.rcnt.toNat - 1)) { s with rcnt := s.rcnt - 1 } := by
  have hcnt : (s.rcnt - 1).toNat = s.rcnt.toNat - 1 := by bv_omega
  simp only [getBit, refill, if_neg h, bind_ok, hcnt]

/-- No bit is left: the next byte of `src` is taken and its highest bit comes out (R151). -/
theorem getBit_of_eq_zero {s : State} (hio : s.io = []) (h : s.rcnt = 0) {b : Byte} {rest : List Byte}
    (hsrc : s.src = b :: rest) : getBit s = .ok b.msb { s with rbuf := b, rcnt := 7, src := rest } := by
  simp only [getBit, refill, if_pos h, srcRead_some hio hsrc, bind_ok, BitVec.msb_eq_getLsbD_last]
  rfl

/-- Settles O27: the three cases of `GetBit`. -/
theorem getBitResult : Obligations.GetBitResult := by
  refine ⟨decode_eq_ok_iff.2 ⟨rfl, rfl⟩, fun s herr hio => ⟨fun h => ?_, fun b rest h hsrc => ?_, fun h hsrc => ?_⟩⟩
  · rw [exec_of_rule_ok herr rfl (by rw [ruleOf, getBit_of_ne_zero h, bind_ok]), State.respond, herr]
  · rw [exec_of_rule_ok herr rfl (by rw [ruleOf, getBit_of_eq_zero hio h hsrc, bind_ok]), State.respond, herr]
  · exact exec_of_rule_raised herr rfl (by rw [ruleOf, getBit_end hio (unread_eq_nil.2 ⟨h, hsrc⟩), bind_raised])

/-! ### Whole bytes -/

theorem length_unread (s : State) : (unread s).length = s.rcnt.toNat + 8 * s.src.length := by
  simp [unread]

/-- What the bit reader takes, it takes from the head of `src`. -/
theorem LastByteHeld.src_suffix {b : Byte} {s t : State} (h : LastByteHeld b s t) : t.src <:+ s.src := by
  rcases h with ⟨hsrc, -⟩ | ⟨pre, hpre⟩
  · exact hsrc ▸ List.suffix_rfl
  · exact ⟨pre ++ [t.rbuf], by rw [hpre, List.append_assoc, List.singleton_append]⟩

/-- Whole bytes' worth of bits leave `RCNT` as it was and take as many bytes of `src` (R152, R153). -/
theorem getBits_whole_bytes {w k : Nat} (v : BitVec w) {s : State} (hio : s.io = []) (hr : ReaderOk s)
    (hlen : 8 * k ≤ (unread s).length) :
    ∃ rbuf : Byte,
      getBits (8 * k) v s =
        .ok (((unread s).take (8 * k)).foldl shiftIn v) { s with rbuf := rbuf, src := s.src.drop k } ∧
      unread { s with rbuf := rbuf, src := s.src.drop k } = (unread s).drop (8 * k) ∧
      LastByteHeld s.rbuf s { s with rbuf := rbuf, src := s.src.drop k } := by
  obtain ⟨rbuf, rcnt, src, hget, hcnt, hrest⟩ :=
    getBits_unread ((unread s).take (8 * k)) ((unread s).drop (8 * k)) v hio hr (List.take_append_drop ..).symm
  rw [List.length_take_of_le hlen] at hget
  have hheld := (getBits_holds (8 * k) v s).1 _ _ hget
  have hcount := congrArg List.length hrest
  rw [length_unread, List.length_drop, length_unread] at hcount
  rw [length_unread] at hlen
  have hcnt₀ : s.rcnt.toNat ≤ 7 := hr
  dsimp only at hcount
  obtain rfl : rcnt = s.rcnt := BitVec.eq_of_toNat_eq (by omega)
  obtain rfl : src = s.src.drop k := by
    have hdrop : src = s.src.drop (s.src.length - src.length) := List.suffix_iff_eq_drop.1 hheld.src_suffix
    rwa [show s.src.length - src.length = k by omega] at hdrop
  exact ⟨rbuf, hget, hrest, hheld⟩

/-- The two ways a command that reads `k` bytes' worth of bits ends (R152, R153). -/
theorem exec_reads_bytes {i : Instr} {w k : Nat} (hi : isSystem i = false)
    (hrule : ∀ s, ruleOf i s = (getBits (8 * k) (0 : BitVec w) s).bind fun v t => .ok (v.setWidth 41) t)
    {s : State} (herr : s.err = none) (hio : s.io = []) (hr : ReaderOk s) :
    (8 * k ≤ (unread s).length →
      ∃ rbuf : Byte,
        exec i s =
          .next { s with rbuf := rbuf, src := s.src.drop k,
                         rsp := s.rsp ++
                           [responseWord none ((valueOfBits w ((unread s).take (8 * k))).setWidth 41)] } ∧
        unread { s with rbuf := rbuf, src := s.src.drop k } = (unread s).drop (8 * k) ∧
        LastByteHeld s.rbuf s { s with rbuf := rbuf, src := s.src.drop k }) ∧
    ((unread s).length < 8 * k →
      ∃ rbuf : Byte,
        exec i s =
          .next { s with err := some .endOfStream, rbuf := rbuf, rcnt := 0, src := [],
                         rsp := s.rsp ++ [responseWord (some .endOfStream) 0] } ∧
        LastByteHeld s.rbuf s { s with rbuf := rbuf, src := [] }) := by
  constructor
  · intro hlen
    obtain ⟨rbuf, hget, hrest, hheld⟩ := getBits_whole_bytes (0 : BitVec w) hio hr hlen
    refine ⟨rbuf, ?_, hrest, hheld⟩
    rw [exec_of_rule_ok herr hi (by rw [hrule, hget, bind_ok]), State.respond, herr, valueOfBits]
  · intro hlen
    obtain ⟨rbuf, hget⟩ := getBits_end (0 : BitVec w) hio hr hlen
    have hheld := (getBits_holds _ _ s).2 _ _ hget
    refine ⟨rbuf, ?_, hheld⟩
    exact exec_of_rule_raised herr hi (by rw [hrule, hget, bind_raised])

/-- Settles O28: `GetByte` reads one byte's worth of bits. -/
theorem getByteResult : Obligations.GetByteResult := by
  refine ⟨decode_eq_ok_iff.2 ⟨rfl, rfl⟩, fun s herr hio hr => ?_⟩
  obtain ⟨hok, hend⟩ := exec_reads_bytes (i := .brGetbyte) (w := 8) (k := 1) rfl (fun _ => rfl) herr hio hr
  refine ⟨fun hlen => ?_, hend⟩
  obtain ⟨rbuf, hexec⟩ := hok hlen
  exact ⟨rbuf, s.src.drop 1, hexec⟩

/-- Settles O29: `GetInt` reads four bytes' worth of bits. -/
theorem getIntResult : Obligations.GetIntResult :=
  ⟨decode_eq_ok_iff.2 ⟨rfl, rfl⟩, fun _ => exec_reads_bytes (k := 4) rfl fun _ => rfl⟩

/-! ### Reading back what was written (R154) -/

/-- Shifting a bit in is the library's operation. -/
theorem shiftIn_eq_shiftConcat {w : Nat} (v : BitVec w) (b : Bool) : shiftIn v b = v.shiftConcat b := by
  apply BitVec.eq_of_getLsbD_eq
  intro j hj
  rcases j with _ | j
  · simp [shiftIn, hj]
  · simp [shiftIn, hj]

/-- The `n` highest bits of a value, shifted in one after another, are the value without the bits below them. -/
theorem foldl_shiftIn_high_bits {w n : Nat} (v : BitVec w) (hn : n ≤ w) :
    ((List.range n).map v.getMsbD).foldl shiftIn 0 = v >>> (w - n) := by
  induction n with
  | zero => exact (BitVec.ushiftRight_eq_zero le_rfl).symm
  | succ n ih =>
    have hbit : v.getMsbD n = v.getLsbD (w - n - 1) := by
      rw [BitVec.getMsbD, show w - 1 - n = w - n - 1 by omega, decide_eq_true (by omega), Bool.true_and]
    rw [List.range_succ, List.map_append, List.foldl_append, ih (by omega), List.map_singleton, List.foldl_cons,
      List.foldl_nil, shiftIn_eq_shiftConcat, hbit, ← BitVec.shiftRight_sub_one_eq_shiftConcat v (by omega), Nat.sub_sub]

/-- The bits of a value, most significant first, give the value back (R63). -/
theorem valueOfBits_bitsMsb {w : Nat} (v : BitVec w) : valueOfBits w (bitsMsb v) = v := by
  rw [valueOfBits, bitsMsb, foldl_shiftIn_high_bits v le_rfl, Nat.sub_self, BitVec.ushiftRight_zero]

/-- The bits of a value ahead in the stream are read back as the value. -/
theorem getBits_bitsMsb {w : Nat} (v : BitVec w) {rest : List Bool} {s : State} (hio : s.io = []) (hr : ReaderOk s)
    (hu : unread s = bitsMsb v ++ rest) :
    ∃ (rbuf : Byte) (rcnt : BitVec 4) (src : List Byte),
      getBits w (0 : BitVec w) s = .ok v { s with rbuf := rbuf, rcnt := rcnt, src := src } ∧
      rcnt.toNat ≤ 7 ∧ unread { s with rbuf := rbuf, rcnt := rcnt, src := src } = rest := by
  have h := getBits_unread (bitsMsb v) rest (0 : BitVec w) hio hr hu
  rwa [length_bitsMsb, show (bitsMsb v).foldl shiftIn 0 = v from valueOfBits_bitsMsb v] at h

/-- What a command wrote, ahead in the stream, is the answer of the reader command of its width. -/
theorem ruleOf_readerOf {i : Instr} {bits rest : List Bool} (hi : putBitsOf i = some bits) {s : State} (hio : s.io = [])
    (hr : ReaderOk s) (hu : unread s = bits ++ rest) :
    ∃ (rbuf : Byte) (rcnt : BitVec 4) (src : List Byte),
      ruleOf (readerOf i) s = .ok i.arg { s with rbuf := rbuf, rcnt := rcnt, src := src } ∧
      rcnt.toNat ≤ 7 ∧ unread { s with rbuf := rbuf, rcnt := rcnt, src := src } = rest := by
  cases i with
  | bwPutbit b =>
    cases hi
    obtain ⟨rbuf, rcnt, src, hget, hrest⟩ := getBit_unread hio hr hu
    exact ⟨rbuf, rcnt, src, by rw [readerOf, ruleOf, hget, bind_ok, Instr.arg], hrest⟩
  | bwPutbyte b =>
    cases hi
    obtain ⟨rbuf, rcnt, src, hget, hrest⟩ := getBits_bitsMsb b hio hr hu
    exact ⟨rbuf, rcnt, src, by rw [readerOf, ruleOf, getByte, hget, bind_ok, Instr.arg], hrest⟩
  | bwPutint v =>
    cases hi
    obtain ⟨rbuf, rcnt, src, hget, hrest⟩ := getBits_bitsMsb v hio hr hu
    exact ⟨rbuf, rcnt, src, by rw [readerOf, ruleOf, getInt, hget, bind_ok, Instr.arg], hrest⟩
  | _ => cases hi

theorem isSystem_readerOf {i : Instr} {bits : List Bool} (hi : putBitsOf i = some bits) :
    isSystem (readerOf i) = false := by
  cases i with
  | bwPutbit | bwPutbyte | bwPutint => rfl
  | _ => cases hi

theorem bitsOfRun_cons {i : Instr} {bits : List Bool} (hi : putBitsOf i = some bits) (is : List Instr) :
    bitsOfRun (i :: is) = bits ++ bitsOfRun is := by
  simp [bitsOfRun, hi]

/-- The bits of a run of writes, ahead in the stream, are read back command by command, and the rest of the stream is left. -/
theorem execAll_readerOf {is : List Instr} (his : ∀ i ∈ is, (putBitsOf i).isSome) {rest : List Bool} {s : State}
    (herr : s.err = none) (hio : s.io = []) (hr : ReaderOk s) (hu : unread s = bitsOfRun is ++ rest) :
    ∃ u, execAll (is.map readerOf) s = .next u ∧ u.err = none ∧
      u.rsp = s.rsp ++ is.map (fun i => responseWord none i.arg) ∧ unread u = rest := by
  induction is generalizing s with
  | nil => exact ⟨s, rfl, herr, (List.append_nil _).symm, hu⟩
  | cons i is ih =>
    obtain ⟨hi, his⟩ := List.forall_mem_cons.1 his
    obtain ⟨bits, hbits⟩ := Option.isSome_iff_exists.1 hi
    rw [bitsOfRun_cons hbits, List.append_assoc] at hu
    obtain ⟨rbuf, rcnt, src, hrule, hr, hu⟩ := ruleOf_readerOf hbits hio hr hu
    have hexec := exec_of_rule_ok herr (isSystem_readerOf hbits) hrule
    obtain ⟨u, hrun, hue, hrsp, hrest⟩ :=
      ih his (s := State.respond { s with rbuf := rbuf, rcnt := rcnt, src := src } i.arg) herr hio hr hu
    refine ⟨u, ?_, hue, ?_, hrest⟩
    · rw [List.map_cons, execAll, hexec]
      exact hrun
    · rw [hrsp, respond_rsp, herr, List.map_cons, List.append_assoc, List.singleton_append]

/-- A run of single bits writes those bits. -/
theorem bitsOfRun_map_bwPutbit (bits : List Bool) : bitsOfRun (bits.map .bwPutbit) = bits := by
  induction bits with
  | nil => rfl
  | cons b bits ih => rw [List.map_cons, bitsOfRun_cons rfl, ih, List.singleton_append]

/-- Settles O30: the stream read is the bits of the run and their padding; reading it bit by bit is reading back the same
bits written one at a time. -/
theorem readerInvertsWriter : Obligations.ReaderInvertsWriter := by
  intro is s t r bytes his herr hio hcnt hbuf hexec hsnk hrerr hrio hrcnt hrsrc
  obtain ⟨bytes', rsp, hrun, -, hbits⟩ := writerStreamLaw is s his herr hio hcnt hbuf
  obtain rfl : { s with snk := s.snk ++ bytes', rsp := rsp } = t := by
    rw [hrun] at hexec
    injection hexec
  obtain rfl : bytes' = bytes := List.append_cancel_left hsnk
  have hu : unread r = bitsOfRun is ++ padding (bitsOfRun is).length := by
    rw [unread, hrcnt, hrsrc]
    exact hbits
  have hr : ReaderOk r := by rw [ReaderOk, hrcnt]; exact Nat.zero_le 7
  refine ⟨execAll_readerOf his hrerr hrio hr hu, ?_⟩
  have hwrites : ∀ i ∈ (bitsOfRun is).map .bwPutbit, (putBitsOf i).isSome := List.forall_mem_map.2 fun _ _ => rfl
  have hu' : unread r = bitsOfRun ((bitsOfRun is).map .bwPutbit) ++ padding (bitsOfRun is).length := by
    rw [bitsOfRun_map_bwPutbit, hu]
  have hbitwise := execAll_readerOf hwrites hrerr hrio hr hu'
  rw [List.map_map, List.map_map] at hbitwise
  rw [← List.map_const']
  exact hbitwise

end Sys2Proof.Machine
end

section
/-! SUPPORT. What every command does to the channels and to `RBUF` (spec/10_state.md R25, R40, R41), which with the frames of
the rules is what each command may change. -/

namespace Sys2Proof.Machine

/-! ### How `snk` and `src` move -/

/-- Bytes are appended to `snk` and taken from the head of `src` (R61, R62). -/
def MovesBytes (s t : State) : Prop := s.snk <+: t.snk ∧ t.src <:+ s.src

/-- Bytes are appended to `snk` and taken from the head of `src` by the bit reader, which holds the last one (R25, R150). -/
def MovesBits (s t : State) : Prop := s.snk <+: t.snk ∧ LastByteHeld s.rbuf s t

theorem MovesBits.toBytes {s t : State} (h : MovesBits s t) : MovesBytes s t := ⟨h.1, h.2.src_suffix⟩

theorem movesBits_of_eq {s t : State} (hsnk : t.snk = s.snk) (hsrc : t.src = s.src) (hrbuf : t.rbuf = s.rbuf) :
    MovesBits s t :=
  ⟨hsnk ▸ List.prefix_rfl, .inl ⟨hsrc, hrbuf⟩⟩

theorem MovesBits.refl (s : State) : MovesBits s s := movesBits_of_eq rfl rfl rfl

theorem MovesBytes.trans {s t u : State} (h₁ : MovesBytes s t) (h₂ : MovesBytes t u) : MovesBytes s u :=
  ⟨h₁.1.trans h₂.1, h₂.2.trans h₁.2⟩

theorem MovesBits.trans {s t u : State} (h₁ : MovesBits s t) (h₂ : MovesBits t u) : MovesBits s u :=
  ⟨h₁.1.trans h₂.1, LastByteHeld.trans h₁.2 h₂.2⟩

theorem seq_movesBytes {α β : Type} {s : State} {r : Res α} {f : α → State → Res β} (hr : r.Ends (MovesBytes s))
    (hf : ∀ a t, (f a t).Ends (MovesBytes t)) : (r.bind f).Ends (MovesBytes s) :=
  ends_seq MovesBytes (fun _ _ _ => MovesBytes.trans) hr hf

theorem seq_movesBits {α β : Type} {s : State} {r : Res α} {f : α → State → Res β} (hr : r.Ends (MovesBits s))
    (hf : ∀ a t, (f a t).Ends (MovesBits t)) : (r.bind f).Ends (MovesBits s) :=
  ends_seq MovesBits (fun _ _ _ => MovesBits.trans) hr hf

/-- A command without channel access moves nothing and does not touch the bit reader, by its frame. -/
theorem movesBits_of_frame {i : Instr} (hi : usesChannel i = false) (hsys : isSystem i = false) {s t : State}
    (h : Frame i s t) : MovesBits s t := by
  cases i with
  | pqPush | pqTop | pqPop | pqSize | tbBuild | ctDerive =>
    unfold Frame at h
    exact movesBits_of_eq (by rw [h]) (by rw [h]) (by rw [h])
  | sysReset | sysRdreg => cases hsys
  | _ => cases hi

/-! ### The bit writer -/

theorem snkWrite_movesBits (b : Byte) (s : State) : (snkWrite b s).Ends (MovesBits s) := by
  rcases snkWrite_cases b s with ⟨io, h⟩ | ⟨io, h, -⟩
  · rw [h]
    exact ends_ok ⟨List.prefix_append s.snk [b], .inl ⟨rfl, rfl⟩⟩
  · rw [h]
    exact ends_raised (.refl s)

theorem putBit_movesBits (b : Bool) (s : State) : (putBit b s).Ends (MovesBits s) := by
  by_cases h : s.wcnt = 7
  · rw [putBit_of_eq_seven b h]
    exact ends_bind (snkWrite_movesBits _ _) (fun _ ht => ht) fun _ _ ht => ends_ok ht
  · rw [putBit_of_ne_seven b h]
    exact ends_ok (.refl s)

theorem putBits_movesBits (bits : List Bool) (s : State) : (putBits bits s).Ends (MovesBits s) := by
  induction bits generalizing s with
  | nil => exact ends_ok (.refl s)
  | cons b bits ih => exact seq_movesBits (putBit_movesBits b s) fun _ => ih

theorem closeWriter_movesBits (s : State) : (closeWriter s).Ends (MovesBits s) := by
  by_cases h : s.wcnt = 0
  · rw [closeWriter_of_eq_zero h]
    exact ends_ok (.refl s)
  · rw [closeWriter_of_ne_zero h]
    exact ends_bind (snkWrite_movesBits _ s) (fun _ ht => ht) fun _ _ ht => ends_ok ht

theorem serializeTree_movesBits (s : State) : (serializeTree s).Ends (MovesBits s) :=
  withTree_ends (.refl s) fun t _ _ => serialize_eq_putBits t s ▸ putBits_movesBits _ s

theorem emitCodes_movesBits (bytes : List Byte) (s : State) : (emitCodes bytes s).Ends (MovesBits s) := by
  induction bytes generalizing s with
  | nil => exact ends_ok (.refl s)
  | cons b bytes ih =>
    unfold emitCodes
    split
    · exact ends_raised (.refl s)
    · exact seq_movesBits (putBits_movesBits _ s) fun _ => ih

/-! ### The bit reader -/

/-- A part that touches the bit reader alone and holds the last byte it took. -/
theorem movesBits_of_reader {α : Type} {s : State} {r : Res α} (hframe : r.Ends (ReaderFrame s))
    (hheld : r.Ends (LastByteHeld s.rbuf s)) : r.Ends (MovesBits s) := by
  refine ends_mono (ends_and hframe hheld) fun t ⟨ht, hb⟩ => ⟨?_, hb⟩
  unfold ReaderFrame at ht
  rw [ht]

theorem getBit_movesBits (s : State) : (getBit s).Ends (MovesBits s) :=
  movesBits_of_reader (getBit_frame s) (getBit_holds s)

theorem getBits_movesBits {w : Nat} (n : Nat) (v : BitVec w) (s : State) : (getBits n v s).Ends (MovesBits s) :=
  movesBits_of_reader (getBits_frame n v s) (getBits_holds n v s)

theorem readLeaf_movesBits (s : State) : (readLeaf s).Ends (MovesBits s) := by
  refine seq_movesBits (getBits_movesBits 8 0 s) fun sym t => ?_
  split
  · exact ends_raised (.refl t)
  · exact ends_ok (.refl t)

theorem deserialize_movesBits (levels : Nat) (s : State) : (deserialize levels s).Ends (MovesBits s) := by
  induction levels generalizing s with
  | zero => exact ends_raised (.refl s)
  | succ levels ih =>
    refine seq_movesBits (getBit_movesBits s) fun flag t => ?_
    split
    · exact readLeaf_movesBits t
    · exact seq_movesBits (ih t) fun _ u => seq_movesBits (ih u) fun _ v => ends_ok (.refl v)

theorem deserializeTree_movesBits (s : State) : (deserializeTree s).Ends (MovesBits s) :=
  ends_promote (seq_movesBits (s := clearTree s) (deserialize_movesBits ..) fun _ t => ends_ok (.refl t))

theorem walkToLeaf_movesBits (t : Tree) (s : State) : (walkToLeaf t s).Ends (MovesBits s) := by
  induction t generalizing s with
  | leaf sym => exact ends_ok (.refl s)
  | node l r ihl ihr =>
    refine seq_movesBits (getBit_movesBits s) fun b u => ?_
    split
    · exact ihr u
    · exact ihl u

theorem writeRepeated_movesBits (b : Byte) (n : Nat) (s : State) : (writeRepeated b n s).Ends (MovesBits s) := by
  induction n generalizing s with
  | zero => exact ends_ok (.refl s)
  | succ n ih => exact seq_movesBits (snkWrite_movesBits b s) fun _ => ih

theorem decodeLoop_movesBits (t : Tree) (n : Nat) (s : State) : (decodeLoop t n s).Ends (MovesBits s) := by
  induction n generalizing s with
  | zero => exact ends_ok (.refl s)
  | succ n ih =>
    exact seq_movesBits (walkToLeaf_movesBits t s) fun sym u => seq_movesBits (snkWrite_movesBits sym u) fun _ => ih

theorem decodeSymbols_movesBits (n : Word32) (s : State) : (decodeSymbols n s).Ends (MovesBits s) := by
  refine ends_promote (withTree_ends (.refl s) fun t _ _ => ?_)
  unfold walkTree
  split
  · exact writeRepeated_movesBits _ _ s
  · exact decodeLoop_movesBits _ _ s

/-- `DecDecompress` starts from a cleared bit reader (R222). -/
theorem decompress_movesBits (s : State) : (decompress s).Ends (MovesBits { s with rbuf := 0, rcnt := 0 }) :=
  ends_promote <|
    seq_movesBits (deserializeTree_movesBits _) fun _ t =>
    seq_movesBits (getBits_movesBits 32 0 t) fun n u =>
    seq_movesBits (decodeSymbols_movesBits n u) fun _ v => ends_ok (.refl v)

/-! ### Loading the input -/

theorem loadLoop_movesBytes (fuel : Nat) (s : State) : (loadLoop fuel s).Ends (MovesBytes s) := by
  induction fuel generalizing s with
  | zero => exact ends_ok (MovesBits.refl s).toBytes
  | succ fuel ih =>
    unfold loadLoop
    rcases srcRead_cases s with ⟨io, h, -⟩ | ⟨io, b, rest, h, hsrc⟩ | ⟨io, h, -⟩
    · rw [h]
      exact ends_ok (MovesBits.refl s).toBytes
    · have hread : MovesBytes s { s with io := io, src := rest } := ⟨List.prefix_rfl, hsrc ▸ List.suffix_cons b rest⟩
      rw [h]
      exact ends_mono (ih _) fun _ ht => hread.trans ht
    · rw [h]
      exact ends_raised (MovesBits.refl s).toBytes

theorem loadInput_movesBytes (s : State) : (loadInput s).Ends (MovesBytes s) := by
  unfold loadInput
  split
  · exact ends_raised (MovesBits.refl s).toBytes
  · exact ends_bind (Q := MovesBytes s) (loadLoop_movesBytes _ _) (fun _ h => h) fun _ _ h => ends_ok h

/-- `EncCompress` loads the input and then only writes bits (R203). -/
theorem compress_movesBytes (s : State) : (compress s).Ends (MovesBytes s) := by
  have bits {α : Type} {s : State} {r : Res α} (h : r.Ends (MovesBits s)) : r.Ends (MovesBytes s) :=
    ends_mono h fun _ => MovesBits.toBytes
  have frame {α : Type} {i : Instr} (hi : usesChannel i = false) (hsys : isSystem i = false) {s : State} {r : Res α}
      (h : r.Ends (Frame i s)) : r.Ends (MovesBytes s) :=
    bits (ends_mono h fun _ => movesBits_of_frame hi hsys)
  exact
    seq_movesBytes (loadInput_movesBytes { s with wbuf := 0, wcnt := 0 }) fun _ s =>
    seq_movesBytes (frame (i := .tbBuild) rfl rfl (buildTree_frame s)) fun _ s =>
    seq_movesBytes (bits (serializeTree_movesBits s)) fun _ s =>
    seq_movesBytes (bits (putBits_movesBits _ s)) fun _ s =>
    seq_movesBytes (frame (i := .ctDerive) rfl rfl (deriveCodes_frame s)) fun _ s =>
    seq_movesBytes (bits (emitCodes_movesBits _ s)) fun _ s =>
    seq_movesBytes (bits (closeWriter_movesBits s)) fun _ s => ends_ok (MovesBits.refl s).toBytes

/-! ### Every rule and every command -/

/-- The commands that load `src` past the bit reader, or clear the bit reader first. -/
def leavesReader : Instr → Bool
  | .ftLoad | .encCompress | .decDecompress => true
  | _ => false

theorem ruleOf_movesBits {i : Instr} (hsys : isSystem i = false) (hi : leavesReader i = false) (s : State) :
    (ruleOf i s).Ends (MovesBits s) := by
  by_cases hch : usesChannel i = false
  · exact ends_mono (ruleOf_frame hsys s) fun _ => movesBits_of_frame hch hsys
  cases i with
  | bwPutbit b => exact noResult_ends (putBit_movesBits b s)
  | bwPutbyte | bwPutint => exact noResult_ends (putBits_movesBits _ s)
  | bwClose => exact noResult_ends (closeWriter_movesBits s)
  | brGetbit => exact answer_ends _ (getBit_movesBits s)
  | brGetbyte => exact answer_ends _ (getBits_movesBits 8 0 s)
  | brGetint => exact answer_ends _ (getBits_movesBits 32 0 s)
  | tsSerialize => exact noResult_ends (serializeTree_movesBits s)
  | tdDeserialize => exact noResult_ends (deserializeTree_movesBits s)
  | encEmit => exact noResult_ends (emitCodes_movesBits _ s)
  | decWalk n => exact noResult_ends (decodeSymbols_movesBits n s)
  | ftLoad | encCompress | decDecompress => cases hi
  | _ => exact absurd rfl hch

theorem ruleOf_movesBytes {i : Instr} (hsys : isSystem i = false) (s : State) : (ruleOf i s).Ends (MovesBytes s) := by
  by_cases hi : leavesReader i = false
  · exact ends_mono (ruleOf_movesBits hsys hi s) fun _ => MovesBits.toBytes
  cases i with
  | ftLoad => exact answer_ends _ (loadInput_movesBytes s)
  | encCompress => exact answer_ends _ (compress_movesBytes s)
  | decDecompress => exact answer_ends _ (ends_mono (decompress_movesBits s) fun _ h => h.toBytes)
  | _ => exact absurd rfl hi

/-- Answering and taking an error write `ERR` and the responses alone, which every command but SYS_RESET may. -/
theorem Frame.of_answer {i : Instr} (hi : i ≠ .sysReset) {s t : State} (h : Frame .pqTop s t) : Frame i s t := by
  cases i with
  | sysReset => exact absurd rfl hi
  | _ =>
    unfold Frame at *
    rw [h]

section Answered

variable {P : State → Prop} (hanswer : ∀ s t, Frame .pqTop s t → P s → P t)
include hanswer

/-- Command entry ends where its rule ends, or ignores the command, up to `ERR` and the responses. -/
theorem command_ends {body : State → Res Value} {s u : State} (hs : s.err ≠ none → P s) (hbody : (body s).Ends P)
    (h : command body s = .next u) : P u := by
  rcases command_eq_next h with ⟨e, he, rfl⟩ | ⟨-, v, t, hb, rfl⟩ | ⟨-, e, t, hb, rfl⟩
  · exact hanswer s _ rfl (hs (by simp [he]))
  · exact hanswer t _ rfl (hbody.1 v t hb)
  · exact hanswer t _ rfl (hbody.2 e t hb)

/-- Every command but SYS_RESET ends where its rule ends, or where it started, up to `ERR` and the responses. -/
theorem exec_ends {i : Instr} {s u : State} (hi : i ≠ .sysReset) (hs : P s)
    (hrule : isSystem i = false → (ruleOf i s).Ends P) (h : exec i s = .next u) : P u := by
  by_cases hsys : isSystem i = false
  · exact command_ends hanswer (fun _ => hs) (hrule hsys) (exec_eq_command hsys s ▸ h)
  cases i with
  | sysReset => exact absurd rfl hi
  | sysRdreg idx =>
    cases hv : regMap s idx with
    | some v =>
      rw [exec_sysRdreg_some hv] at h
      cases h
      exact hanswer s _ rfl hs
    | none =>
      rw [exec_sysRdreg_none hv] at h
      exact command_ends hanswer (fun _ => hs) (ends_raised hs) h
  | _ => exact absurd rfl hsys

end Answered

/-- Answering moves nothing. -/
theorem movesBits_of_answer {s t : State} (h : Frame .pqTop s t) : MovesBits s t := movesBits_of_frame rfl rfl h

/-- What every command may change, and how it moves the channels (R23 to R41). -/
theorem exec_frame {i : Instr} {s t : State} (h : exec i s = .next t) : Frame i s t ∧ MovesBytes s t := by
  by_cases hi : i = .sysReset
  · subst hi
    cases h
    exact ⟨rfl, List.prefix_rfl, List.suffix_rfl⟩
  refine exec_ends (P := fun t => Frame i s t ∧ MovesBytes s t) (fun t u htu ⟨hf, hm⟩ => ?_) hi ?_ (fun hsys => ?_) h
  · exact ⟨hf.trans hi (.of_answer hi htu), hm.trans (movesBits_of_answer htu).toBytes⟩
  · exact ⟨.of_answer hi rfl, (MovesBits.refl s).toBytes⟩
  · exact ends_and (ruleOf_frame hsys s) (ruleOf_movesBytes hsys s)

/-- Every command that keeps to the bit reader holds the last byte it took (R25). -/
theorem exec_movesBits {i : Instr} (hi : i ≠ .sysReset) (hrd : leavesReader i = false) {s t : State}
    (h : exec i s = .next t) : MovesBits s t :=
  exec_ends (fun _ _ htu ht => ht.trans (movesBits_of_answer htu)) hi (.refl s)
    (fun hsys => ruleOf_movesBits hsys hrd s) h

theorem leavesReader_of_readsBits {i : Instr} (h : readsBits i = true) : i ≠ .sysReset ∧ leavesReader i = false := by
  cases i with
  | brGetbit | brGetbyte | brGetint | tdDeserialize | decWalk => exact ⟨nofun, rfl⟩
  | _ => cases h

/-- Settles O59: each rule's frame and channel moves, through command entry; DEC_DECOMPRESS moves from a cleared bit
reader. -/
theorem frameOfEveryCommand : Obligations.FrameOfEveryCommand := by
  refine ⟨fun i s t h => exec_frame h, fun i s t hi h => ?_, fun s t herr h => ?_⟩
  · obtain ⟨hne, hrd⟩ := leavesReader_of_readsBits hi
    exact (exec_movesBits hne hrd h).2
  · have hrule : (ruleOf .decDecompress s).Ends (MovesBits { s with rbuf := 0, rcnt := 0 }) :=
      answer_ends _ (decompress_movesBits s)
    rw [exec_eq_command rfl] at h
    exact (command_ends (fun _ _ htu ht => ht.trans (movesBits_of_answer htu)) (fun he => absurd herr he) hrule h).2

end Sys2Proof.Machine
end

section
/-! SUPPORT. FT_LOAD and TS_SERIALIZE (spec/44_tree_builder.md R171, R180): the input counted, and the bits of the tree
through the bit writer. -/

namespace Sys2Proof.Machine

/-! ### Loading the input -/

/-- An input that fits is moved to the buffer whole, and its bytes are counted from an empty table (R171). -/
theorem loadInput_fits {s : State} (hio : s.io = []) (hfit : InputFits s) :
    ∃ n, loadInput s = .ok n { s with ft := countAll [] s.src, ib := s.src, src := [] } ∧
      n.setWidth 41 = BitVec.ofNat 41 s.src.length := by
  have hsmall : s.src.length < 2 ^ 32 := hfit.trans_lt s.cfg.ibCap.isLt
  have hload := loadLoop_never (fuel := s.src.length + 1) (s := { s with ib := [], ft := [] }) hio (Nat.lt_succ_self _)
  refine ⟨_, ?_, ilen_setWidth (s := { s with ib := s.src }) hsmall⟩
  rw [loadInput, if_neg (Nat.not_lt.2 hfit), hload]
  rfl

/-- A longer input is refused before anything is consumed or written (R171). -/
theorem loadInput_tooLong {s : State} (h : s.cfg.ibCap.toNat < s.src.length) :
    loadInput s = .raised .illegalOperation s := if_pos h

/-- An input short of 2^32 bytes is counted exactly (R36). -/
theorem toNat_countGet_countAll {bytes : List Byte} (h : bytes.length < 2 ^ 32) {sym : Nat} (hsym : sym < 256) :
    (countGet (countAll [] bytes) sym).toNat = bytes.count (BitVec.ofNat 8 sym) := by
  have hle : bytes.count (BitVec.ofNat 8 sym) ≤ bytes.length := List.count_le_length
  have hcount := countGet_countAll List.Pairwise.nil bytes (BitVec.ofNat 8 sym)
  rw [BitVec.toNat_ofNat, Nat.mod_eq_of_lt hsym, countGet_nil, zero_add] at hcount
  rw [hcount, BitVec.toNat_ofNat, Nat.mod_eq_of_lt (hle.trans_lt h)]

/-- Settles O31: the load loop takes all of `src`, and a count of an input that fits never wraps. -/
theorem ftLoadResult : Obligations.FtLoadResult := by
  refine ⟨decode_eq_ok_iff.2 ⟨rfl, rfl⟩, fun s herr hio => ⟨fun hfit => ?_, fun hlong => ?_⟩⟩
  · obtain ⟨n, hload, hn⟩ := loadInput_fits hio hfit
    refine ⟨countAll [] s.src, ?_, fun sym => toNat_countGet_countAll (hfit.trans_lt s.cfg.ibCap.isLt)⟩
    rw [exec_of_rule_ok herr rfl (by rw [ruleOf, hload, bind_ok]), State.respond, herr, hn]
  · exact exec_of_rule_raised herr rfl (by rw [ruleOf, loadInput_tooLong hlong, bind_raised])

/-! ### Writing the tree -/

/-- Nine bits a leaf and one bit an internal node (R101). -/
theorem length_treeBits (t : Tree) : (treeBits t).length + 1 = 10 * (treeSymbols t).length := by
  induction t with
  | leaf sym => simp [treeBits, treeSymbols]
  | node l r ihl ihr =>
    simp only [treeBits, treeSymbols, List.length_cons, List.length_append]
    omega

/-- TS_SERIALIZE of a current tree puts its bits through the bit writer (R180). -/
theorem serializeTree_written {s : State} {tr : Tree} (hio : s.io = []) (hv : s.rootValid = true)
    (htree : s.tree = some tr) (hw : WriterOk s) :
    ∃ (wbuf : Byte) (wcnt : BitVec 4) (bytes : List Byte),
      serializeTree s = .ok () { s with wbuf := wbuf, wcnt := wcnt, snk := s.snk ++ bytes } ∧
      WriterOk { s with wbuf := wbuf, wcnt := wcnt } ∧
      written { s with wbuf := wbuf, wcnt := wcnt, snk := s.snk ++ bytes } = written s ++ treeBits tr := by
  rw [serializeTree, withTree_some hv htree, serialize_eq_putBits]
  exact putBits_written (treeBits tr) hio hw

/-- Settles O34: the serializer is the bit writer on the bits of the tree. -/
theorem serializeWritesTheTree : Obligations.SerializeWritesTheTree := by
  refine ⟨decode_eq_ok_iff.2 ⟨rfl, rfl⟩, fun s herr hv => ?_, fun s tr herr hio hv htree hw => ?_⟩
  · exact exec_of_rule_raised herr rfl (by rw [ruleOf, serializeTree, withTree_none hv, noResult_raised])
  · obtain ⟨wbuf, wcnt, bytes, hput, hw', hbits⟩ := serializeTree_written hio hv htree hw
    exact ⟨wbuf, wcnt, bytes, exec_of_unit_rule rfl herr rfl hput herr, hw', hbits, length_treeBits tr⟩

end Sys2Proof.Machine
end

section
/-! SUPPORT. TB_BUILD over an ascending list of keys (spec/44_tree_builder.md R172, spec/41_priority_queue.md R116): the leaf
pass queues the leaf keys, every merge takes the two smallest whatever the layout of the heap, and what the merges leave
does not depend on the heap at all. -/

namespace Sys2Proof.Machine

/-! ### The leaf pass -/

/-- The key of a symbol that occurs (R172). -/
def leafKey (ft : Store Word32) (sym : Nat) : Option Key :=
  if countGet ft sym = 0 then none else some (mkKey (countGet ft sym) (BitVec.ofNat 9 sym))

/-- The leaf of a symbol that occurs, written to node memory (R172). -/
def addLeaf (ft : Store Word32) (nm : Store Node) (sym : Nat) : Store Node :=
  if countGet ft sym = 0 then nm else storePut nm sym ⟨countGet ft sym, none⟩

/-- Node memory after the leaf pass (R172). -/
def leafNodes (ft : Store Word32) : Store Node := (List.range alphabetSize).foldl (addLeaf ft) []

theorem leafKey_eq_none {ft : Store Word32} {sym : Nat} : leafKey ft sym = none ↔ countGet ft sym = 0 := by
  unfold leafKey
  split <;> simp_all

/-- The leaf pass queues the leaf keys and writes the leaves (R172). -/
theorem pushLeaves_eq {syms : List Nat} {s : State} (hroom : s.hp.length + syms.length ≤ heapCap) :
    ∃ hp, pushLeaves syms s = .ok () { s with hp := hp, nm := syms.foldl (addLeaf s.ft) s.nm } ∧
      hp.Perm (syms.filterMap (leafKey s.ft) ++ s.hp) := by
  induction syms generalizing s with
  | nil => exact ⟨s.hp, rfl, .refl _⟩
  | cons sym syms ih =>
    simp only [List.length_cons] at hroom
    by_cases hf : countGet s.ft sym = 0
    · obtain ⟨hp, hpush, hperm⟩ := ih (s := s) (by omega)
      refine ⟨hp, ?_, ?_⟩
      · rw [pushLeaves, if_pos hf, hpush, List.foldl_cons, addLeaf, if_pos hf]
      · rwa [List.filterMap_cons_none (leafKey_eq_none.2 hf)]
    · have hkey : leafKey s.ft sym = some (mkKey (countGet s.ft sym) (BitVec.ofNat 9 sym)) := if_neg hf
      generalize hk : mkKey (countGet s.ft sym) (BitVec.ofNat 9 sym) = k at hkey
      obtain ⟨hp, hpush, hperm⟩ := ih (s := { s with hp := heapPush k s.hp, nm := addLeaf s.ft s.nm sym })
        (by rw [length_heapPush]; omega)
      refine ⟨hp, ?_, ?_⟩
      · rw [pushLeaves, if_neg hf, hk, pushKey_room (by simp only; omega), bind_ok, List.foldl_cons, ← hpush, addLeaf,
          if_neg hf]
      · rw [List.filterMap_cons_some hkey, List.cons_append]
        exact hperm.trans (((heapPush_perm k s.hp).append_left _).trans List.perm_middle)

theorem storeGet_addLeaves (ft : Store Word32) (syms : List Nat) (nm : Store Node) (i : Nat) :
    storeGet (syms.foldl (addLeaf ft) nm) i =
      if i ∈ syms ∧ countGet ft i ≠ 0 then some ⟨countGet ft i, none⟩ else storeGet nm i := by
  induction syms generalizing nm with
  | nil => simp
  | cons sym syms ih =>
    rw [List.foldl_cons, ih]
    by_cases hi : i = sym
    · subst hi
      by_cases hf : countGet ft i = 0
      · simp only [addLeaf, hf, if_true, ne_eq, not_true_eq_false, and_false, if_false]
      · simp only [addLeaf, hf, if_false, ne_eq, not_false_eq_true, and_true, storeGet_storePut_same, List.mem_cons,
          true_or, if_true, ite_self]
    · have hkept : storeGet (addLeaf ft nm sym) i = storeGet nm i := by
        unfold addLeaf
        split
        · rfl
        · exact storeGet_storePut_other nm _ (Ne.symm hi)
      simp [hi, hkept]

/-- The leaf pass writes the leaf of each symbol that occurs, and nothing else (R172). -/
theorem storeGet_leafNodes (ft : Store Word32) {sym : Nat} (hsym : sym < 256) :
    storeGet (leafNodes ft) sym = if countGet ft sym = 0 then none else some ⟨countGet ft sym, none⟩ := by
  simp [leafNodes, storeGet_addLeaves, alphabetSize, hsym]

theorem addLeaves_of_leafKeys_nil {ft : Store Word32} {syms : List Nat} (h : syms.filterMap (leafKey ft) = [])
    (nm : Store Node) : syms.foldl (addLeaf ft) nm = nm := by
  induction syms with
  | nil => rfl
  | cons sym syms ih =>
    obtain ⟨hsym, hrest⟩ := List.forall_mem_cons.1 (List.filterMap_eq_nil_iff.1 h)
    rw [List.foldl_cons, addLeaf, if_pos (leafKey_eq_none.1 hsym)]
    exact ih (List.filterMap_eq_nil_iff.2 hrest)

/-- Without a symbol that occurs the leaf pass writes nothing. -/
theorem leafNodes_of_leafKeys_nil {ft : Store Word32} (h : leafKeys ft = []) : leafNodes ft = [] :=
  addLeaves_of_leafKeys_nil h []

theorem foldr_insertKey_perm (keys : List Key) : (keys.foldr insertKey []).Perm keys := by
  induction keys with
  | nil => exact .refl _
  | cons k keys ih => exact (insertKey_perm k _).trans (ih.cons k)

theorem foldr_insertKey_ascending (keys : List Key) : (keys.foldr insertKey []).Pairwise (· ≤ ·) := by
  induction keys with
  | nil => exact .nil
  | cons k keys ih => exact insertKey_ascending k ih

theorem RefinesList.perm {hp q : List Key} (h : RefinesList hp q) : hp.Perm q := h.2.1

theorem RefinesList.length_eq {hp q : List Key} (h : RefinesList hp q) : hp.length = q.length := h.perm.length_eq

theorem length_insertKey (k : Key) (q : List Key) : (insertKey k q).length = q.length + 1 :=
  (insertKey_perm k q).length_eq

/-! ### The merges -/

/-- A merge takes the two smallest keys of the list (R116, R172). -/
theorem mergeOnce_refines {s : State} {a b : Key} {rest : List Key} (hq : RefinesList s.hp (a :: b :: rest))
    (hcap : s.hp.length ≤ heapCap) :
    ∃ hp, mergeOnce s =
        .ok () { s with hp := hp, nint := s.nint + 1,
                        nm := storePut s.nm (nextInnerId s.nint).toNat
                          ⟨keyFreq a + keyFreq b, some (keyId a, keyId b)⟩ } ∧
      RefinesList hp (insertKey (mkKey (keyFreq a + keyFreq b) (nextInnerId s.nint)) rest) := by
  have hlen := hq.length_eq
  simp only [List.length_cons] at hlen
  obtain ⟨tl, hs⟩ := List.head?_eq_some_iff.1 hq.head?
  rw [hs] at hq
  have hq₁ := hq.pop
  obtain ⟨tl', hs'⟩ := List.head?_eq_some_iff.1 hq₁.head?
  rw [hs'] at hq₁
  have hq₂ := hq₁.pop
  have hroom := hq₂.length_eq
  simp only [List.tail_cons] at hroom
  refine ⟨_, ?_, hq₂.push _⟩
  rw [mergeOnce, topKey_cons hs, bind_ok, popKey_cons hs, bind_ok, topKey_cons hs', bind_ok, popKey_cons hs', bind_ok]
  exact pushKey_room (by simp only [hroom]; omega)

/-- The merge loop over the heap is the merges over the list, at every number of passes (R116, R172). -/
theorem mergeLoop_refines {fuel : Nat} {s : State} {q : List Key} (hq : RefinesList s.hp q)
    (hcap : s.hp.length ≤ heapCap) :
    ∃ hp, mergeLoop fuel s =
        .ok () { s with hp := hp, nint := (mergeSpec fuel q s.nint s.nm).2.1,
                        nm := (mergeSpec fuel q s.nint s.nm).2.2 } ∧
      RefinesList hp (mergeSpec fuel q s.nint s.nm).1 := by
  induction fuel generalizing s q with
  | zero => exact ⟨s.hp, by simp only [mergeLoop, mergeSpec], by simpa only [mergeSpec] using hq⟩
  | succ fuel ih =>
    have hlen := hq.length_eq
    match q with
    | [] | [_] =>
      exact ⟨s.hp, by rw [mergeLoop, if_pos (by rw [hlen]; simp)]; rfl, hq⟩
    | a :: b :: rest =>
      simp only [List.length_cons] at hlen
      obtain ⟨hp, hmerge, hq'⟩ := mergeOnce_refines hq hcap
      have hlen' := hq'.length_eq
      rw [length_insertKey] at hlen'
      obtain ⟨hp', hloop, hq''⟩ := ih hq' (s := { s with hp := hp, nint := _, nm := _ }) (by simp only; omega)
      refine ⟨hp', ?_, hq''⟩
      rw [mergeLoop, if_neg (by omega), hmerge, bind_ok, hloop]
      rfl

theorem mergeSpec_singleton (fuel : Nat) (k : Key) (nint : BitVec 9) (nm : Store Node) :
    mergeSpec fuel [k] nint nm = ([k], nint, nm) := by
  cases fuel <;> rfl

/-- The merges of a list that is not empty leave one key; they make one internal node less than there are keys, the last one
the root, and write no leaf (R27, R172). -/
theorem mergeSpec_result {fuel : Nat} {q : List Key} {nint : BitVec 9} (nm : Store Node) (hfuel : q.length ≤ fuel + 1)
    (hpos : q ≠ []) (hroom : nint.toNat + q.length ≤ 256) :
    ∃ k nint' nm', mergeSpec fuel q nint nm = ([k], nint', nm') ∧ nint'.toNat + 1 = nint.toNat + q.length ∧
      (∀ i < 256, storeGet nm' i = storeGet nm i) ∧ (2 ≤ q.length → (keyId k).toNat = 255 + nint'.toNat) := by
  induction fuel generalizing q nint nm with
  | zero =>
    have hlen := List.length_pos_of_ne_nil hpos
    obtain ⟨k, rfl⟩ := List.length_eq_one_iff.1 (show q.length = 1 by omega)
    exact ⟨k, nint, nm, rfl, rfl, fun _ _ => rfl, fun h => by simp at h⟩
  | succ fuel ih =>
    match q with
    | [] => exact absurd rfl hpos
    | [k] => exact ⟨k, nint, nm, rfl, rfl, fun _ _ => rfl, fun h => by simp at h⟩
    | a :: b :: rest =>
      simp only [List.length_cons] at hfuel hroom
      have hone := toNat_add_one (nint := nint) (by omega)
      have hid := toNat_nextInnerId (nint := nint) (by omega)
      have hlen := length_insertKey (mkKey (keyFreq a + keyFreq b) (nextInnerId nint)) rest
      obtain ⟨k, nint', nm', hspec, hcount, hleaves, hroot⟩ :=
        ih (q := insertKey (mkKey (keyFreq a + keyFreq b) (nextInnerId nint)) rest) (nint := nint + 1)
          (storePut nm (nextInnerId nint).toNat ⟨keyFreq a + keyFreq b, some (keyId a, keyId b)⟩) (by omega)
          (List.ne_nil_of_length_pos (by omega)) (by omega)
      refine ⟨k, nint', nm', hspec, by simp only [List.length_cons]; omega, fun i hi => ?_, fun _ => ?_⟩
      · rw [hleaves i hi, storeGet_storePut_other _ _ (by omega)]
      · cases rest with
        | nil =>
          rw [insertKey, mergeSpec_singleton] at hspec
          cases hspec
          rw [keyId_mkKey]
          omega
        | cons c rest => exact hroot (by rw [hlen, List.length_cons]; omega)

/-! ### Building -/

/-- The root of the last tree is the key the merges over the list leave (R172). -/
theorem finishTree_refines {s : State} {n : Nat} {q : List Key} {k : Key} {nint : BitVec 9} {nm : Store Node}
    (hq : RefinesList s.hp q) (hlen : s.hp.length = n) (hcap : n ≤ heapCap) (hpos : n ≠ 0)
    (hspec : mergeSpec n q s.nint s.nm = ([k], nint, nm)) :
    finishTree s = .ok () { s with hp := [], nint := nint, nm := nm, root := keyId k, rootValid := true } := by
  obtain ⟨hp, hloop, hq'⟩ := mergeLoop_refines (fuel := n) hq (hlen.trans_le hcap)
  rw [hspec] at hloop hq'
  obtain rfl : hp = [k] := List.perm_singleton.1 hq'.2.1
  rw [finishTree, hlen, if_neg hpos, hloop, bind_ok, topKey_cons rfl, bind_ok, popKey_cons rfl, bind_ok]
  rfl

theorem length_leafKeys_le (ft : Store Word32) : (leafKeys ft).length ≤ heapCap :=
  (List.length_filterMap_le ..).trans_eq List.length_range

/-- The leaf pass of `TbBuild` from the empty queue (R172). -/
theorem pushLeaves_refines (s : State) :
    ∃ hp, pushLeaves (List.range alphabetSize) { clearTree s with hp := [] } =
        .ok () { s with hp := hp, nm := leafNodes s.ft, nint := 0, rootValid := false } ∧
      RefinesList hp ((leafKeys s.ft).foldr insertKey []) := by
  obtain ⟨hp, hpush, hperm⟩ := pushLeaves_eq (syms := List.range alphabetSize) (s := { clearTree s with hp := [] })
    (by simp [alphabetSize, heapCap])
  have hinv := (pushLeaves_queueInv (List.range alphabetSize) (queueInv_of_hp_nil rfl)).1 _ _ hpush
  rw [List.append_nil] at hperm
  exact ⟨hp, hpush, hinv.2, hperm.trans (foldr_insertKey_perm _).symm, foldr_insertKey_ascending _⟩

/-- Without a symbol that occurs, `TbBuild` leaves the sentinel leaf (R172, R174). -/
theorem buildTree_of_leafKeys_nil {s : State} (h : leafKeys s.ft = []) :
    buildTree s =
      .ok () { s with hp := [], nm := [(0, ⟨0, none⟩)], nint := 0, root := 0, rootValid := true } := by
  obtain ⟨hp, hpush, hq⟩ := pushLeaves_refines s
  obtain rfl : hp = [] := by
    rw [h] at hq
    exact hq.perm.eq_nil
  rw [buildTree, hpush, bind_ok, leafNodes_of_leafKeys_nil h]
  rfl

/-- With symbols that occur, `TbBuild` leaves what the merges over the ascending list of their keys leave (R116, R172). -/
theorem buildTree_of_leafKeys {s : State} (h : leafKeys s.ft ≠ []) :
    ∃ k nint nm,
      mergeSpec (leafKeys s.ft).length ((leafKeys s.ft).foldr insertKey []) 0 (leafNodes s.ft) = ([k], nint, nm) ∧
      buildTree s = .ok () { s with hp := [], nm := nm, nint := nint, root := keyId k, rootValid := true } ∧
      nint.toNat + 1 = (leafKeys s.ft).length ∧
      (∀ i < 256, storeGet nm i = storeGet (leafNodes s.ft) i) ∧
      (2 ≤ (leafKeys s.ft).length → (keyId k).toNat = 255 + nint.toNat) := by
  obtain ⟨hp, hpush, hq⟩ := pushLeaves_refines s
  have hlist : ((leafKeys s.ft).foldr insertKey []).length = (leafKeys s.ft).length :=
    (foldr_insertKey_perm _).length_eq
  have hlen : hp.length = (leafKeys s.ft).length := hq.length_eq.trans hlist
  have hpos := List.length_pos_of_ne_nil h
  have hcap := length_leafKeys_le s.ft
  obtain ⟨k, nint, nm, hspec, hcount, hleaves, hroot⟩ :=
    mergeSpec_result (fuel := (leafKeys s.ft).length) (nint := 0) (leafNodes s.ft)
      (hlist.trans_le (Nat.le_succ _)) (List.ne_nil_of_length_pos (hlist ▸ hpos))
      (by rw [hlist]; exact (Nat.zero_add _).trans_le hcap)
  rw [hlist] at hcount hroot
  refine ⟨k, nint, nm, hspec, ?_, by simpa using hcount, hleaves, hroot⟩
  rw [buildTree, hpush, bind_ok]
  exact finishTree_refines hq hlen hcap hpos.ne' (by dsimp only; exact hspec)

/-- Settles O33: the merge loop over the heap refines the merges over the ascending list. -/
theorem buildMergesTheTwoSmallest : Obligations.BuildMergesTheTwoSmallest := by
  intro s t herr hexec hkeys
  obtain ⟨k, nint, nm, hspec, hbuild, -⟩ := buildTree_of_leafKeys hkeys
  rw [exec_of_unit_rule rfl herr rfl hbuild herr] at hexec
  cases hexec
  exact ⟨k, hspec, rfl⟩

/-- Settles O32: the forest that is built meets the tree invariants, and the merges over the ascending list count its nodes,
keep its leaves and make its root last. -/
theorem buildMakesATree : Obligations.BuildMakesATree := by
  intro s herr
  obtain ⟨t, ht, hok⟩ := buildTree_treeOk s
  by_cases hkeys : leafKeys s.ft = []
  · have hbuild := buildTree_of_leafKeys_nil hkeys
    rw [hbuild] at ht
    cases ht
    exact ⟨_, _, _, exec_of_unit_rule rfl herr rfl hbuild herr, hok, fun h => absurd hkeys h,
      fun _ => ⟨rfl, rfl, rfl⟩⟩
  · obtain ⟨k, nint, nm, -, hbuild, hcount, hleaves, hroot⟩ := buildTree_of_leafKeys hkeys
    rw [hbuild] at ht
    cases ht
    refine ⟨nm, nint, keyId k, exec_of_unit_rule rfl herr rfl hbuild herr, hok,
      fun _ => ⟨fun sym hsym => ?_, hcount, fun h2 => ?_⟩, fun h => absurd h hkeys⟩
    · rw [hleaves sym hsym, storeGet_leafNodes s.ft hsym]
    · rw [hroot h2]
      omega

end Sys2Proof.Machine
end

section
/-! SUPPORT. TD_DESERIALIZE (spec/44_tree_builder.md R181): the forest it grows is spelt by the bits it reads, so it goes
through exactly on the serialization of a tree with distinct symbols (spec/30_encoding.md R101, R107), and it reads back
what TS_SERIALIZE wrote (R184). -/

namespace Sys2Proof.Machine

/-! ### What holds while `Des` runs -/

/-- What `Des` keeps (R181): node memory holds a forest whose frequencies are 0, the bit reader is in range, and no channel
access fails. -/
structure Parsing (s : State) (xs : List Shape) : Prop where
  forest : Forest s xs
  freq : ∀ e ∈ s.nm, e.2.freq = 0
  reader : ReaderOk s
  io : s.io = []

/-- `Des` starts from cleared node memory (R181). -/
theorem parsing_clearTree {s : State} (hio : s.io = []) (hr : ReaderOk s) : Parsing (clearTree s) [] where
  forest := forest_nil rfl rfl
  freq := by simp
  reader := hr
  io := hio

/-- Reading bits leaves the forest. -/
theorem Parsing.read {s : State} {xs : List Shape} (h : Parsing s xs) {rbuf : Byte} {rcnt : BitVec 4} {src : List Byte}
    (hr : rcnt.toNat ≤ 7) : Parsing { s with rbuf := rbuf, rcnt := rcnt, src := src } xs where
  forest := h.forest.congr rfl rfl
  freq := h.freq
  reader := hr
  io := h.io

theorem Parsing.swap {s : State} {x y : Shape} {xs : List Shape} (h : Parsing s (x :: y :: xs)) :
    Parsing s (y :: x :: xs) :=
  { h with forest := h.forest.perm (.swap ..) }

/-- The nodes `Des` makes have frequency 0 (R181). -/
theorem Parsing.nodeFreq_eq_zero {s : State} {xs : List Shape} (h : Parsing s xs) (id : NodeId) : nodeFreq s id = 0 := by
  unfold nodeFreq
  split
  next n hn => exact h.freq _ (mem_of_storeGet hn)
  next => rfl

/-- Two trees without a common node are joined (R181). -/
theorem Parsing.makeInner_ok {s : State} {l r : Shape} {xs : List Shape} (h : Parsing s (l :: r :: xs)) :
    ∃ t, makeInner l.root r.root s = .ok (nextInnerId s.nint) t ∧
      Parsing t (.node (nextInnerId s.nint) l r :: xs) ∧ unread t = unread s := by
  refine ⟨_, rfl, ⟨h.forest.putInner _, fun e he => ?_, h.reader, h.io⟩, rfl⟩
  rcases mem_storePut he with rfl | he
  · rw [h.nodeFreq_eq_zero, h.nodeFreq_eq_zero]
    rfl
  · exact h.freq e he

/-- A node id below 256 of a tree that node memory holds is a symbol of the tree. -/
theorem mem_symbols_of_mem_ids {nm : Store Node} {x : Shape} (hx : x.In nm) {sym : Byte} (h : sym.toNat ∈ x.ids) :
    sym ∈ treeSymbols x.tree := by
  induction x with
  | leaf a => exact List.mem_singleton.2 (BitVec.eq_of_toNat_eq (List.mem_singleton.1 h))
  | node id l r ihl ihr =>
    obtain ⟨hid, -, hl, hr⟩ := hx
    have hsym := sym.isLt
    rcases List.mem_cons.1 h with hroot | h
    · omega
    · exact List.mem_append.2 ((List.mem_append.1 h).imp (ihl hl) (ihr hr))

/-- The valid leaves are the symbols of the forest. -/
theorem Forest.leafValid_iff {s : State} {xs : List Shape} (h : Forest s xs) {sym : Byte} :
    nodeValid s.nm sym.toNat ↔ sym ∈ forestSymbols xs := by
  refine (h.valid _).trans ⟨fun hid => ?_, fun hsym => ?_⟩
  · obtain ⟨x, hx, hid⟩ := List.mem_flatMap.1 hid
    exact List.mem_flatMap.2 ⟨x, hx, mem_symbols_of_mem_ids (h.held x hx) hid⟩
  · exact (forestSymbols_sublist xs).subset (List.mem_map_of_mem hsym)

theorem forestSymbols_cons (x : Shape) (xs : List Shape) :
    forestSymbols (x :: xs) = treeSymbols x.tree ++ forestSymbols xs := rfl

/-- A forest of one tree is read as that tree once its root is in `ROOT` (R35). -/
theorem Forest.tree_eq {s t : State} {x : Shape} (h : Forest s [x]) (hnm : t.nm = s.nm) (hroot : t.root = x.root) :
    t.tree = some x.tree := by
  have hdepth : treeDepth x.tree ≤ nodeMemSize := by
    have hsyms := length_le_of_nodup h.symbols_nodup
    rw [forestSymbols_cons, forestSymbols, List.flatMap_nil, List.append_nil] at hsyms
    exact ((treeDepth_le_length _).2.trans hsyms).trans (by decide)
  rw [State.tree, hroot, hnm, treeAt_of_in (h.held x (List.mem_singleton_self x)) hdepth]

/-! ### Bits read while `Des` runs -/

theorem Parsing.getBit_ok {s : State} {xs : List Shape} (h : Parsing s xs) {b : Bool} {rest : List Bool}
    (hu : unread s = b :: rest) : ∃ t, getBit s = .ok b t ∧ Parsing t xs ∧ unread t = rest := by
  obtain ⟨rbuf, rcnt, src, hget, hr, hrest⟩ := getBit_unread h.io h.reader hu
  exact ⟨_, hget, h.read hr, hrest⟩

/-- The leaf of a symbol that has none yet is read and written (R181). -/
theorem Parsing.readLeaf_ok {s : State} {xs : List Shape} (h : Parsing s xs) {sym : Byte} {rest : List Bool}
    (hu : unread s = bitsMsb sym ++ rest) (hfresh : sym ∉ forestSymbols xs) :
    ∃ t, readLeaf s = .ok (leafId sym) t ∧ Parsing t (.leaf sym :: xs) ∧ unread t = rest := by
  obtain ⟨rbuf, rcnt, src, hget, hr, hrest⟩ := getBits_bitsMsb sym h.io h.reader hu
  have hnew : ¬ nodeValid s.nm sym.toNat := mt h.forest.leafValid_iff.1 hfresh
  have hread := h.read (rbuf := rbuf) (src := src) hr
  refine ⟨{ s with rbuf := rbuf, rcnt := rcnt, src := src, nm := storePut s.nm sym.toNat ⟨0, none⟩ }, ?_,
    ⟨hread.forest.putLeaf 0 hnew, fun e he => ?_, hr, h.io⟩, hrest⟩
  · rw [readLeaf, getByte, hget, bind_ok]
    exact if_neg hnew
  · rcases mem_storePut he with rfl | he
    · rfl
    · exact h.freq e he

/-! ### A serialized tree is read -/

/-- `Des` reads a tree within its levels whose symbols are distinct and new: it adds the tree to the forest and consumes
exactly its bits (R101, R181). -/
theorem Parsing.deserialize_reads {tr : Tree} {levels : Nat} {s : State} {xs : List Shape} {rest : List Bool}
    (h : Parsing s xs) (hu : unread s = treeBits tr ++ rest) (hdepth : treeDepth tr ≤ levels)
    (hnodup : (treeSymbols tr ++ forestSymbols xs).Nodup) :
    ∃ x t, deserialize levels s = .ok x.root t ∧ Parsing t (x :: xs) ∧ x.tree = tr ∧ unread t = rest := by
  induction tr generalizing levels s xs rest with
  | leaf sym =>
    obtain ⟨levels, rfl⟩ := Nat.exists_eq_succ_of_ne_zero (Nat.ne_zero_of_lt hdepth)
    obtain ⟨t, hflag, ht, hut⟩ := h.getBit_ok hu
    obtain ⟨u, hleaf, hparse, hrest⟩ := ht.readLeaf_ok hut (List.nodup_cons.1 hnodup).1
    exact ⟨.leaf sym, u, by rw [deserialize, hflag, bind_ok, if_pos rfl, hleaf]; rfl, hparse, rfl, hrest⟩
  | node l r ihl ihr =>
    obtain ⟨levels, rfl⟩ := Nat.exists_eq_succ_of_ne_zero (Nat.ne_zero_of_lt hdepth)
    obtain ⟨hdl, hdr⟩ := Nat.max_le.1 (Nat.le_of_succ_le_succ hdepth)
    rw [treeSymbols, List.append_assoc] at hnodup
    rw [treeBits, List.cons_append, List.append_assoc] at hu
    obtain ⟨t, hflag, ht, hut⟩ := h.getBit_ok hu
    obtain ⟨x, u, hx, hpu, rfl, hrestl⟩ := ihl ht hut hdl
      (hnodup.sublist ((List.sublist_append_right _ _).append_left _))
    have hnodup' : (treeSymbols r ++ forestSymbols (x :: xs)).Nodup := by
      rw [forestSymbols_cons]
      exact List.perm_append_comm_assoc .. |>.nodup_iff.1 hnodup
    obtain ⟨y, v, hy, hv, rfl, hrestr⟩ := ihr hpu hrestl hdr hnodup'
    obtain ⟨w, hnode, hw, hrest⟩ := hv.swap.makeInner_ok
    refine ⟨_, w, ?_, hw, rfl, hrest.trans hrestr⟩
    rw [deserialize, hflag, bind_ok, if_neg Bool.false_ne_true, hx, bind_ok, hy, bind_ok, hnode]
    rfl

/-- TD_DESERIALIZE of a serialized tree with distinct symbols makes it the current tree (R101, R181). -/
theorem deserializeTree_reads {s : State} {tr : Tree} {rest : List Bool} (hio : s.io = []) (hr : ReaderOk s)
    (hnodup : (treeSymbols tr).Nodup) (hu : unread s = treeBits tr ++ rest) :
    ∃ x rbuf rcnt src nm nint,
      deserializeTree s = .ok () { s with rbuf := rbuf, rcnt := rcnt, src := src, nm := nm, nint := nint,
                                          root := x.root, rootValid := true } ∧
      Parsing { s with rbuf := rbuf, rcnt := rcnt, src := src, nm := nm, nint := nint } [x] ∧ x.tree = tr ∧
      unread { s with rbuf := rbuf, rcnt := rcnt, src := src } = rest := by
  have hdepth : treeDepth tr ≤ depthMax := (treeDepth_le_length tr).2.trans (length_le_of_nodup hnodup)
  obtain ⟨x, t, hdes, ht, htree, hrest⟩ := (parsing_clearTree hio hr).deserialize_reads hu hdepth
    (by rwa [forestSymbols, List.flatMap_nil, List.append_nil])
  have hframe := (deserialize_frame depthMax (clearTree s)).1 _ t hdes
  have hsame : t.io = s.io := ht.io.trans hio.symm
  obtain ⟨rbuf, rcnt, src, nm, nint, rfl⟩ : ∃ rbuf rcnt src nm nint, t =
      { s with rbuf := rbuf, rcnt := rcnt, src := src, nm := nm, nint := nint, rootValid := false } :=
    ⟨_, _, _, _, _, Eq.trans hframe (by rw [hsame]; rfl)⟩
  refine ⟨x, rbuf, rcnt, src, nm, nint, ?_, ⟨ht.forest.congr rfl rfl, ht.freq, ht.reader, hio⟩, htree, hrest⟩
  rw [deserializeTree, hdes, bind_ok, promote_ok]

/-- Settles O35: the forest `Des` grows from nothing is the tree its bits spell. -/
theorem deserializeReadsTheTree : Obligations.DeserializeReadsTheTree := by
  intro s tr rest herr hio hr hnodup hu
  obtain ⟨x, rbuf, rcnt, src, nm, nint, hdes, hparse, rfl, hrest⟩ := deserializeTree_reads hio hr hnodup hu
  exact ⟨rbuf, rcnt, src, nm, nint, x.root, exec_of_unit_rule rfl herr rfl hdes herr, hparse.forest.tree_eq rfl rfl,
    hparse.forest.treeOk rfl rfl rfl, hparse.freq, hparse.reader, hrest⟩

/-! ### Nothing else is read -/

/-- The rule raises what is CorruptStream outside the decode boundary, with the nodes made so far standing (R181, R256). -/
def Refuses {α : Type} (r : Res α) : Prop :=
  ∃ e t xs, r = .raised e t ∧ e ∈ [.endOfStream, .corruptStream] ∧ Parsing t xs

theorem Refuses.bind {α β : Type} {r : Res α} (h : Refuses r) (f : α → State → Res β) : Refuses (r.bind f) := by
  obtain ⟨e, t, xs, rfl, he, ht⟩ := h
  exact ⟨e, t, xs, rfl, he, ht⟩

theorem promote_of_mem {α : Type} {e : ErrorKind} (he : e ∈ [.endOfStream, .corruptStream]) (t : State) :
    promote (.raised e t : Res α) = .raised .corruptStream t := by
  simp only [List.mem_cons, List.not_mem_nil, or_false] at he
  rcases he with rfl | rfl <;> rfl

theorem bitsMsb_ofBoolListBE (bits : List Bool) : bitsMsb (BitVec.ofBoolListBE bits) = bits := by
  apply List.ext_getElem (length_bitsMsb _)
  intro i _ hi
  simp [bitsMsb, BitVec.getMsbD_ofBoolListBE, hi]

/-- As many bits as a value has are the bits of some value (R63). -/
theorem exists_bitsMsb {w : Nat} {bits : List Bool} (h : bits.length = w) : ∃ v : BitVec w, bitsMsb v = bits := by
  subst h
  exact ⟨_, bitsMsb_ofBoolListBE bits⟩

/-- A flag bit is there, or the stream has ended (R181). -/
theorem Parsing.getBit_cases {s : State} {xs : List Shape} (h : Parsing s xs) :
    (∃ b t, getBit s = .ok b t ∧ Parsing t xs ∧ unread s = b :: unread t) ∨ Refuses (getBit s) := by
  cases hu : unread s with
  | nil => exact .inr ⟨_, s, xs, getBit_end h.io hu, List.mem_cons_self .., h⟩
  | cons b rest =>
    obtain ⟨t, hget, ht, rfl⟩ := h.getBit_ok hu
    exact .inl ⟨b, t, hget, ht, rfl⟩

/-- Everything the leaf branch can do (R181): a new leaf, the end of the stream, or a repeated symbol. -/
theorem Parsing.readLeaf_cases {s : State} {xs : List Shape} (h : Parsing s xs) :
    (∃ sym t, readLeaf s = .ok (leafId sym) t ∧ Parsing t (.leaf sym :: xs) ∧ unread s = bitsMsb sym ++ unread t) ∨
      Refuses (readLeaf s) := by
  by_cases hlen : (unread s).length < 8
  · obtain ⟨rbuf, hend⟩ := getBits_end (0 : Byte) h.io h.reader hlen
    exact .inr (Refuses.bind ⟨_, _, xs, hend, List.mem_cons_self .., h.read (Nat.zero_le _)⟩ _)
  obtain ⟨sym, hsym⟩ := exists_bitsMsb (List.length_take_of_le (Nat.le_of_not_lt hlen))
  have hu : unread s = bitsMsb sym ++ (unread s).drop 8 := by rw [hsym, List.take_append_drop]
  by_cases hfresh : sym ∈ forestSymbols xs
  · obtain ⟨rbuf, rcnt, src, hget, hr, -⟩ := getBits_bitsMsb sym h.io h.reader hu
    refine .inr ⟨.corruptStream, _, xs, ?_, by simp, h.read (rbuf := rbuf) (src := src) hr⟩
    rw [readLeaf, getByte, hget, bind_ok]
    exact if_pos (h.forest.leafValid_iff.2 hfresh)
  · obtain ⟨t, hleaf, ht, hrest⟩ := h.readLeaf_ok hu hfresh
    exact .inl ⟨sym, t, hleaf, ht, hrest ▸ hu⟩

/-- Everything `Des` can do (R181): it adds a tree whose serialization it consumed, or refuses the stream. -/
theorem Parsing.deserialize_cases {levels : Nat} {s : State} {xs : List Shape} (h : Parsing s xs) :
    (∃ x t, deserialize levels s = .ok x.root t ∧ Parsing t (x :: xs) ∧ unread s = treeBits x.tree ++ unread t) ∨
      Refuses (deserialize levels s) := by
  induction levels generalizing s xs with
  | zero => exact .inr ⟨.corruptStream, s, xs, rfl, by simp, h⟩
  | succ levels ih =>
    rw [deserialize]
    rcases h.getBit_cases with ⟨flag, t, hflag, ht, hu⟩ | hend
    · rw [hflag, bind_ok]
      cases flag with
      | true =>
        rw [if_pos rfl]
        refine ht.readLeaf_cases.imp_left fun ⟨sym, u, hleaf, hparse, hut⟩ => ⟨.leaf sym, u, hleaf, hparse, ?_⟩
        rw [hu, hut]
        rfl
      | false =>
        rw [if_neg Bool.false_ne_true]
        rcases ih ht with ⟨x, u, hx, hpu, hut⟩ | hl
        · rcases ih hpu with ⟨y, v, hy, hv, huv⟩ | hr
          · obtain ⟨w, hnode, hw, huw⟩ := hv.swap.makeInner_ok
            refine .inl ⟨_, w, ?_, hw, ?_⟩
            · rw [hx, bind_ok, hy, bind_ok, hnode]
              rfl
            · rw [hu, hut, huv, huw]
              simp [treeBits]
          · rw [hx, bind_ok]
            exact .inr (hr.bind _)
        · exact .inr (hl.bind _)
    · exact .inr (hend.bind _)

/-- A stream that does not begin with the serialization of a tree with distinct symbols is CorruptStream; the nodes made
before the error stand, and there is no current tree (R107, R181, R256). -/
theorem deserializeTree_cases {s : State} (hio : s.io = []) (hr : ReaderOk s) :
    (∃ (tr : Tree) (rest : List Bool), (treeSymbols tr).Nodup ∧ unread s = treeBits tr ++ rest) ∨
      ∃ t xs, deserializeTree s = .raised .corruptStream t ∧ Parsing t xs ∧ t.rootValid = false ∧ t.rsp = s.rsp := by
  rcases (parsing_clearTree hio hr).deserialize_cases (levels := depthMax) with
    ⟨x, t, -, ht, hu⟩ | ⟨e, t, xs, hdes, he, ht⟩
  · exact .inl ⟨x.tree, unread t, by simpa [forestSymbols] using ht.forest.symbols_nodup, hu⟩
  · have hframe := (deserialize_frame depthMax (clearTree s)).2 e t hdes
    unfold ParseFrame at hframe
    exact .inr ⟨t, xs, by rw [deserializeTree, hdes, bind_raised, promote_of_mem he], ht, by rw [hframe]; rfl,
      by rw [hframe]; rfl⟩

/-- Settles O36: what `Des` reads is a tree with distinct symbols, and every such tree is read. -/
theorem deserializeAcceptsExactlyTrees : Obligations.DeserializeAcceptsExactlyTrees := by
  intro s herr hio hr
  rcases deserializeTree_cases hio hr with ⟨tr, rest, hnodup, hu⟩ | ⟨t, xs, hrefused, ht, hv, hrsp⟩
  · obtain ⟨x, rbuf, rcnt, src, nm, nint, hdes, -⟩ := deserializeTree_reads hio hr hnodup hu
    exact ⟨_, exec_of_unit_rule rfl herr rfl hdes herr, iff_of_true herr ⟨tr, rest, hnodup, hu⟩,
      fun h => absurd herr h⟩
  · have hexec : exec .tdDeserialize s = .next (takeError .corruptStream t) :=
      exec_of_rule_raised herr rfl (by rw [ruleOf, hrefused, noResult_raised])
    refine ⟨_, hexec, iff_of_false nofun ?_, fun _ => ⟨rfl, hv, ?_, (ht.forest.congr rfl rfl).nodes, ht.freq⟩⟩
    · rintro ⟨tr, rest, hnodup, hu⟩
      obtain ⟨x, rbuf, rcnt, src, nm, nint, hdes, -⟩ := deserializeTree_reads hio hr hnodup hu
      rw [hrefused] at hdes
      cases hdes
    · rw [takeError_rsp, hrsp]

/-! ### The round trip -/

/-- TS_SERIALIZE from an empty buffer and BW_CLOSE append bytes that carry the bits of the tree and the zero bits that
complete them (R101, R180, R134). -/
theorem execAll_serialize_close {s : State} {tr : Tree} (herr : s.err = none) (hio : s.io = []) (hcnt : s.wcnt = 0)
    (hbuf : s.wbuf = 0) (hv : s.rootValid = true) (htree : s.tree = some tr) :
    ∃ t bytes, execAll [.tsSerialize, .bwClose] s = .next t ∧ t.snk = s.snk ++ bytes ∧
      bitsOfBytes bytes = treeBits tr ++ padding (treeBits tr).length := by
  obtain ⟨wbuf, wcnt, bytes, hput, hw, hbits⟩ :=
    serializeTree_written hio hv htree (by rw [WriterOk, hcnt, hbuf]; decide)
  have hserialize := exec_of_unit_rule (i := .tsSerialize) rfl herr rfl hput herr
  obtain ⟨bytes', rsp, hclose, hstream⟩ := execAll_writes_close (is := []) nofun
    (s := { s with wbuf := wbuf, wcnt := wcnt, snk := s.snk ++ bytes, rsp := s.rsp ++ [0] }) herr hio hw
  refine ⟨_, bytes ++ bytes', by rw [execAll, hserialize]; exact hclose, List.append_assoc .., ?_⟩
  have hwritten : written { s with wbuf := wbuf, wcnt := wcnt, snk := s.snk ++ bytes, rsp := s.rsp ++ [0] } =
      bitsOfBytes s.snk ++ treeBits tr := by
    refine hbits.trans ?_
    simp [written, hcnt]
  have hpad : padding (bitsOfBytes s.snk ++ treeBits tr).length = padding (treeBits tr).length :=
    padding_congr (by simp)
  rw [hwritten, bitsOfRun, List.flatMap_nil, List.append_nil, hpad, List.append_assoc, bitsOfBytes_append,
    List.append_assoc] at hstream
  exact List.append_cancel_left hstream

/-- Settles O37: the bytes written and closed carry the bits of the tree and their padding, which TD_DESERIALIZE reads. -/
theorem treeRoundTrip : Obligations.TreeRoundTrip := by
  intro s t r bytes herr hio hcnt hbuf hv hok hexec hsnk hrerr hrio hrcnt hrsrc
  obtain ⟨-, ⟨tr, htree, -, hnodup, -⟩, -⟩ := hok
  obtain ⟨t', bytes', hexec', hsnk', hbits⟩ := execAll_serialize_close herr hio hcnt hbuf hv htree
  obtain rfl : t' = t := by
    rw [hexec'] at hexec
    injection hexec
  obtain rfl : bytes' = bytes := List.append_cancel_left (hsnk'.symm.trans hsnk)
  have hu : unread r = treeBits tr ++ padding (treeBits tr).length := by
    rw [unread, hrcnt, hrsrc]
    exact hbits
  have hr : ReaderOk r := by rw [ReaderOk, hrcnt]; exact Nat.zero_le 7
  obtain ⟨rbuf, rcnt, src, nm, nint, root, hread, htree', -⟩ := deserializeReadsTheTree r tr _ hrerr hrio hr hnodup hu
  exact ⟨_, hread, hrerr, rfl, htree'.trans htree.symm⟩

end Sys2Proof.Machine
end

section
/-! SUPPORT. CT_DERIVE and ENC_EMIT (spec/45_encoder.md R201, R202): the codes bound are the paths to the leaves, and
emitting an input is the bit writer on its codes. -/

namespace Sys2Proof.Machine

/-! ### The codes of a tree -/

/-- Exactly the symbols of the leaves have a path (R103). -/
theorem treePath_eq_none_iff {t : Tree} {b : Byte} : treePath t b = none ↔ b ∉ treeSymbols t := by
  induction t with
  | leaf sym => simp [treePath, treeSymbols, eq_comm]
  | node l r ihl ihr =>
    rw [treeSymbols, List.mem_append, not_or, ← ihl, ← ihr, treePath]
    cases treePath l b <;> simp

/-- The path of a symbol ends at its leaf (R103). -/
theorem leafAt_of_treePath {t : Tree} {b : Byte} {p : List Bool} (h : treePath t b = some p) : leafAt t p = some b := by
  induction t generalizing p with
  | leaf sym =>
    obtain ⟨rfl, rfl⟩ : sym = b ∧ [] = p := by simpa [treePath] using h
    rfl
  | node l r ihl ihr =>
    rw [treePath] at h
    cases hl : treePath l b with
    | some q =>
      rw [hl] at h
      cases h
      exact ihl hl
    | none =>
      rw [hl] at h
      obtain ⟨q, hq, rfl⟩ := Option.map_eq_some_iff.1 h
      exact ihr hq

/-- A tree gives a code to exactly the symbols of its leaves (R201). -/
theorem treeCode_ne_nil_iff {t : Tree} {b : Byte} : treeCode t b ≠ [] ↔ b ∈ treeSymbols t := by
  cases t with
  | leaf sym => simp [treeCode, treeSymbols, eq_comm]
  | node l r =>
    rw [treeCode, ← not_iff_not (b := b ∈ _), not_not, ← treePath_eq_none_iff]
    cases hp : treePath (.node l r) b with
    | none => simp
    | some p =>
      have hleaf := leafAt_of_treePath hp
      cases p with
      | nil => cases hleaf
      | cons bit p => simp

/-- With at least two leaves, the code of a symbol is the path to its leaf (R201). -/
theorem leafAt_treeCode {l r : Tree} {b : Byte} (h : b ∈ treeSymbols (.node l r)) :
    leafAt (.node l r) (treeCode (.node l r) b) = some b := by
  obtain ⟨p, hp⟩ := Option.ne_none_iff_exists'.1 (mt treePath_eq_none_iff.1 (not_not.2 h))
  rw [treeCode, hp, Option.getD_some]
  exact leafAt_of_treePath hp

/-- No code of a tree begins the code of another symbol (R200, R201). -/
theorem eq_of_treeCode_prefix {t : Tree} {a b : Byte} (ha : treeCode t a ≠ []) (h : treeCode t a <+: treeCode t b) :
    a = b := by
  have hb : treeCode t b ≠ [] := fun hnil => ha (List.prefix_nil.1 (hnil ▸ h))
  rw [treeCode_ne_nil_iff] at ha hb
  cases t with
  | leaf sym => exact (List.mem_singleton.1 ha).trans (List.mem_singleton.1 hb).symm
  | node l r =>
    obtain ⟨tail, htail⟩ := h
    have hleafA := leafAt_treeCode ha
    have hleafB := leafAt_treeCode hb
    rw [← htail] at hleafB
    rw [leafAt_append hleafA hleafB, List.append_nil, hleafA] at hleafB
    exact Option.some.inj hleafB

/-- A tree with distinct symbols gives codes of at most 255 bits (R34 (f), R201). -/
theorem length_treeCode_le {t : Tree} (hnodup : (treeSymbols t).Nodup) (b : Byte) : (treeCode t b).length ≤ 255 := by
  by_cases hb : b ∈ treeSymbols t
  · cases t with
    | leaf sym =>
      obtain rfl := List.mem_singleton.1 hb
      simp [treeCode]
    | node l r =>
      have hpath := length_lt_treeDepth (leafAt_treeCode hb)
      have hdepth := (treeDepth_le_length (.node l r)).2.trans (length_le_of_nodup hnodup)
      omega
  · simp [not_not.1 (mt treeCode_ne_nil_iff.1 hb)]

/-- `Walk` over a tree with distinct symbols binds each to its path after the path walked so far, and leaves every other
code as it was (R201). -/
theorem storeGet_walkCodes {t : Tree} (hnodup : (treeSymbols t).Nodup) (path : List Bool) (ct : Store (List Bool))
    (b : Byte) :
    storeGet (walkCodes t path ct) b.toNat = ((treePath t b).map (path ++ ·)).or (storeGet ct b.toNat) := by
  induction t generalizing path ct with
  | leaf sym =>
    rw [walkCodes, storeGet_storePut, treePath]
    by_cases h : sym = b
    · simp [h]
    · simp [h, BitVec.toNat_inj]
  | node l r ihl ihr =>
    obtain ⟨hl, hr, hdisj⟩ := List.nodup_append.1 hnodup
    rw [walkCodes, ihr hr, ihl hl, treePath]
    cases hpl : treePath l b with
    | none => simp [Function.comp_def]
    | some p =>
      have hmem : b ∈ treeSymbols l := not_not.1 (mt treePath_eq_none_iff.2 (by simp [hpl]))
      have hpr : treePath r b = none := treePath_eq_none_iff.2 fun hmr => hdisj b hmem b hmr rfl
      simp [hpr]

/-- The code table of a tree with distinct symbols holds the codes of the tree (R201). -/
theorem codeOf_codesOf {t : Tree} (hnodup : (treeSymbols t).Nodup) : codeOf (codesOf t) = treeCode t := by
  funext b
  cases t with
  | leaf sym =>
    rw [codeOf, codesOf, storeGet_storePut, treeCode]
    by_cases h : sym = b
    · simp [h]
    · simp [h, BitVec.toNat_inj]
  | node l r =>
    rw [codeOf, codesOf, storeGet_walkCodes hnodup, treeCode]
    simp

/-- CT_DERIVE over the current tree (R201). -/
theorem deriveCodes_some {s : State} {t : Tree} (hv : s.rootValid = true) (htree : s.tree = some t) :
    deriveCodes s = .ok () { s with ct := codesOf t } := withTree_some hv htree _

/-- Settles O38: the codes bound are the paths to the leaves, none of which goes on to another leaf. -/
theorem deriveBindsThePaths : Obligations.DeriveBindsThePaths := by
  refine ⟨decode_eq_ok_iff.2 ⟨rfl, rfl⟩, fun s herr hv => ?_, fun s t herr hv htree hnodup => ?_⟩
  · exact exec_of_rule_raised herr rfl (by rw [ruleOf, deriveCodes, withTree_none hv, noResult_raised])
  · exact ⟨codesOf t, exec_of_unit_rule rfl herr rfl (deriveCodes_some hv htree) herr,
      congrFun (codeOf_codesOf hnodup), fun _ => treeCode_ne_nil_iff, length_treeCode_le hnodup,
      fun _ _ => eq_of_treeCode_prefix⟩

/-! ### Emitting the codes -/

theorem WriterFrame.ct_eq {s t : State} (h : WriterFrame s t) : t.ct = s.ct := by
  unfold WriterFrame at h
  rw [h]

/-- Bytes with a code are emitted by the bit writer on their codes, and the rest from there (R202). -/
theorem emitCodes_append {pre : List Byte} {s : State} (hbound : ∀ b ∈ pre, codeOf s.ct b ≠ []) (rest : List Byte) :
    emitCodes (pre ++ rest) s = (putBits (pre.flatMap (codeOf s.ct)) s).bind fun _ t => emitCodes rest t := by
  induction pre generalizing s with
  | nil => rfl
  | cons b pre ih =>
    obtain ⟨hb, hpre⟩ := List.forall_mem_cons.1 hbound
    rw [List.cons_append, emitCodes, if_neg hb, List.flatMap_cons, putBits_append, bind_assoc]
    cases hput : putBits (codeOf s.ct b) s with
    | ok u t =>
      have hct : t.ct = s.ct := ((putBits_frame _ s).1 u t hput).ct_eq
      rw [bind_ok, bind_ok, ih (hct ▸ hpre), hct]
    | raised e t => rfl
    | broken => rfl

/-- An input whose bytes all have a code is emitted by the bit writer on their codes (R202). -/
theorem emitInput_eq_putBits {s : State} (hbound : ∀ b ∈ s.ib, codeOf s.ct b ≠ []) :
    emitInput s = putBits (s.ib.flatMap (codeOf s.ct)) s := by
  have happend := emitCodes_append hbound []
  rw [List.append_nil] at happend
  rw [emitInput, happend]
  cases putBits (s.ib.flatMap (codeOf s.ct)) s <;> rfl

/-- A byte without a code is refused before anything is written (R202). -/
theorem emitCodes_unbound {b : Byte} {s : State} (h : codeOf s.ct b = []) (rest : List Byte) :
    emitCodes (b :: rest) s = .raised .illegalOperation s := if_pos h

/-- Settles O39: emitting is the bit writer on the codes, up to the first byte without one. -/
theorem emitWritesTheCodes : Obligations.EmitWritesTheCodes := by
  refine ⟨decode_eq_ok_iff.2 ⟨rfl, rfl⟩, fun s herr hio hw => ⟨fun hbound => ?_, fun pre post b hib hpre hb => ?_⟩⟩
  · obtain ⟨wbuf, wcnt, bytes, hput, hw', hbits⟩ := putBits_written (s.ib.flatMap (codeOf s.ct)) hio hw
    rw [← emitInput_eq_putBits hbound] at hput
    exact ⟨wbuf, wcnt, bytes, exec_of_unit_rule rfl herr rfl hput herr, hw', hbits⟩
  · obtain ⟨wbuf, wcnt, bytes, hput, -, hbits⟩ := putBits_written (pre.flatMap (codeOf s.ct)) hio hw
    have hemit := emitCodes_append hpre (b :: post)
    rw [hput, bind_ok, emitCodes_unbound (by exact hb), ← hib] at hemit
    have hrule := congrArg noResult hemit
    exact ⟨wbuf, wcnt, bytes, exec_of_rule_raised (i := .encEmit) herr rfl hrule, hbits⟩

end Sys2Proof.Machine
end

section
/-! SUPPORT. ENC_COMPRESS (spec/45_encoder.md R203, R204): the tree is a function of the frequency table, its leaves are the
symbols of the input, and what is written after it is one bit sequence closed to whole bytes. -/

namespace Sys2Proof.Machine

/-! ### The tree of a frequency table -/

/-- Node memory, `NINT` and `ROOT` as TB_BUILD leaves them over a frequency table: what the merges leave (R172), or the
sentinel leaf (R174). -/
def builtTree (ft : Store Word32) : Store Node × BitVec 9 × NodeId :=
  match mergeSpec (leafKeys ft).length ((leafKeys ft).foldr insertKey []) 0 (leafNodes ft) with
  | (k :: _, nint, nm) => (nm, nint, keyId k)
  | ([], _, _) => ([(0, ⟨0, none⟩)], 0, 0)

/-- The state TB_BUILD leaves (R172). -/
def withBuiltTree (s : State) : State :=
  { s with hp := [], nm := (builtTree s.ft).1, nint := (builtTree s.ft).2.1, root := (builtTree s.ft).2.2,
           rootValid := true }

theorem builtTree_of_leafKeys_nil {ft : Store Word32} (h : leafKeys ft = []) :
    builtTree ft = ([(0, ⟨0, none⟩)], 0, 0) := by
  rw [builtTree, h]
  rfl

/-- `TbBuild` reads the frequency table alone (R172). -/
theorem buildTree_eq (s : State) : buildTree s = .ok () (withBuiltTree s) := by
  by_cases hkeys : leafKeys s.ft = []
  · rw [buildTree_of_leafKeys_nil hkeys, withBuiltTree, builtTree_of_leafKeys_nil hkeys]
  · obtain ⟨k, nint, nm, hspec, hbuild, -⟩ := buildTree_of_leafKeys hkeys
    rw [hbuild, withBuiltTree, builtTree, hspec]

theorem withBuiltTree_treeOk (s : State) : TreeOk (withBuiltTree s) := by
  obtain ⟨t, ht, hok⟩ := buildTree_treeOk s
  rw [buildTree_eq] at ht
  cases ht
  exact hok

/-- The valid leaves are the symbols that occur, or the sentinel (R172, R174). -/
theorem leafValid_builtTree_iff {ft : Store Word32} {b : Byte} :
    nodeValid (builtTree ft).1 b.toNat ↔ countGet ft b.toNat ≠ 0 ∨ (leafKeys ft = [] ∧ b = 0) := by
  by_cases hkeys : leafKeys ft = []
  · have hcount : countGet ft b.toNat = 0 :=
      leafKey_eq_none.1 (List.filterMap_eq_nil_iff.1 hkeys _ (List.mem_range.2 b.isLt))
    rw [builtTree_of_leafKeys_nil hkeys]
    have hzero : 0 = b.toNat ↔ b = 0 := eq_comm.trans (BitVec.toNat_inj (y := 0))
    simp [hkeys, hcount, nodeValid, storeGet_cons, hzero]
  · obtain ⟨k, nint, nm, hspec, -, -, hleaves, -⟩ := buildTree_of_leafKeys (s := { State.reset with ft := ft }) hkeys
    dsimp only at hspec hleaves
    rw [builtTree, hspec, nodeValid, hleaves _ b.isLt, storeGet_leafNodes ft b.isLt]
    by_cases hcount : countGet ft b.toNat = 0 <;> simp [hkeys, hcount]

/-- The two ways T(id) is read (R35): a leaf is its id, and an internal node is read with both its children. -/
theorem treeAt_eq_some {nm : Store Node} {fuel : Nat} {id : NodeId} {t : Tree} (h : treeAt nm (fuel + 1) id = some t) :
    (isLeafId id = true ∧ t = .leaf (leafSym id)) ∨
    (isLeafId id = false ∧ ∃ f l r tl tr, storeGet nm id.toNat = some ⟨f, some (l, r)⟩ ∧
      treeAt nm fuel l = some tl ∧ treeAt nm fuel r = some tr ∧ t = .node tl tr) := by
  rw [treeAt] at h
  split at h
  case isTrue hleaf =>
    cases h
    exact .inl ⟨hleaf, rfl⟩
  case isFalse hinner =>
    split at h
    next f l r hget =>
      split at h
      next tl tr hl hr =>
        cases h
        exact .inr ⟨Bool.eq_false_of_not_eq_true hinner, f, l, r, tl, tr, hget, hl, hr, rfl⟩
      next => cases h
    next => cases h

/-- A node id below 256 is met under `id` exactly when it is a symbol of T(id) (R16, R35). -/
theorem mem_treeIds_iff {nm : Store Node} {fuel : Nat} {id : NodeId} {t : Tree} (h : treeAt nm fuel id = some t)
    {b : Byte} : b.toNat ∈ treeIds nm fuel id ↔ b ∈ treeSymbols t := by
  induction fuel generalizing id t with
  | zero => cases h
  | succ fuel ih =>
    rcases treeAt_eq_some h with ⟨hleaf, rfl⟩ | ⟨hinner, f, l, r, tl, tr, hget, hl, hr, rfl⟩
    · have hid : (leafSym id).toNat = id.toNat := by
        rw [leafSym, BitVec.toNat_setWidth, Nat.mod_eq_of_lt (of_decide_eq_true hleaf)]
      simp [treeIds, hleaf, treeSymbols, ← hid, BitVec.toNat_inj]
    · have hid : b.toNat ≠ id.toNat := fun hb => of_decide_eq_false hinner (hb ▸ b.isLt)
      simp [treeIds, hinner, hget, hid, ih hl, ih hr, treeSymbols]

/-- The valid leaves of a current tree are its symbols (R34 (a)). -/
theorem TreeOk.leafValid_iff {s : State} (h : TreeOk s) {t : Tree} (ht : s.tree = some t) {b : Byte} :
    nodeValid s.nm b.toNat ↔ b ∈ treeSymbols t := by
  obtain ⟨-, -, -, hvalid⟩ := h
  exact (hvalid _ (b.isLt.trans (by decide))).trans (mem_treeIds_iff ht)

/-! ### The tree of an input -/

theorem countGet_countAll_ne_zero_iff {bytes : List Byte} (h : bytes.length < 2 ^ 32) {b : Byte} :
    countGet (countAll [] bytes) b.toNat ≠ 0 ↔ b ∈ bytes := by
  have hcount := toNat_countGet_countAll h b.isLt
  rw [BitVec.ofNat_toNat, BitVec.setWidth_eq] at hcount
  rw [← List.count_pos_iff, ← hcount, Nat.pos_iff_ne_zero, ne_eq, ne_eq, ← BitVec.toNat_inj]
  rfl

/-- An input has no symbols exactly when it is empty. -/
theorem leafKeys_countAll_eq_nil_iff {bytes : List Byte} (h : bytes.length < 2 ^ 32) :
    leafKeys (countAll [] bytes) = [] ↔ bytes = [] := by
  refine ⟨fun hkeys => List.eq_nil_iff_forall_not_mem.2 fun b hb => ?_, fun hnil => ?_⟩
  · refine (countGet_countAll_ne_zero_iff h).2 hb (leafKey_eq_none.1 ?_)
    exact List.filterMap_eq_nil_iff.1 hkeys _ (List.mem_range.2 b.isLt)
  · subst hnil
    exact List.filterMap_eq_nil_iff.2 fun _ _ => leafKey_eq_none.2 rfl

/-! ### The stream -/

/-- Bits put and closed: the sink holds the bits written before, the bits put, and the zero bits that complete them to whole
bytes (R104, R134, R135). -/
theorem putBits_close (bits : List Bool) {s : State} (hio : s.io = []) (hw : WriterOk s) :
    ∃ bytes : List Byte,
      ((putBits bits s).bind fun _ t => closeWriter t) = .ok () { s with wbuf := 0, wcnt := 0, snk := s.snk ++ bytes } ∧
      bitsOfBytes (s.snk ++ bytes) = written s ++ bits ++ padding (written s ++ bits).length := by
  obtain ⟨wbuf, wcnt, bytes, hput, hw', hbits⟩ := putBits_written bits hio hw
  obtain ⟨bytes', hclose, hstream⟩ :=
    closeWriter_written (s := { s with wbuf := wbuf, wcnt := wcnt, snk := s.snk ++ bytes }) hio hw'
  have hpad : padding wcnt.toNat = padding (written s ++ bits).length :=
    padding_congr (by rw [← hbits, length_written]; dsimp only; omega)
  rw [List.append_assoc] at hclose
  rw [hbits, hpad, List.append_assoc] at hstream
  exact ⟨bytes ++ bytes', by rw [hput, bind_ok, hclose], hstream⟩

/-- `EncCompress` once the count is written (R203). -/
def writeCodes (s : State) : Res Word32 :=
  (deriveCodes s).bind fun _ s =>
  (emitInput s).bind fun _ s =>
  (closeWriter s).bind fun _ s => .ok s.ilen s

/-- `EncCompress` once the tree is built (R203). -/
def writeStream (s : State) : Res Word32 :=
  (serializeTree s).bind fun _ s =>
  (putInt s.ilen s).bind fun _ s => writeCodes s

/-- `EncCompress` part by part (R203). -/
theorem compress_eq (s : State) :
    compress s = (loadInput { s with wbuf := 0, wcnt := 0 }).bind fun _ t => (buildTree t).bind fun _ u => writeStream u :=
  rfl

/-- The bits of a compressed input before the padding (R100): the tree, the count and the codes. -/
def streamBits (t : Tree) (input : List Byte) : List Bool :=
  treeBits t ++ bitsMsb (BitVec.ofNat 32 input.length) ++ encodeBytes t input

section Current

variable {s : State} {t : Tree} (hio : s.io = []) (hv : s.rootValid = true) (htree : s.tree = some t)
  (hnodup : (treeSymbols t).Nodup) (hib : ∀ b ∈ s.ib, b ∈ treeSymbols t)
include hio hv htree hnodup hib

/-- The codes of an input whose bytes are symbols of the current tree, closed to whole bytes (R201, R202, R203). -/
theorem writeCodes_eq (hw : WriterOk s) :
    ∃ bytes : List Byte,
      writeCodes s = .ok s.ilen { s with wbuf := 0, wcnt := 0, ct := codesOf t, snk := s.snk ++ bytes } ∧
      bitsOfBytes (s.snk ++ bytes) =
        written s ++ encodeBytes t s.ib ++ padding (written s ++ encodeBytes t s.ib).length := by
  have hcodes := codeOf_codesOf hnodup
  have hemit : emitInput { s with ct := codesOf t } = putBits (encodeBytes t s.ib) { s with ct := codesOf t } := by
    rw [emitInput_eq_putBits, hcodes, encodeBytes]
    intro b hb
    rw [hcodes]
    exact treeCode_ne_nil_iff.2 (hib b hb)
  obtain ⟨bytes, hclose, hbits⟩ := putBits_close (encodeBytes t s.ib) (s := { s with ct := codesOf t }) hio hw
  refine ⟨bytes, ?_, hbits⟩
  rw [writeCodes, deriveCodes_some hv htree, bind_ok, hemit, ← bind_assoc, hclose]
  rfl

/-- From an empty buffer, what follows the build appends the bits of the stream closed to whole bytes (R100, R203). -/
theorem writeStream_eq (hcnt : s.wcnt = 0) (hbuf : s.wbuf = 0) :
    ∃ bytes : List Byte,
      writeStream s = .ok s.ilen { s with wbuf := 0, wcnt := 0, ct := codesOf t, snk := s.snk ++ bytes } ∧
      bitsOfBytes bytes = streamBits t s.ib ++ padding (streamBits t s.ib).length := by
  obtain ⟨wbuf, wcnt, bytes, hser, hw, hbits⟩ :=
    serializeTree_written hio hv htree (by rw [WriterOk, hcnt, hbuf]; decide)
  obtain ⟨wbuf', wcnt', bytes', hint, hw', hbits'⟩ := putBits_written (bitsMsb s.ilen)
    (s := { s with wbuf := wbuf, wcnt := wcnt, snk := s.snk ++ bytes }) hio hw
  obtain ⟨bytes'', hcodes, hstream⟩ := writeCodes_eq
    (s := { s with wbuf := wbuf', wcnt := wcnt', snk := s.snk ++ bytes ++ bytes' }) hio hv htree hnodup hib hw'
  refine ⟨bytes ++ bytes' ++ bytes'', ?_, ?_⟩
  · rw [writeStream, hser, bind_ok]
    refine (congrArg (Res.bind · _) hint).trans (hcodes.trans ?_)
    simp only [List.append_assoc]
    rfl
  · have hstart : written s = bitsOfBytes s.snk := by simp [written, hcnt]
    have hheader : written { s with wbuf := wbuf', wcnt := wcnt', snk := s.snk ++ bytes ++ bytes' } =
        bitsOfBytes s.snk ++ (treeBits t ++ bitsMsb s.ilen) := by
      rw [← List.append_assoc, ← hstart, ← hbits]
      exact hbits'
    have hpad : padding (bitsOfBytes s.snk ++ streamBits t s.ib).length = padding (streamBits t s.ib).length :=
      padding_congr (by simp)
    rw [hheader, List.append_assoc (bitsOfBytes s.snk)] at hstream
    have hall : _ = bitsOfBytes s.snk ++ streamBits t s.ib ++ padding (bitsOfBytes s.snk ++ streamBits t s.ib).length :=
      hstream
    rw [hpad] at hall
    simpa using hall

end Current

/-! ### The command -/

/-- What ENC_COMPRESS leaves from a state over an input with tree `t` and stream `bytes`, before it answers (R203). -/
def compressed (input : List Byte) (t : Tree) (bytes : List Byte) (s : State) : State :=
  { withBuiltTree { s with ft := countAll [] input, ib := input, src := [] } with
    wbuf := 0, wcnt := 0, ct := codesOf t, snk := s.snk ++ bytes }

/-- The tree ENC_COMPRESS builds over an input (R172, R203). -/
def inputTree (input : List Byte) : Option Tree := (withBuiltTree { State.reset with ft := countAll [] input }).tree

/-- The tree of an input has the symbols of the input as its leaves, or the sentinel (R172, R174). -/
theorem inputTree_eq {input : List Byte} (h : input.length < 2 ^ 32) :
    ∃ t, inputTree input = some t ∧ (treeSymbols t).Nodup ∧ ∀ b, b ∈ treeSymbols t ↔ b ∈ input ∨ (input = [] ∧ b = 0) := by
  have hok := withBuiltTree_treeOk { State.reset with ft := countAll [] input }
  have ⟨_, ⟨t, htree, _, hnodup, _⟩, _⟩ := hok
  refine ⟨t, htree, hnodup, fun b => ?_⟩
  rw [← countGet_countAll_ne_zero_iff h, ← leafKeys_countAll_eq_nil_iff h, ← leafValid_builtTree_iff]
  exact (hok.leafValid_iff htree).symm

/-- An input that fits is compressed whole: the stream of its tree, closed to whole bytes (R100, R203). -/
theorem compress_fits {s : State} {t : Tree} (hio : s.io = []) (hfit : InputFits s) (htree : inputTree s.src = some t)
    (hnodup : (treeSymbols t).Nodup) (hsyms : ∀ b ∈ s.src, b ∈ treeSymbols t) :
    ∃ (n : Word32) (bytes : List Byte),
      compress s = .ok n (compressed s.src t bytes s) ∧ n.setWidth 41 = BitVec.ofNat 41 s.src.length ∧
      bitsOfBytes bytes = streamBits t s.src ++ padding (streamBits t s.src).length := by
  obtain ⟨n, hload, -⟩ := loadInput_fits (s := { s with wbuf := 0, wcnt := 0 }) hio hfit
  obtain ⟨bytes, hstream, hbits⟩ := writeStream_eq
    (s := withBuiltTree { s with wbuf := 0, wcnt := 0, ft := countAll [] s.src, ib := s.src, src := [] })
    hio rfl htree hnodup hsyms rfl rfl
  refine ⟨_, bytes, ?_, ilen_setWidth (s := { s with ib := s.src }) (hfit.trans_lt s.cfg.ibCap.isLt), hbits⟩
  rw [compress_eq, hload, bind_ok, buildTree_eq, bind_ok]
  exact hstream

/-- A longer input is refused at the load, after the buffer is cleared (R203). -/
theorem compress_tooLong {s : State} (h : s.cfg.ibCap.toNat < s.src.length) :
    compress s = .raised .illegalOperation { s with wbuf := 0, wcnt := 0 } := by
  rw [compress_eq, loadInput_tooLong (by exact h), bind_raised]

/-- ENC_COMPRESS over an input that fits (R100, R203). -/
theorem exec_encCompress_fits {s : State} (herr : s.err = none) (hio : s.io = []) (hfit : InputFits s) :
    ∃ (t : Tree) (bytes : List Byte),
      exec .encCompress s = .next ((compressed s.src t bytes s).respond (BitVec.ofNat 41 s.src.length)) ∧
      inputTree s.src = some t ∧ (treeSymbols t).Nodup ∧
      (∀ b, b ∈ treeSymbols t ↔ b ∈ s.src ∨ (s.src = [] ∧ b = 0)) ∧
      bitsOfBytes bytes = streamBits t s.src ++ padding (streamBits t s.src).length := by
  obtain ⟨t, htree, hnodup, hsyms⟩ := inputTree_eq (hfit.trans_lt s.cfg.ibCap.isLt)
  obtain ⟨n, bytes, hcompress, hn, hbits⟩ := compress_fits hio hfit htree hnodup fun b hb => (hsyms b).2 (.inl hb)
  refine ⟨t, bytes, ?_, htree, hnodup, hsyms, hbits⟩
  rw [exec_of_rule_ok herr rfl (by rw [ruleOf, hcompress, bind_ok]), hn]

/-- Settles O40: the stream of the tree of the input is closed to whole bytes, and a longer input is refused at the load. -/
theorem compressWritesTheStream : Obligations.CompressWritesTheStream := by
  intro s herr hio
  refine ⟨fun hfit => ?_, fun hlong => ?_⟩
  · obtain ⟨t, bytes, hexec, htree, hnodup, hsyms, hbits⟩ := exec_encCompress_fits herr hio hfit
    have hrsp := congrArg (fun err => s.rsp ++ [responseWord err (BitVec.ofNat 41 s.src.length)]) herr
    exact ⟨_, t, bytes, hexec, (exec_frame hexec).1, herr, hrsp, rfl, rfl, rfl, rfl, rfl, rfl, htree, hnodup, hsyms,
      rfl, hbits⟩
  · exact exec_of_rule_raised (t := { s with wbuf := 0, wcnt := 0 }) herr rfl
      (by rw [ruleOf, compress_tooLong hlong, bind_raised])

/-- Settles O41: the tables are those of the input, and the bytes are the ones that carry the stream of its tree. -/
theorem compressDependsOnTheSourceOnly : Obligations.CompressDependsOnTheSourceOnly := by
  intro s₁ s₂ t₁ t₂ herr₁ herr₂ hio₁ hio₂ hsrc hfit₁ hfit₂ hexec₁ hexec₂
  obtain ⟨tr, bytes, hnext₁, htree₁, -, -, hbits₁⟩ := exec_encCompress_fits herr₁ hio₁ hfit₁
  obtain ⟨tr', bytes', hnext₂, htree₂, -, -, hbits₂⟩ := exec_encCompress_fits herr₂ hio₂ hfit₂
  rw [hsrc] at hnext₁ htree₁ hbits₁
  obtain rfl : tr' = tr := Option.some.inj (htree₂.symm.trans htree₁)
  obtain rfl : bytes' = bytes := bitsOfBytes_injective (hbits₂.trans hbits₁.symm)
  rw [hnext₁] at hexec₁
  rw [hnext₂] at hexec₂
  cases hexec₁
  cases hexec₂
  exact ⟨⟨bytes', rfl, rfl⟩, rfl, rfl, rfl, rfl, rfl, rfl⟩

end Sys2Proof.Machine
end

section
/-! SUPPORT. DEC_WALK (spec/46_decoder.md R221): from the root down to a leaf by the bits of its path, symbol by symbol,
until the symbols are complete or the source ends inside a code. -/

namespace Sys2Proof.Machine

/-! ### One symbol -/

/-- The bits of a path to a leaf lead the walk there, and no more bits are read (R221). -/
theorem walkToLeaf_reads {t : Tree} {path rest : List Bool} {sym : Byte} (hpath : leafAt t path = some sym) {s : State}
    (hio : s.io = []) (hr : ReaderOk s) (hu : unread s = path ++ rest) :
    ∃ (rbuf : Byte) (rcnt : BitVec 4) (src : List Byte),
      walkToLeaf t s = .ok sym { s with rbuf := rbuf, rcnt := rcnt, src := src } ∧
      rcnt.toNat ≤ 7 ∧ unread { s with rbuf := rbuf, rcnt := rcnt, src := src } = rest := by
  induction t generalizing path s with
  | leaf a =>
    cases path with
    | nil =>
      cases hpath
      exact ⟨s.rbuf, s.rcnt, s.src, rfl, hr, hu⟩
    | cons bit path => cases hpath
  | node l r ihl ihr =>
    cases path with
    | nil => cases hpath
    | cons bit path =>
      obtain ⟨rbuf, rcnt, src, hget, hr', hu'⟩ := getBit_unread hio hr hu
      rw [walkToLeaf, hget, bind_ok]
      cases bit with
      | false => exact ihl hpath (s := { s with rbuf := rbuf, rcnt := rcnt, src := src }) hio hr' hu'
      | true => exact ihr hpath (s := { s with rbuf := rbuf, rcnt := rcnt, src := src }) hio hr' hu'

/-- A source that ends before the path does is EndOfStream with every bit consumed (R151, R221). -/
theorem walkToLeaf_end {t : Tree} {path missing : List Bool} {sym : Byte} (hpath : leafAt t (path ++ missing) = some sym)
    (hmissing : missing ≠ []) {s : State} (hio : s.io = []) (hr : ReaderOk s) (hu : unread s = path) :
    ∃ rbuf : Byte, walkToLeaf t s = .raised .endOfStream { s with rbuf := rbuf, rcnt := 0, src := [] } := by
  induction t generalizing path s with
  | leaf a =>
    have hnil : path ++ missing = [] := leafAt_append (t := .leaf a) (p := []) rfl hpath
    exact absurd (List.append_eq_nil_iff.1 hnil).2 hmissing
  | node l r ihl ihr =>
    cases path with
    | nil =>
      obtain ⟨hcnt, hsrc⟩ := unread_eq_nil.1 hu
      refine ⟨s.rbuf, ?_⟩
      rw [walkToLeaf, getBit_end hio hu, bind_raised, ← hcnt, ← hsrc]
    | cons bit path =>
      obtain ⟨rbuf, rcnt, src, hget, hr', hu'⟩ := getBit_unread hio hr hu
      rw [walkToLeaf, hget, bind_ok]
      cases bit with
      | false => exact ihl hpath (s := { s with rbuf := rbuf, rcnt := rcnt, src := src }) hio hr' hu'
      | true => exact ihr hpath (s := { s with rbuf := rbuf, rcnt := rcnt, src := src }) hio hr' hu'

/-! ### A symbol sequence -/

/-- The codes of a symbol sequence are walked one after another, each symbol written raw, and the loop goes on from there
with the symbols still to come (R221). -/
theorem decodeLoop_reads {l r : Tree} {syms : List Byte} (hsyms : ∀ b ∈ syms, b ∈ treeSymbols (.node l r))
    {rest : List Bool} {s : State} (hio : s.io = []) (hr : ReaderOk s)
    (hu : unread s = encodeBytes (.node l r) syms ++ rest) :
    ∃ (rbuf : Byte) (rcnt : BitVec 4) (src : List Byte),
      (∀ rem, decodeLoop (.node l r) (rem + syms.length) s =
        decodeLoop (.node l r) rem { s with rbuf := rbuf, rcnt := rcnt, src := src, snk := s.snk ++ syms }) ∧
      rcnt.toNat ≤ 7 ∧ unread { s with rbuf := rbuf, rcnt := rcnt, src := src } = rest := by
  induction syms generalizing s with
  | nil => exact ⟨s.rbuf, s.rcnt, s.src, fun rem => by rw [List.append_nil]; rfl, hr, hu⟩
  | cons b syms ih =>
    obtain ⟨hb, hsyms⟩ := List.forall_mem_cons.1 hsyms
    rw [encodeBytes, List.flatMap_cons, List.append_assoc] at hu
    obtain ⟨rbuf, rcnt, src, hwalk, hr, hu⟩ := walkToLeaf_reads (leafAt_treeCode hb) hio hr hu
    obtain ⟨rbuf', rcnt', src', hloop, hrest⟩ :=
      ih hsyms (s := { s with rbuf := rbuf, rcnt := rcnt, src := src, snk := s.snk ++ [b] }) hio hr hu
    refine ⟨rbuf', rcnt', src', fun rem => ?_, hrest⟩
    rw [List.length_cons, ← Nat.add_assoc, decodeLoop, hwalk, bind_ok, snkWrite_never b (by exact hio), bind_ok, hloop,
      List.append_assoc, List.singleton_append]

/-- The bits a decoder reads for symbols of the tree give exactly those symbols, a single leaf's without a bit (R221). -/
theorem walkTree_reads {t : Tree} {syms : List Byte} (hsyms : ∀ b ∈ syms, b ∈ treeSymbols t) {rest : List Bool}
    {s : State} (hio : s.io = []) (hr : ReaderOk s) (hu : unread s = decoderBits t syms ++ rest) :
    ∃ (rbuf : Byte) (rcnt : BitVec 4) (src : List Byte),
      walkTree t syms.length s = .ok () { s with rbuf := rbuf, rcnt := rcnt, src := src, snk := s.snk ++ syms } ∧
      rcnt.toNat ≤ 7 ∧ unread { s with rbuf := rbuf, rcnt := rcnt, src := src } = rest := by
  cases t with
  | leaf sym =>
    have hall : syms = List.replicate syms.length sym :=
      List.eq_replicate_of_mem fun b hb => List.mem_singleton.1 (hsyms b hb)
    refine ⟨s.rbuf, s.rcnt, s.src, ?_, hr, hu⟩
    rw [walkTree, writeRepeated_never hio, ← hall]
  | node l r =>
    obtain ⟨rbuf, rcnt, src, hloop, hrest⟩ := decodeLoop_reads hsyms hio hr hu
    refine ⟨rbuf, rcnt, src, ?_, hrest⟩
    rw [walkTree, ← Nat.zero_add syms.length, hloop, decodeLoop]

/-- The source ends before `n` symbols are complete (R107): after the codes of `syms` it holds a proper part of a code. -/
structure CutShort (l r : Tree) (n : Nat) (syms : List Byte) (bits : List Bool) : Prop where
  symbols : ∀ b ∈ syms, b ∈ treeSymbols (.node l r)
  fewer : syms.length < n
  cut : ∃ (part : List Bool) (b : Byte), b ∈ treeSymbols (.node l r) ∧ part <+: treeCode (.node l r) b ∧
    part ≠ treeCode (.node l r) b ∧ bits = encodeBytes (.node l r) syms ++ part

/-- A source that is cut short is EndOfStream with every bit consumed; the symbols completed are in `snk` (R221). -/
theorem walkTree_end {l r : Tree} {n : Nat} {syms : List Byte} {s : State} (hio : s.io = []) (hr : ReaderOk s)
    (hcut : CutShort l r n syms (unread s)) :
    ∃ rbuf : Byte, walkTree (.node l r) n s =
      .raised .endOfStream { s with rbuf := rbuf, rcnt := 0, src := [], snk := s.snk ++ syms } := by
  obtain ⟨hsyms, hfewer, part, b, hb, ⟨missing, hcode⟩, hne, hu⟩ := hcut
  obtain ⟨rem, rfl⟩ := Nat.exists_eq_add_of_lt hfewer
  obtain ⟨rbuf, rcnt, src, hloop, hr, hu⟩ := decodeLoop_reads hsyms hio hr hu
  have hpath := leafAt_treeCode hb
  rw [← hcode] at hpath hne
  obtain ⟨rbuf', hwalk⟩ := walkToLeaf_end hpath (fun h => hne (by rw [h, List.append_nil]))
    (s := { s with rbuf := rbuf, rcnt := rcnt, src := src, snk := s.snk ++ syms }) hio hr hu
  refine ⟨rbuf', ?_⟩
  rw [walkTree, show syms.length + rem + 1 = rem + 1 + syms.length by omega, hloop, decodeLoop, hwalk, bind_raised]

/-! ### The command -/

theorem decodeSymbols_some {s : State} {t : Tree} (hv : s.rootValid = true) (htree : s.tree = some t) (n : Word32) :
    decodeSymbols n s = promote (walkTree t n.toNat s) := by
  rw [decodeSymbols, withTree_some hv htree]

/-- `DecWalk` where the codes of `n` symbols of the current tree lie ahead (R221). -/
theorem decodeSymbols_reads {s : State} {t : Tree} {n : Word32} {syms : List Byte} {rest : List Bool} (hio : s.io = [])
    (hr : ReaderOk s) (hv : s.rootValid = true) (htree : s.tree = some t) (hsyms : ∀ b ∈ syms, b ∈ treeSymbols t)
    (hlen : syms.length = n.toNat) (hu : unread s = decoderBits t syms ++ rest) :
    ∃ (rbuf : Byte) (rcnt : BitVec 4) (src : List Byte),
      decodeSymbols n s = .ok () { s with rbuf := rbuf, rcnt := rcnt, src := src, snk := s.snk ++ syms } ∧
      rcnt.toNat ≤ 7 ∧ unread { s with rbuf := rbuf, rcnt := rcnt, src := src } = rest := by
  obtain ⟨rbuf, rcnt, src, hwalk, hrest⟩ := walkTree_reads hsyms hio hr hu
  exact ⟨rbuf, rcnt, src, by rw [decodeSymbols_some hv htree, ← hlen, hwalk, promote_ok], hrest⟩

/-- `DecWalk` where the source is cut short (R221, R256). -/
theorem decodeSymbols_end {s : State} {l r : Tree} {n : Word32} {syms : List Byte} (hio : s.io = []) (hr : ReaderOk s)
    (hv : s.rootValid = true) (htree : s.tree = some (.node l r)) (hcut : CutShort l r n.toNat syms (unread s)) :
    ∃ rbuf : Byte, decodeSymbols n s =
      .raised .corruptStream { s with rbuf := rbuf, rcnt := 0, src := [], snk := s.snk ++ syms } := by
  obtain ⟨rbuf, hwalk⟩ := walkTree_end hio hr hcut
  exact ⟨rbuf, by rw [decodeSymbols_some hv htree, hwalk, promote_endOfStream]⟩

/-- A root below 256 is a single leaf (R16, R35). -/
theorem tree_of_root_lt {s : State} (h : s.root.toNat < 256) : s.tree = some (.leaf (s.root.setWidth 8)) :=
  if_pos (decide_eq_true h)

/-- Settles O43: a single leaf is written `n` times, and without a tree the walk does not start. -/
theorem walkOfASingleLeaf : Obligations.WalkOfASingleLeaf := by
  refine fun s n herr => ⟨fun hio hv hroot => ?_, fun hv => ?_⟩
  · have hwalk : decodeSymbols n s = .ok () { s with snk := s.snk ++ List.replicate n.toNat (s.root.setWidth 8) } := by
      rw [decodeSymbols_some hv (tree_of_root_lt hroot), walkTree, writeRepeated_never hio, promote_ok]
    exact exec_of_unit_rule rfl herr rfl hwalk herr
  · have hwalk : decodeSymbols n s = .raised .illegalOperation s := by
      rw [decodeSymbols, withTree_none hv, promote_raised s (by decide)]
    exact exec_of_rule_raised herr rfl (by rw [ruleOf, hwalk, noResult_raised])

/-- Settles O44: the code of each symbol is the path of its leaf. -/
theorem walkDecodesTheCodes : Obligations.WalkDecodesTheCodes := by
  intro s t n syms rest herr hio hr hv htree hsyms hlen hu
  obtain ⟨rbuf, rcnt, src, hwalk, hrest⟩ := decodeSymbols_reads hio hr hv htree hsyms hlen hu
  exact ⟨rbuf, rcnt, src, exec_of_unit_rule rfl herr rfl hwalk herr, hrest⟩

/-- Settles O45: the walk of the code that is cut short asks for a bit that is not there. -/
theorem walkOfATruncatedSource : Obligations.WalkOfATruncatedSource := by
  intro s l r n syms part b herr hio hr hv htree hsyms hfewer hb hpre hne hu
  obtain ⟨rbuf, hwalk⟩ := decodeSymbols_end hio hr hv htree ⟨hsyms, hfewer, part, b, hb, hpre, hne, hu⟩
  have hrule := congrArg noResult hwalk
  exact ⟨rbuf, exec_of_rule_raised (i := .decWalk n) herr rfl hrule⟩

end Sys2Proof.Machine
end

section
/-! SUPPORT. DEC_DECOMPRESS (spec/46_decoder.md R222): every source is of one of four forms, the stream it accepts and the
three it refuses (spec/30_encoding.md R107), and it gives back what ENC_COMPRESS appended (R224). -/

namespace Sys2Proof.Machine

/-! ### What can lie ahead of the walk -/

/-- With distinct symbols, the path to a leaf is the one the tree gives its symbol (R103). -/
theorem treePath_of_leafAt {t : Tree} (hnodup : (treeSymbols t).Nodup) {path : List Bool} {b : Byte}
    (h : leafAt t path = some b) : treePath t b = some path := by
  induction t generalizing path with
  | leaf sym =>
    cases path with
    | nil =>
      cases h
      exact if_pos rfl
    | cons bit path => cases h
  | node l r ihl ihr =>
    obtain ⟨hl, hr, hdisj⟩ := List.nodup_append.1 hnodup
    cases path with
    | nil => cases h
    | cons bit path =>
      cases bit with
      | false => rw [treePath, ihl hl h]
      | true =>
        have hpath := ihr hr h
        have hmem : b ∈ treeSymbols r := not_not.1 (mt treePath_eq_none_iff.2 (by simp [hpath]))
        have hleft : treePath l b = none := treePath_eq_none_iff.2 fun hml => hdisj b hml b hmem rfl
        rw [treePath, hleft, hpath, Option.map_some]

/-- With distinct symbols and at least two leaves, the path to a leaf is the code of its symbol (R103). -/
theorem treeCode_of_leafAt {l r : Tree} (hnodup : (treeSymbols (.node l r)).Nodup) {path : List Bool} {b : Byte}
    (h : leafAt (.node l r) path = some b) : b ∈ treeSymbols (.node l r) ∧ treeCode (.node l r) b = path := by
  have hpath := treePath_of_leafAt hnodup h
  exact ⟨not_not.1 (mt treePath_eq_none_iff.2 (by simp [hpath])), by rw [treeCode, hpath, Option.getD_some]⟩

/-- Every tree has a leaf. -/
theorem exists_leafAt (t : Tree) : ∃ path b, leafAt t path = some b := by
  induction t with
  | leaf sym => exact ⟨[], sym, rfl⟩
  | node l r ihl _ =>
    obtain ⟨path, b, h⟩ := ihl
    exact ⟨false :: path, b, h⟩

/-- Any bits lead down to a leaf, or are a proper part of the path to one. -/
theorem leafAt_cases (t : Tree) (bits : List Bool) :
    (∃ path rest b, bits = path ++ rest ∧ leafAt t path = some b) ∨
      ∃ missing b, missing ≠ [] ∧ leafAt t (bits ++ missing) = some b := by
  induction t generalizing bits with
  | leaf sym => exact .inl ⟨[], bits, sym, rfl, rfl⟩
  | node l r ihl ihr =>
    cases bits with
    | nil =>
      obtain ⟨path, b, h⟩ := exists_leafAt (.node l r)
      refine .inr ⟨path, b, fun hnil => ?_, h⟩
      rw [hnil] at h
      cases h
    | cons bit bits =>
      cases bit with
      | false => exact (ihl bits).imp (fun ⟨path, rest, b, hb, h⟩ => ⟨false :: path, rest, b, by rw [hb]; rfl, h⟩) id
      | true => exact (ihr bits).imp (fun ⟨path, rest, b, hb, h⟩ => ⟨true :: path, rest, b, by rw [hb]; rfl, h⟩) id

/-- The bits begin with what the decoder reads for `n` symbols of the tree (R103, R221). -/
def Decodable (t : Tree) (n : Nat) (bits : List Bool) : Prop :=
  ∃ (syms : List Byte) (rest : List Bool), (∀ b ∈ syms, b ∈ treeSymbols t) ∧ syms.length = n ∧
    bits = decoderBits t syms ++ rest

/-- Any bits hold the codes of `n` symbols, or are cut short before that (R107). -/
theorem decodable_or_cutShort {l r : Tree} (hnodup : (treeSymbols (.node l r)).Nodup) (n : Nat) (bits : List Bool) :
    Decodable (.node l r) n bits ∨ ∃ syms, CutShort l r n syms bits := by
  induction n generalizing bits with
  | zero => exact .inl ⟨[], bits, nofun, rfl, rfl⟩
  | succ n ih =>
    rcases leafAt_cases (.node l r) bits with ⟨path, rest, b, rfl, hleaf⟩ | ⟨missing, b, hmissing, hleaf⟩
    · obtain ⟨hb, rfl⟩ := treeCode_of_leafAt hnodup hleaf
      rcases ih rest with ⟨syms, rest', hsyms, rfl, rfl⟩ | ⟨syms, hsyms, hfewer, part, c, hc, hpre, hne, rfl⟩
      · exact .inl ⟨b :: syms, rest', List.forall_mem_cons.2 ⟨hb, hsyms⟩, rfl, (List.append_assoc ..).symm⟩
      · exact .inr ⟨b :: syms, List.forall_mem_cons.2 ⟨hb, hsyms⟩, Nat.succ_lt_succ hfewer, part, c, hc, hpre, hne,
          (List.append_assoc ..).symm⟩
    · obtain ⟨hb, hcode⟩ := treeCode_of_leafAt hnodup hleaf
      refine .inr ⟨[], nofun, Nat.succ_pos n, bits, b, hb, ⟨missing, hcode.symm⟩, fun h => hmissing ?_, rfl⟩
      exact List.append_right_eq_self.1 (hcode.symm.trans h.symm)

/-- A single leaf decodes without a bit (R221). -/
theorem decodable_leaf (sym : Byte) (n : Nat) (bits : List Bool) : Decodable (.leaf sym) n bits :=
  ⟨List.replicate n sym, bits, fun _ hb => List.mem_singleton.2 (List.eq_of_mem_replicate hb),
    List.length_replicate .., rfl⟩

/-! ### The tree -/

/-- `DecDecompress` once the tree is read (R222). -/
def readSymbols (s : State) : Res Word32 :=
  (getInt s).bind fun n s => (decodeSymbols n s).bind fun _ s => .ok n s

/-- `DecDecompress` part by part (R222). -/
theorem decompress_eq (s : State) :
    decompress s = promote ((deserializeTree { s with rbuf := 0, rcnt := 0 }).bind fun _ u => readSymbols u) := rfl

/-- The state DEC_DECOMPRESS reaches from `s` once `t` is read and `rest` is ahead (R222). -/
structure TreeRead (s : State) (t : Tree) (rest : List Bool) (u : State) : Prop where
  err : u.err = s.err
  io : u.io = []
  snk : u.snk = s.snk
  rsp : u.rsp = s.rsp
  current : u.rootValid = true
  tree : u.tree = some t
  reader : ReaderOk u
  ahead : unread u = rest

/-- From a cleared bit reader all that is ahead is `src` (R222). -/
theorem unread_cleared (s : State) : unread { s with rbuf := 0, rcnt := 0 } = bitsOfBytes s.src := rfl

/-- A source that begins with a serialized tree of distinct symbols: the tree is read, and the rest decides (R222). -/
theorem decompress_tree {s : State} (hio : s.io = []) {t : Tree} {rest : List Bool} (hnodup : (treeSymbols t).Nodup)
    (hsrc : bitsOfBytes s.src = treeBits t ++ rest) :
    ∃ u, decompress s = promote (readSymbols u) ∧ TreeRead s t rest u := by
  obtain ⟨x, rbuf, rcnt, src, nm, nint, hdes, hparse, rfl, hrest⟩ := deserializeTree_reads
    (s := { s with rbuf := 0, rcnt := 0 }) hio (Nat.zero_le 7) hnodup ((unread_cleared s).trans hsrc)
  refine ⟨_, by rw [decompress_eq, hdes, bind_ok], ?_⟩
  exact ⟨rfl, hio, rfl, rfl, rfl, hparse.forest.tree_eq rfl rfl, hparse.reader, hrest⟩

/-- A source that begins with none is refused, with nothing appended and no current tree (R107, R181, R256). -/
theorem decompress_noTree {s : State} (hio : s.io = [])
    (hsrc : ¬ ∃ (t : Tree) (rest : List Bool), (treeSymbols t).Nodup ∧ bitsOfBytes s.src = treeBits t ++ rest) :
    ∃ u, decompress s = .raised .corruptStream u ∧ u.snk = s.snk ∧ u.rootValid = false ∧ u.rsp = s.rsp := by
  rcases deserializeTree_cases (s := { s with rbuf := 0, rcnt := 0 }) hio (Nat.zero_le 7) with
    ⟨t, rest, hnodup, hu⟩ | ⟨u, xs, hdes, -, hv, hrsp⟩
  · exact absurd ⟨t, rest, hnodup, hu⟩ hsrc
  · have hframe := (deserializeTree_frame _).2 _ u hdes
    unfold Frame at hframe
    refine ⟨u, ?_, by rw [hframe], hv, hrsp⟩
    rw [decompress_eq, hdes, bind_raised, promote_raised u (by decide)]

/-! ### The count and the walk -/

section Ahead

variable {s u : State} {t : Tree} {rest : List Bool} (hu : TreeRead s t rest u)
include hu

/-- The count and the codes of that many symbols are ahead: the symbols are appended and the count is the value (R222). -/
theorem TreeRead.readSymbols_ok {n : Word32} {syms : List Byte} {rest' : List Bool}
    (hsyms : ∀ b ∈ syms, b ∈ treeSymbols t) (hlen : syms.length = n.toNat)
    (hrest : rest = bitsMsb n ++ (decoderBits t syms ++ rest')) :
    ∃ v, readSymbols u = .ok n v ∧ TreeRead { s with snk := s.snk ++ syms } t rest' v := by
  obtain ⟨rbuf, rcnt, src, hint, hr, hu'⟩ := getBits_bitsMsb n hu.io hu.reader (hu.ahead.trans hrest)
  obtain ⟨rbuf', rcnt', src', hwalk, hr', hend⟩ := decodeSymbols_reads
    (s := { u with rbuf := rbuf, rcnt := rcnt, src := src }) hu.io hr hu.current hu.tree hsyms hlen hu'
  refine ⟨_, by rw [readSymbols, getInt, hint, bind_ok, hwalk, bind_ok], ?_⟩
  exact ⟨hu.err, hu.io, congrArg (· ++ syms) hu.snk, hu.rsp, hu.current, hu.tree, hr', hend⟩

/-- The source ends inside the count (R107). -/
theorem TreeRead.readSymbols_shortCount (hrest : rest.length < 32) :
    ∃ rbuf : Byte, promote (readSymbols u) = .raised .corruptStream { u with rbuf := rbuf, rcnt := 0, src := [] } := by
  obtain ⟨rbuf, hint⟩ := getBits_end (0 : Word32) hu.io hu.reader (hu.ahead ▸ hrest)
  exact ⟨rbuf, by rw [readSymbols, getInt, hint, bind_raised, promote_endOfStream]⟩

end Ahead

/-- The source ends inside the walk (R107). -/
theorem TreeRead.readSymbols_cutShort {s u : State} {l r : Tree} {n : Word32} {syms : List Byte} {bits : List Bool}
    (hu : TreeRead s (.node l r) (bitsMsb n ++ bits) u) (hcut : CutShort l r n.toNat syms bits) :
    ∃ rbuf : Byte, promote (readSymbols u) =
      .raised .corruptStream { u with rbuf := rbuf, rcnt := 0, src := [], snk := u.snk ++ syms } := by
  obtain ⟨rbuf, rcnt, src, hint, hr, rfl⟩ := getBits_bitsMsb n hu.io hu.reader hu.ahead
  obtain ⟨rbuf', hwalk⟩ := decodeSymbols_end (s := { u with rbuf := rbuf, rcnt := rcnt, src := src }) hu.io hr hu.current
    hu.tree hcut
  refine ⟨rbuf', ?_⟩
  rw [readSymbols, getInt, hint, bind_ok, hwalk, bind_raised, promote_raised _ (by decide)]

/-! ### The command -/

/-- The source begins with a serialized tree of distinct symbols, a count and the codes of that many symbols (R100). -/
def IsStream (bits : List Bool) : Prop :=
  ∃ (t : Tree) (n : Word32) (syms : List Byte) (rest : List Bool), (treeSymbols t).Nodup ∧
    (∀ b ∈ syms, b ∈ treeSymbols t) ∧ syms.length = n.toNat ∧
    bits = treeBits t ++ bitsMsb n ++ decoderBits t syms ++ rest

/-- Settles O46: the tree, the count and the codes are read one after another. -/
theorem decompressReadsTheStream : Obligations.DecompressReadsTheStream := by
  intro s t n syms rest herr hio hnodup hsyms hlen hsrc
  rw [List.append_assoc, List.append_assoc] at hsrc
  obtain ⟨u, hdec, hu⟩ := decompress_tree hio hnodup hsrc
  obtain ⟨v, hread, hv⟩ := hu.readSymbols_ok hsyms hlen rfl
  have hexec : exec .decDecompress s = .next (v.respond (n.setWidth 41)) :=
    exec_of_rule_ok herr rfl (by rw [ruleOf, hdec, hread, promote_ok, bind_ok])
  have hverr : v.err = none := hv.err.trans herr
  refine ⟨_, hexec, (exec_frame hexec).1, hverr, hv.current, hv.tree, hv.snk, hv.ahead, ?_⟩
  rw [respond_rsp, hverr, hv.rsp]

/-! ### Every other source -/

/-- DEC_DECOMPRESS answers CorruptStream from `s`, and `P` holds of the state it leaves (R222, R252). -/
def Corrupt (s : State) (P : State → Prop) : Prop :=
  ∃ t, exec .decDecompress s = .next t ∧ t.err = some .corruptStream ∧
    t.rsp = s.rsp ++ [responseWord (some .corruptStream) 0] ∧ P t

/-- Every bit of `s` is consumed and `syms` appended, with `t` the current tree (R222). -/
def StopsAfter (s : State) (t : Tree) (syms : List Byte) (u : State) : Prop :=
  u.snk = s.snk ++ syms ∧ u.rootValid = true ∧ u.tree = some t ∧ u.rcnt = 0 ∧ u.src = []

/-- A rule that refuses the stream is answered with CorruptStream (R252). -/
theorem corrupt_of_raised {s u : State} {P : State → Prop} (herr : s.err = none)
    (h : decompress s = .raised .corruptStream u) (hrsp : u.rsp = s.rsp) (hP : P (takeError .corruptStream u)) :
    Corrupt s P :=
  ⟨_, exec_of_rule_raised herr rfl (by rw [ruleOf, h, bind_raised]), rfl, by rw [takeError_rsp, hrsp], hP⟩

/-- What a command answers it answers once. -/
theorem Corrupt.of_exec {s t : State} {P : State → Prop} (h : Corrupt s P) (hexec : exec .decDecompress s = .next t) :
    t.err = some .corruptStream ∧ t.rsp = s.rsp ++ [responseWord (some .corruptStream) 0] ∧ P t := by
  obtain ⟨u, hu, hP⟩ := h
  rw [hexec] at hu
  cases hu
  exact hP

theorem Corrupt.weaken {s : State} {P : State → Prop} (h : Corrupt s P) : Corrupt s fun _ => True := by
  obtain ⟨u, hexec, herr, hrsp, -⟩ := h
  exact ⟨u, hexec, herr, hrsp, trivial⟩

section Refused

variable {s : State} (herr : s.err = none) (hio : s.io = [])
include herr hio

/-- No tree: nothing is appended and there is no current tree (R107). -/
theorem corrupt_noTree
    (hsrc : ¬ ∃ (t : Tree) (rest : List Bool), (treeSymbols t).Nodup ∧ bitsOfBytes s.src = treeBits t ++ rest) :
    Corrupt s fun u => u.snk = s.snk ∧ u.rootValid = false := by
  obtain ⟨u, hdec, hsnk, hv, hrsp⟩ := decompress_noTree hio hsrc
  exact corrupt_of_raised herr hdec hrsp ⟨hsnk, hv⟩

/-- The source ends inside the count: the tree stands (R107). -/
theorem corrupt_shortCount {t : Tree} {rest : List Bool} (hnodup : (treeSymbols t).Nodup)
    (hsrc : bitsOfBytes s.src = treeBits t ++ rest) (hrest : rest.length < 32) : Corrupt s (StopsAfter s t []) := by
  obtain ⟨u, hdec, hu⟩ := decompress_tree hio hnodup hsrc
  obtain ⟨rbuf, hread⟩ := hu.readSymbols_shortCount hrest
  refine corrupt_of_raised herr (hdec.trans hread) hu.rsp ⟨?_, hu.current, hu.tree, rfl, rfl⟩
  rw [List.append_nil]
  exact hu.snk

/-- The source ends inside the walk: the tree stands and the symbols completed are appended (R107). -/
theorem corrupt_cutShort {l r : Tree} {n : Word32} {syms : List Byte} {bits : List Bool}
    (hnodup : (treeSymbols (.node l r)).Nodup)
    (hsrc : bitsOfBytes s.src = treeBits (.node l r) ++ (bitsMsb n ++ bits)) (hcut : CutShort l r n.toNat syms bits) :
    Corrupt s (StopsAfter s (.node l r) syms) := by
  obtain ⟨u, hdec, hu⟩ := decompress_tree hio hnodup hsrc
  obtain ⟨rbuf, hread⟩ := hu.readSymbols_cutShort hcut
  exact corrupt_of_raised herr (hdec.trans hread) hu.rsp
    ⟨congrArg (· ++ syms) hu.snk, hu.current, hu.tree, rfl, rfl⟩

/-- A source is a stream, or it is refused in one of the three ways (R107). -/
theorem isStream_or_corrupt : IsStream (bitsOfBytes s.src) ∨ Corrupt s fun _ => True := by
  by_cases htree : ∃ (t : Tree) (rest : List Bool), (treeSymbols t).Nodup ∧ bitsOfBytes s.src = treeBits t ++ rest
  case neg => exact .inr ((corrupt_noTree herr hio htree).weaken)
  obtain ⟨t, rest, hnodup, hsrc⟩ := htree
  by_cases hcount : rest.length < 32
  · exact .inr (corrupt_shortCount herr hio hnodup hsrc hcount).weaken
  obtain ⟨n, hn⟩ := exists_bitsMsb (List.length_take_of_le (Nat.le_of_not_lt hcount))
  rw [← List.take_append_drop 32 rest, ← hn] at hsrc
  have hdecodable : Decodable t n.toNat (rest.drop 32) ∨ Corrupt s fun _ => True := by
    cases t with
    | leaf sym => exact .inl (decodable_leaf sym _ _)
    | node l r =>
      refine (decodable_or_cutShort hnodup n.toNat (rest.drop 32)).imp_right fun ⟨syms, hcut⟩ => ?_
      exact (corrupt_cutShort herr hio hnodup hsrc hcut).weaken
  refine hdecodable.imp_left fun ⟨syms, rest', hsyms, hlen, hbits⟩ => ⟨t, n, syms, rest', hnodup, hsyms, hlen, ?_⟩
  rw [hsrc, hbits]
  simp only [List.append_assoc]

/-- A stream is accepted (R222). -/
theorem exec_of_isStream (h : IsStream (bitsOfBytes s.src)) : ∃ t, exec .decDecompress s = .next t ∧ t.err = none := by
  obtain ⟨tr, n, syms, rest, hnodup, hsyms, hlen, hsrc⟩ := h
  obtain ⟨t, hexec, -, hterr, -⟩ := decompressReadsTheStream s tr n syms rest herr hio hnodup hsyms hlen hsrc
  exact ⟨t, hexec, hterr⟩

/-- Everything DEC_DECOMPRESS can answer (R222). -/
theorem exec_decDecompress_cases :
    ∃ t, exec .decDecompress s = .next t ∧
      ((t.err = none ∧ IsStream (bitsOfBytes s.src)) ∨
        (t.err = some .corruptStream ∧ t.rsp = s.rsp ++ [responseWord (some .corruptStream) 0])) := by
  rcases isStream_or_corrupt herr hio with hstream | ⟨t, hexec, hterr, hrsp, -⟩
  · obtain ⟨t, hexec, hterr⟩ := exec_of_isStream herr hio hstream
    exact ⟨t, hexec, .inl ⟨hterr, hstream⟩⟩
  · exact ⟨t, hexec, .inr ⟨hterr, hrsp⟩⟩

end Refused

/-- Settles O47: a stream is accepted, and every other source is refused at the place where it stops being one. -/
theorem decompressRefusesEveryOtherSource : Obligations.DecompressRefusesEveryOtherSource := by
  intro s herr hio
  obtain ⟨t, hexec, hend⟩ := exec_decDecompress_cases herr hio
  refine ⟨t, hexec, ⟨fun hok => ?_, fun hstream => ?_⟩, fun herr' => ?_, fun htree => ?_,
    fun tr rest hnodup hsrc hrest => ?_, ?_⟩
  · rcases hend with ⟨-, hstream⟩ | ⟨hterr, -⟩
    · exact hstream
    · rw [hok] at hterr
      cases hterr
  · obtain ⟨t', hexec', hterr⟩ := exec_of_isStream herr hio hstream
    rw [hexec] at hexec'
    cases hexec'
    exact hterr
  · exact hend.resolve_left fun h => herr' h.1
  · obtain ⟨hterr, -, hsnk, hv⟩ := (corrupt_noTree herr hio htree).of_exec hexec
    exact ⟨hterr, hsnk, hv⟩
  · obtain ⟨hterr, -, hsnk, hstop⟩ := (corrupt_shortCount herr hio hnodup hsrc hrest).of_exec hexec
    exact ⟨hterr, hsnk.trans (List.append_nil _), hstop⟩
  · intro l r n syms part b hnodup hsyms hfewer hb hpre hne hsrc
    rw [List.append_assoc, List.append_assoc] at hsrc
    obtain ⟨hterr, -, hstop⟩ :=
      (corrupt_cutShort herr hio hnodup hsrc ⟨hsyms, hfewer, part, b, hb, hpre, hne, rfl⟩).of_exec hexec
    exact ⟨hterr, hstop⟩

/-! ### The round trip -/

/-- What an encoder writes for an input begins with what the decoder reads for it; a single leaf's codes are not read
(R103). -/
theorem decoderBits_prefix (t : Tree) (input : List Byte) : decoderBits t input <+: encodeBytes t input := by
  cases t with
  | leaf sym => exact List.nil_prefix
  | node l r => exact List.prefix_rfl

/-- Settles O49: what ENC_COMPRESS appends is a stream of the input's symbols, whatever follows it. -/
theorem decompressInvertsCompress : Obligations.DecompressInvertsCompress := by
  intro s herr hio hfit
  obtain ⟨t, bytes, hexec, -, hnodup, hsyms, hbits⟩ := exec_encCompress_fits herr hio hfit
  refine ⟨_, bytes, hexec, herr, rfl, fun r more hrerr hrio hrsrc => ?_⟩
  obtain ⟨unreadCodes, hcodes⟩ := decoderBits_prefix t s.src
  have hstream : bitsOfBytes r.src = treeBits t ++ bitsMsb (BitVec.ofNat 32 s.src.length) ++ decoderBits t s.src ++
      (unreadCodes ++ padding (streamBits t s.src).length ++ bitsOfBytes more) := by
    rw [hrsrc, bitsOfBytes_append, hbits, streamBits, ← hcodes]
    simp only [List.append_assoc]
  have hlen : s.src.length = (BitVec.ofNat 32 s.src.length).toNat := by
    rw [BitVec.toNat_ofNat, Nat.mod_eq_of_lt (hfit.trans_lt s.cfg.ibCap.isLt)]
  obtain ⟨u, hdec, -, huerr, -, -, husnk, -⟩ := decompressReadsTheStream r t _ s.src _ hrerr hrio hnodup
    (fun b hb => (hsyms b).2 (.inl hb)) hlen hstream
  exact ⟨u, hdec, huerr, husnk⟩

end Sys2Proof.Machine
end

section
/-! SUPPORT. SYS_RESET (spec/47_system.md R240): the transition of the hardware reset (R280), answered. -/

namespace Sys2Proof.Machine

/-- SYS_RESET does not go through command entry: it resets the block whatever `ERR` holds, then answers value 0 (R86, R240). -/
theorem exec_sysReset (s : State) : exec .sysReset s = .next ((resetBlock s).respond 0) := rfl

/-- Settles O15: the answer is given by the block already reset, so with no error. -/
theorem sysResetResult : Obligations.SysResetResult := by
  refine ⟨decode_eq_ok_iff.2 ⟨rfl, rfl⟩, fun s => ?_⟩
  rw [exec_sysReset, State.respond, resetBlock_err, responseWord_none_zero]
  rfl

end Sys2Proof.Machine
end

section
/-! SUPPORT. Everything a rule can end with (spec/60_exceptions.md R251, R258, R265): the errors listed for its command, an
IOError where an access is left to fail, and a broken tree where the current tree is broken to begin with. -/

namespace Sys2Proof.Machine

/-! ### How a rule can end -/

/-- The rule goes on in a state with `I`, raises an error in `E`, or meets a broken tree, which takes `B`. -/
def Res.Meets {α : Type} (E : ErrorKind → Prop) (B : Prop) (I : State → Prop) : Res α → Prop
  | .ok _ t => I t
  | .raised e _ => E e
  | .broken => B

/-- While an access is left to fail, IOError is in `E` (R258). -/
def FaultsIn (E : ErrorKind → Prop) (s : State) : Prop := true ∈ s.io → E .ioError

/-- What may be raised inside the decode boundary where `E` may be raised outside (R256). -/
def InBoundary (E : ErrorKind → Prop) (e : ErrorKind) : Prop := E e ∨ e = .endOfStream

theorem FaultsIn.inBoundary {E : ErrorKind → Prop} {s : State} (h : FaultsIn E s) : FaultsIn (InBoundary E) s :=
  fun hmem => .inl (h hmem)

section Meets

variable {α β : Type} {E : ErrorKind → Prop} {B : Prop} {I J : State → Prop}

theorem meets_bind {r : Res α} {f : α → State → Res β} (hr : r.Meets E B I)
    (hf : ∀ a t, r = .ok a t → I t → (f a t).Meets E B J) : (r.bind f).Meets E B J := by
  cases r with
  | ok a t => exact hf a t rfl hr
  | raised e t => exact hr
  | broken => exact hr

/-- Answering, with a value or without, raises nothing. -/
theorem meets_answer {r : Res α} (f : α → Value) (h : r.Meets E B I) :
    (r.bind fun a t => .ok (f a) t).Meets E B fun _ => True :=
  meets_bind h fun _ _ _ _ => trivial

/-- The decode boundary turns the EndOfStream raised inside it into CorruptStream (R256). -/
theorem meets_promote {r : Res α} (hcorrupt : E .corruptStream)
    (h : r.Meets (InBoundary E) B (FaultsIn (InBoundary E))) : (promote r).Meets E B (FaultsIn E) := by
  rcases r with ⟨a, t⟩ | ⟨e, t⟩ | _
  · exact fun hmem => (h hmem).resolve_right nofun
  · by_cases he : e = .endOfStream
    · subst he
      exact hcorrupt
    · rw [promote_raised t he]
      exact h.resolve_right he
  · exact h

theorem withTree_meets {s : State} {f : Tree → Res α} (hnone : s.rootValid = false → E .illegalOperation)
    (hbroken : s.rootValid = true → s.tree = none → B) (hf : ∀ t, (f t).Meets E B I) : (withTree s f).Meets E B I := by
  unfold withTree
  split
  case isTrue hv =>
    split
    · exact hf _
    · exact hbroken hv ‹_›
  case isFalse hv => exact hnone (by simpa using hv)

end Meets

/-! ### The queue -/

section Queue

variable {E : ErrorKind → Prop} {B : Prop} {s : State}

theorem pushKey_meets (hfull : E .illegalOperation) (k : Key) : (pushKey k s).Meets E B fun _ => True := by
  unfold pushKey
  split
  · exact hfull
  · trivial

theorem topKey_meets (hempty : E .underflow) : (topKey s).Meets E B fun _ => True := by
  unfold topKey
  split
  · exact hempty
  · trivial

theorem popKey_meets (hempty : E .underflow) : (popKey s).Meets E B fun _ => True := by
  unfold popKey
  split
  · exact hempty
  · trivial

end Queue

/-! ### The tree TD_DESERIALIZE leaves -/

/-- There is a current tree, and node memory holds it. -/
def HasTree (s : State) : Prop := s.rootValid = true ∧ s.tree ≠ none

theorem HasTree.of_reader {s t : State} (h : HasTree s) (hf : ReaderFrame s t) : HasTree t := by
  unfold ReaderFrame at hf
  rw [hf]
  exact h

/-- TD_DESERIALIZE that goes through leaves a current tree, whatever was there before (R181). -/
theorem deserializeTree_current {s t : State} {u : Unit} (h : deserializeTree s = .ok u t) : HasTree t := by
  have hinv := (deserializeTree_treeInv s).1 u t h
  obtain ⟨r, v, -, hroot⟩ := bind_eq_ok_iff.1 (promote_eq_ok_iff.1 h)
  have hvalid : t.rootValid = true := by cases hroot; rfl
  obtain ⟨-, ⟨tr, htree, -⟩, -⟩ := hinv.2 hvalid
  exact ⟨hvalid, by simp [htree]⟩

/-! ### Channel accesses -/

section Channel

variable {E : ErrorKind → Prop} {B : Prop} {s : State} (hio : FaultsIn E s)
include hio

theorem ioAccess_meets : (ioAccess s).Meets E B (FaultsIn E) := by
  rcases ioAccess_cases s with ⟨_, h⟩ | ⟨rest, hs, h⟩ | ⟨rest, hs, h⟩
  · rw [h]
    exact hio
  · rw [h]
    exact fun hmem => hio (hs ▸ List.mem_cons_of_mem _ hmem)
  · rw [h]
    exact hio (hs ▸ List.mem_cons_self)

theorem srcRead_meets : (srcRead s).Meets E B (FaultsIn E) := by
  refine meets_bind (ioAccess_meets hio) fun _ t _ ht => ?_
  split
  · exact ht
  · exact ht

theorem snkWrite_meets (b : Byte) : (snkWrite b s).Meets E B (FaultsIn E) :=
  meets_bind (ioAccess_meets hio) fun _ _ _ ht => ht

/-! ### The bit writer -/

theorem putBit_meets (b : Bool) : (putBit b s).Meets E B (FaultsIn E) := by
  by_cases h7 : s.wcnt = 7
  · rw [putBit_of_eq_seven b h7]
    exact meets_bind (I := FaultsIn E) (snkWrite_meets (by exact hio) _) fun _ _ _ ht => ht
  · rw [putBit_of_ne_seven b h7]
    exact hio

theorem putBits_meets (bits : List Bool) : (putBits bits s).Meets E B (FaultsIn E) := by
  induction bits generalizing s with
  | nil => exact hio
  | cons b bits ih => exact meets_bind (putBit_meets hio b) fun _ _ _ ht => ih ht

theorem closeWriter_meets : (closeWriter s).Meets E B (FaultsIn E) := by
  by_cases h0 : s.wcnt = 0
  · rw [closeWriter_of_eq_zero h0]
    exact hio
  · rw [closeWriter_of_ne_zero h0]
    exact meets_bind (snkWrite_meets hio _) fun _ _ _ ht => ht

theorem serializeTree_meets (hnone : s.rootValid = false → E .illegalOperation)
    (hbroken : s.rootValid = true → s.tree = none → B) : (serializeTree s).Meets E B (FaultsIn E) :=
  withTree_meets hnone hbroken fun t => by
    rw [serialize_eq_putBits]
    exact putBits_meets hio _

theorem emitCodes_meets (hunbound : E .illegalOperation) (bytes : List Byte) :
    (emitCodes bytes s).Meets E B (FaultsIn E) := by
  induction bytes generalizing s with
  | nil => exact hio
  | cons b bytes ih =>
    unfold emitCodes
    split
    · exact hunbound
    · exact meets_bind (putBits_meets hio _) fun _ _ _ ht => ih ht

/-! ### Loading the input -/

theorem loadLoop_meets (fuel : Nat) : (loadLoop fuel s).Meets E B (FaultsIn E) := by
  induction fuel generalizing s with
  | zero => exact hio
  | succ fuel ih =>
    refine meets_bind (srcRead_meets hio) fun x t _ ht => ?_
    split
    · exact ht
    · exact ih ht

theorem loadInput_meets (hlong : s.cfg.ibCap.toNat < s.src.length → E .illegalOperation) :
    (loadInput s).Meets E B (FaultsIn E) := by
  unfold loadInput
  split
  case isTrue h => exact hlong h
  case isFalse => exact meets_bind (loadLoop_meets (s := { s with ib := [], ft := [] }) hio _) fun _ _ _ ht => ht

/-! ### The bit reader -/

section Reader

variable (hend : E .endOfStream)
include hend

theorem getBit_meets : (getBit s).Meets E B (FaultsIn E) := by
  by_cases h0 : s.rcnt = 0
  · rw [getBit, refill, if_pos h0]
    refine meets_bind (meets_bind (J := FaultsIn E) (srcRead_meets hio) fun x t _ ht => ?_) fun _ _ _ ht => ht
    cases x with
    | none => exact hend
    | some b => exact ht
  · rw [getBit_of_ne_zero h0]
    exact hio

theorem getBits_meets {w : Nat} (n : Nat) (v : BitVec w) : (getBits n v s).Meets E B (FaultsIn E) := by
  induction n generalizing v s with
  | zero => exact hio
  | succ n ih => exact meets_bind (getBit_meets hio hend) fun b _ _ ht => ih ht (shiftIn v b)

theorem walkToLeaf_meets (t : Tree) : (walkToLeaf t s).Meets E B (FaultsIn E) := by
  induction t generalizing s with
  | leaf sym => exact hio
  | node l r ihl ihr =>
    refine meets_bind (getBit_meets hio hend) fun b u _ hu => ?_
    split
    · exact ihr hu
    · exact ihl hu

theorem decodeLoop_meets (t : Tree) (n : Nat) : (decodeLoop t n s).Meets E B (FaultsIn E) := by
  induction n generalizing s with
  | zero => exact hio
  | succ n ih =>
    exact meets_bind (walkToLeaf_meets hio hend t) fun sym _ _ hu =>
      meets_bind (snkWrite_meets hu sym) fun _ _ _ hv => ih hv

variable (hcorrupt : E .corruptStream)
include hcorrupt

theorem readLeaf_meets : (readLeaf s).Meets E B (FaultsIn E) := by
  refine meets_bind (getBits_meets hio hend 8 0) fun sym t _ ht => ?_
  split
  · exact hcorrupt
  · exact ht

theorem deserialize_meets (levels : Nat) : (deserialize levels s).Meets E B (FaultsIn E) := by
  induction levels generalizing s with
  | zero => exact hcorrupt
  | succ levels ih =>
    refine meets_bind (getBit_meets hio hend) fun flag t _ ht => ?_
    split
    · exact readLeaf_meets ht hend hcorrupt
    · exact meets_bind (ih ht) fun _ _ _ hu => meets_bind (ih hu) fun _ _ _ hv => hv

end Reader

theorem writeRepeated_meets (b : Byte) (n : Nat) : (writeRepeated b n s).Meets E B (FaultsIn E) := by
  induction n generalizing s with
  | zero => exact hio
  | succ n ih => exact meets_bind (snkWrite_meets hio b) fun _ _ _ ht => ih ht

/-! ### The decode boundary -/

section Boundary

variable (hcorrupt : E .corruptStream)
include hcorrupt

theorem deserializeTree_meets : (deserializeTree s).Meets E B (FaultsIn E) :=
  meets_promote hcorrupt <|
    meets_bind (I := FaultsIn (InBoundary E))
      (deserialize_meets (by exact hio.inBoundary) (.inr rfl) (.inl hcorrupt) depthMax) fun _ _ _ ht => ht

theorem decodeSymbols_meets (hnone : s.rootValid = false → E .illegalOperation)
    (hbroken : s.rootValid = true → s.tree = none → B) (n : Word32) : (decodeSymbols n s).Meets E B (FaultsIn E) := by
  refine meets_promote hcorrupt (withTree_meets (fun h => .inl (hnone h)) hbroken fun t => ?_)
  unfold walkTree
  split
  · exact writeRepeated_meets hio.inBoundary _ _
  · exact decodeLoop_meets hio.inBoundary (.inr rfl) _ _

/-- DEC_WALK inside DEC_DECOMPRESS finds the tree just read (R222). -/
theorem decompress_meets : (decompress s).Meets E B (FaultsIn E) := by
  have hin : InBoundary E .corruptStream := .inl hcorrupt
  refine meets_promote hcorrupt <|
    meets_bind (I := FaultsIn (InBoundary E)) (deserializeTree_meets hio.inBoundary hin) fun _ t ht hiot =>
    meets_bind (I := FaultsIn (InBoundary E)) (getBits_meets hiot (.inr rfl) 32 0) fun n u hu hiou =>
    meets_bind (I := FaultsIn (InBoundary E)) (decodeSymbols_meets hiou hin ?_ ?_ n) fun _ _ _ hv => hv
  all_goals
    obtain ⟨hvalid, htree⟩ := (deserializeTree_current ht).of_reader ((getBits_frame 32 0 t).1 _ _ hu)
  · exact fun hv => absurd (hvalid.symm.trans hv) nofun
  · exact fun _ hnone => absurd hnone htree

end Boundary

end Channel

/-! ### Compressing -/

/-- An input that is loaded whole is loaded as if no access could fail (R171). -/
theorem loadLoop_ok {fuel : Nat} {s t : State} {u : Unit} (hfuel : s.src.length < fuel) (h : loadLoop fuel s = .ok u t) :
    ∃ io, t = { s with io := io, ft := countAll s.ft s.src, ib := s.ib ++ s.src, src := [] } := by
  induction fuel generalizing s with
  | zero => omega
  | succ fuel ih =>
    unfold loadLoop at h
    rcases srcRead_cases s with ⟨io, hr, hsrc⟩ | ⟨io, b, rest, hr, hsrc⟩ | ⟨io, hr, _⟩
    · rw [hr] at h
      cases h
      exact ⟨io, by rw [hsrc, countAll, List.append_nil, ← hsrc]⟩
    · rw [hr] at h
      rw [hsrc, List.length_cons] at hfuel
      obtain ⟨io', rfl⟩ := ih (Nat.lt_of_succ_lt_succ hfuel) h
      exact ⟨io', by rw [hsrc, countAll, List.append_assoc]; rfl⟩
    · rw [hr] at h
      cases h

theorem loadInput_ok {s t : State} {n : Word32} (h : loadInput s = .ok n t) :
    InputFits s ∧ ∃ io, t = { s with io := io, ft := countAll [] s.src, ib := s.src, src := [] } := by
  unfold loadInput at h
  split at h
  case isTrue => cases h
  case isFalse hfit =>
    obtain ⟨_, u, hloop, h⟩ := bind_eq_ok_iff.1 h
    obtain ⟨io, rfl⟩ := loadLoop_ok (s := { s with ib := [], ft := [] }) (Nat.lt_succ_self s.src.length) hloop
    cases h
    exact ⟨Nat.not_lt.1 hfit, io, rfl⟩

/-- The current tree is `tr`, and it has a leaf for every byte of the input buffer. -/
structure Encodable (tr : Tree) (s : State) : Prop where
  current : s.rootValid = true
  tree : s.tree = some tr
  nodup : (treeSymbols tr).Nodup
  input : ∀ b ∈ s.ib, b ∈ treeSymbols tr

theorem Encodable.of_writer {tr : Tree} {s t : State} (h : Encodable tr s) (hf : WriterFrame s t) : Encodable tr t := by
  obtain ⟨hcurrent, htree, hnodup, hinput⟩ := h
  unfold WriterFrame at hf
  rw [hf]
  exact ⟨hcurrent, htree, hnodup, hinput⟩

/-- The tree built over a loaded input has a leaf for every byte of it (R172, R203). -/
theorem encodable_of_loadInput {s t : State} {n : Word32} (h : loadInput s = .ok n t) :
    ∃ tr, Encodable tr (withBuiltTree t) := by
  obtain ⟨hfit, io, rfl⟩ := loadInput_ok h
  obtain ⟨tr, htree, hnodup, hsyms⟩ := inputTree_eq (hfit.trans_lt s.cfg.ibCap.isLt)
  exact ⟨tr, rfl, htree, hnodup, fun b hb => (hsyms b).2 (.inl hb)⟩

section Encode

variable {E : ErrorKind → Prop} {B : Prop} {s : State} (hio : FaultsIn E s)
include hio

theorem Encodable.writeCodes_meets {tr : Tree} (h : Encodable tr s) : (writeCodes s).Meets E B (FaultsIn E) := by
  have hcodes := codeOf_codesOf h.nodup
  have hbound : ∀ b ∈ s.ib, codeOf (codesOf tr) b ≠ [] := fun b hb => by
    rw [hcodes]
    exact treeCode_ne_nil_iff.2 (h.input b hb)
  rw [writeCodes, deriveCodes_some h.current h.tree, bind_ok, emitInput_eq_putBits hbound]
  exact meets_bind (I := FaultsIn E) (putBits_meets (by exact hio) _) fun _ _ _ ht =>
    meets_bind (closeWriter_meets ht) fun _ _ _ hu => hu

theorem Encodable.writeStream_meets {tr : Tree} (h : Encodable tr s) : (writeStream s).Meets E B (FaultsIn E) := by
  rw [writeStream, serializeTree, withTree_some h.current h.tree, serialize_eq_putBits]
  exact
    meets_bind (putBits_meets hio _) fun _ t ht hiot =>
    meets_bind (putBits_meets hiot _) fun _ u hu hiou =>
      ((h.of_writer ((putBits_frame _ s).1 _ t ht)).of_writer ((putBits_frame _ t).1 _ u hu)).writeCodes_meets hiou

/-- ENC_COMPRESS refuses at the load alone, for the tree it then builds has a code for every byte (R203, R251). -/
theorem compress_meets (hlong : s.cfg.ibCap.toNat < s.src.length → E .illegalOperation) :
    (compress s).Meets E B (FaultsIn E) := by
  rw [compress_eq]
  refine meets_bind (loadInput_meets (s := { s with wbuf := 0, wcnt := 0 }) hio hlong) fun _ t ht hiot => ?_
  obtain ⟨tr, htr⟩ := encodable_of_loadInput ht
  rw [buildTree_eq, bind_ok]
  exact htr.writeStream_meets hiot

end Encode

/-! ### Every rule -/

/-- The errors a command may raise in a state: its own, ENC_COMPRESS its own for the length only, and IOError where it uses
a channel and an access is left to fail (R251, R258). -/
def Listed (i : Instr) (s : State) (e : ErrorKind) : Prop :=
  (mayRaise i e = true ∧ (i = .encCompress → s.cfg.ibCap.toNat < s.src.length)) ∨
    (e = .ioError ∧ usesChannel i = true ∧ true ∈ s.io)

/-- The current tree is no tree, which the tree invariants rule out (R34). -/
def BrokenTree (s : State) : Prop := s.rootValid = true ∧ s.tree = none

theorem not_brokenTree {s : State} (h : TreeInv s) : ¬ BrokenTree s := fun ⟨hv, hnone⟩ => by
  obtain ⟨-, ⟨t, htree, -⟩, -⟩ := h.2 hv
  rw [hnone] at htree
  cases htree

/-- Every rule raises what is listed for its command, and meets a broken tree only where it starts with one. -/
theorem ruleOf_meets (i : Instr) (s : State) : (ruleOf i s).Meets (Listed i s) (BrokenTree s) fun _ => True := by
  have faults (h : usesChannel i = true) : FaultsIn (Listed i s) s := fun hmem => .inr ⟨rfl, h, hmem⟩
  by_cases hi : i = .encCompress
  · subst hi
    exact meets_answer _ (compress_meets (faults rfl) fun hlong => .inl ⟨rfl, fun _ => hlong⟩)
  have own {e : ErrorKind} (h : mayRaise i e = true) : Listed i s e := .inl ⟨h, fun he => absurd he hi⟩
  cases i with
  | pqPush freq id => exact meets_answer _ (pushKey_meets (own rfl) _)
  | pqTop => exact topKey_meets (own rfl)
  | pqPop => exact meets_answer _ (popKey_meets (own rfl))
  | pqSize | sysReset | sysRdreg => trivial
  | bwPutbit b => exact meets_answer _ (putBit_meets (faults rfl) b)
  | bwPutbyte b => exact meets_answer _ (putBits_meets (faults rfl) (bitsMsb b))
  | bwPutint v => exact meets_answer _ (putBits_meets (faults rfl) (bitsMsb v))
  | bwClose => exact meets_answer _ (closeWriter_meets (faults rfl))
  | brGetbit => exact meets_answer _ (getBit_meets (faults rfl) (own rfl))
  | brGetbyte => exact meets_answer _ (getBits_meets (faults rfl) (own rfl) 8 0)
  | brGetint => exact meets_answer _ (getBits_meets (faults rfl) (own rfl) 32 0)
  | ftLoad => exact meets_answer _ (loadInput_meets (faults rfl) fun _ => own rfl)
  | tbBuild =>
    rw [ruleOf, buildTree_eq]
    trivial
  | tsSerialize => exact meets_answer _ (serializeTree_meets (faults rfl) (fun _ => own rfl) And.intro)
  | tdDeserialize => exact meets_answer _ (deserializeTree_meets (faults rfl) (own rfl))
  | ctDerive =>
    exact meets_answer (I := fun _ => True) _ (withTree_meets (fun _ => own rfl) And.intro fun _ => trivial)
  | encEmit => exact meets_answer _ (emitCodes_meets (faults rfl) (own rfl) s.ib)
  | encCompress => exact absurd rfl hi
  | decWalk n =>
    exact meets_answer _ (decodeSymbols_meets (faults rfl) (own rfl) (fun _ => own rfl) And.intro n)
  | decDecompress => exact meets_answer _ (decompress_meets (faults rfl) (own rfl))

/-! ### Every command -/

/-- The register map names the indices 0 to 6 (R45). -/
theorem regMap_eq_none_iff {s : State} {idx : BitVec 4} : regMap s idx = none ↔ 7 ≤ idx.toNat := by
  unfold regMap
  split
  case h_8 =>
    refine iff_of_true rfl ?_
    simp only [imp_false] at *
    omega
  all_goals exact iff_of_false nofun (by omega)

/-- An error a command leaves where none stood is listed for the command. -/
theorem exec_err_listed {i : Instr} {s t : State} {e : ErrorKind} (hwf : i.wf = true) (hs : s.err = none)
    (h : exec i s = .next t) (ht : t.err = some e) : Listed i s e := by
  by_cases hi : isSystem i = false
  · rw [exec_eq_command hi] at h
    rcases command_eq_next h with ⟨k, hk, -⟩ | ⟨-, v, u, hr, rfl⟩ | ⟨-, k, u, hr, rfl⟩
    · exact absurd (hs.symm.trans hk) nofun
    · obtain ⟨herr, -⟩ := (ruleOf_sameAnswers i s).1 v u hr
      exact absurd (ht.symm.trans (herr.trans hs)) nofun
    · obtain rfl : k = e := Option.some.inj ht
      have hmeets := ruleOf_meets i s
      rw [hr] at hmeets
      exact hmeets
  cases i with
  | sysReset =>
    cases h
    cases ht
  | sysRdreg idx =>
    cases hv : regMap s idx with
    | some v =>
      rw [exec_sysRdreg_some hv] at h
      cases h
      exact absurd (hs.symm.trans ht) nofun
    | none =>
      have hidx := regMap_eq_none_iff.1 hv
      simp [Instr.wf, registerIndexOk] at hwf
      omega
  | _ => exact absurd rfl hi

/-- IOError is no command's own (R251). -/
theorem mayRaise_ioError (i : Instr) : mayRaise i .ioError = false := by
  cases i <;> rfl

/-- Settles O11: an error left behind was raised by the command's rule, which raises what is listed. -/
theorem onlyListedErrorsAreRaised : Obligations.OnlyListedErrorsAreRaised := by
  refine ⟨fun i s t e hwf hs h ht => ?_, fun cw k s hcw hs => ?_⟩
  · rcases exec_err_listed hwf hs h ht with ⟨hmay, hlong⟩ | ⟨rfl, hch, hmem⟩
    · refine ⟨fun _ => hmay, ?_, fun hi _ => hlong hi⟩
      rintro rfl
      exact absurd ((mayRaise_ioError i).symm.trans hmay) nofun
    · exact ⟨fun hne => absurd rfl hne, fun _ => ⟨hch, hmem⟩, fun _ => nofun⟩
  · exact ⟨takeError .illegalOperation s, by simp only [receive, hcw, illegalWord_eq, hs], rfl⟩

/-- With a tree where one is current, no command is stuck (R265). -/
theorem exec_answers {s : State} (h : TreeInv s) (i : Instr) : ∃ t, exec i s = .next t := by
  by_cases hi : isSystem i = false
  · rw [exec_eq_command hi]
    refine command_answers fun _ hr => not_brokenTree h ?_
    have hmeets := ruleOf_meets i s
    rw [hr] at hmeets
    exact hmeets
  cases i with
  | sysReset => exact ⟨_, exec_sysReset s⟩
  | sysRdreg idx =>
    cases hv : regMap s idx with
    | some v => exact ⟨_, exec_sysRdreg_some hv⟩
    | none =>
      rw [exec_sysRdreg_none hv]
      exact command_answers fun _ => nofun
  | _ => exact absurd rfl hi

theorem receive_answers {s : State} (h : TreeInv s) (cw : Word64) : ∃ t, receive cw s = .next t := by
  unfold receive
  split
  · exact exec_answers h _
  · exact command_answers fun _ => nofun

/-- Settles O58: a rule meets a broken tree only where it starts with one, which the tree invariants rule out. -/
theorem everyStepAnswers : Obligations.EveryStepAnswers := by
  refine fun s h => ⟨?_, exec_answers h⟩
  unfold step hostStep
  split
  case h_2 cw rest _ => exact receive_answers (s := { s with host := rest }) (sameBlock_treeInv rfl h) cw
  all_goals exact ⟨_, rfl⟩

/-! ### While an error stands -/

/-- While an error stands every command but a legal SYS_RESET and a legal SYS_RDREG is ignored (R86, R254). -/
theorem exec_ignored {i : Instr} {s : State} {e : ErrorKind} (hs : s.err = some e) (hreset : i ≠ .sysReset)
    (hread : ∀ idx, i = .sysRdreg idx → regMap s idx = none) : exec i s = .next (s.respond 0) := by
  by_cases hi : isSystem i = false
  · rw [exec_eq_command hi, command_ignored hs]
  cases i with
  | sysReset => exact absurd rfl hreset
  | sysRdreg idx => exact (exec_sysRdreg_none (hread idx rfl)).trans (command_ignored hs)
  | _ => exact absurd rfl hi

/-- Settles O9: command entry ignores the command, and SYS_RDREG of a register only answers. -/
theorem errorStateIgnoresCommands : Obligations.ErrorStateIgnoresCommands := by
  refine ⟨fun i s e hs hreset hread => ?_, fun i s t e hs hreset h => ?_⟩
  · rw [exec_ignored hs hreset fun idx hidx => regMap_eq_none_iff.2 (hread idx hidx), State.respond, hs]
  · by_cases hread : ∀ idx, i = .sysRdreg idx → regMap s idx = none
    · rw [exec_ignored hs hreset hread] at h
      cases h
      exact hs
    · push Not at hread
      obtain ⟨idx, rfl, hv⟩ := hread
      obtain ⟨v, hv⟩ := Option.ne_none_iff_exists'.1 hv
      rw [exec_sysRdreg_some hv] at h
      cases h
      exact hs

end Sys2Proof.Machine
end

section
/-! SUPPORT. The error codes (spec/60_exceptions.md R250), the first failing access of a command (R258), and a state in which
each error of R251 is raised. -/

namespace Sys2Proof.Machine

/-- Settles O13: the table of R250, row by row. -/
theorem errorCodes : Obligations.ErrorCodes := ⟨rfl, rfl, rfl, rfl, rfl, rfl⟩

/-! ### A failing access -/

section Failing

variable {s : State} {rest : List Bool} (hio : s.io = true :: rest)
include hio

theorem ioAccess_fails : ioAccess s = .raised .ioError { s with io := rest } := by
  rw [ioAccess, hio]

theorem srcRead_fails : srcRead s = .raised .ioError { s with io := rest } := by
  rw [srcRead, ioAccess_fails hio, bind_raised]

theorem snkWrite_fails (b : Byte) : snkWrite b s = .raised .ioError { s with io := rest } := by
  rw [snkWrite, ioAccess_fails hio, bind_raised]

/-- The eighth bit is held when the sink fails (R131, R252). -/
theorem putBit_fails (b : Bool) (h : s.wcnt = 7) :
    putBit b s = .raised .ioError { s with io := rest, wbuf := shiftIn s.wbuf b, wcnt := 8 } := by
  rw [putBit_of_eq_seven b h, snkWrite_fails (by exact hio), bind_raised]

theorem putBits_fails (b : Bool) (bits : List Bool) (h : s.wcnt = 7) :
    putBits (b :: bits) s = .raised .ioError { s with io := rest, wbuf := shiftIn s.wbuf b, wcnt := 8 } := by
  rw [putBits, putBit_fails hio b h, bind_raised]

theorem closeWriter_fails (h : s.wcnt ≠ 0) : closeWriter s = .raised .ioError { s with io := rest } := by
  rw [closeWriter_of_ne_zero h, snkWrite_fails hio, bind_raised]

theorem getBit_fails (h : s.rcnt = 0) : getBit s = .raised .ioError { s with io := rest } := by
  rw [getBit, refill, if_pos h, srcRead_fails hio, bind_raised, bind_raised]

theorem getBits_fails {w n : Nat} (v : BitVec w) (h : s.rcnt = 0) :
    getBits (n + 1) v s = .raised .ioError { s with io := rest } := by
  rw [getBits, getBit_fails hio h, bind_raised]

/-- The tables are cleared before the first byte is asked for (R171). -/
theorem loadInput_fails (h : InputFits s) :
    loadInput s = .raised .ioError { s with io := rest, ib := [], ft := [] } := by
  rw [loadInput, if_neg (Nat.not_lt.2 h), loadLoop, srcRead_fails (by exact hio), bind_raised, bind_raised]

/-- The tree is cleared before the first bit is asked for, and the boundary lets IOError through (R181, R256). -/
theorem deserializeTree_fails (h : s.rcnt = 0) :
    deserializeTree s = .raised .ioError { clearTree s with io := rest } := by
  rw [deserializeTree, depthMax, deserialize, getBit_fails (by exact hio) (by exact h), bind_raised, bind_raised,
    promote_raised _ (by decide)]

end Failing

/-- Settles O60: the first access of each rule is the one that fails. -/
theorem ioFaultRaisesIOError : Obligations.IoFaultRaisesIOError := by
  refine fun s rest herr hio => ⟨fun h => ?_, fun bit h => ?_, fun h => ?_, fun h => ?_, fun h => ?_⟩
  · exact exec_of_rule_raised (i := .bwClose) herr rfl (congrArg noResult (closeWriter_fails hio h))
  · exact exec_of_rule_raised (i := .bwPutbit bit) herr rfl (congrArg noResult (putBit_fails hio bit h))
  · exact exec_of_rule_raised (i := .brGetbit) herr rfl (by rw [ruleOf, getBit_fails hio h, bind_raised])
  · exact exec_of_rule_raised (i := .ftLoad) herr rfl (by rw [ruleOf, loadInput_fails hio h, bind_raised])
  · exact exec_of_rule_raised (i := .tdDeserialize) herr rfl (congrArg noResult (deserializeTree_fails hio h))

/-! ### A state for each error -/

/-- A full queue, no tree, an unbound byte in the input buffer and an input longer than `IB_CAP`. -/
def refusing : State := { State.reset with hp := List.replicate heapCap 0, ib := [0], src := [0], cfg := ⟨0⟩ }

/-- An empty queue, an empty source and a tree of two leaves, so that every symbol takes a bit. -/
def exhausted : State :=
  { State.reset with nm := [(0, ⟨0, none⟩), (1, ⟨0, none⟩), (256, ⟨0, some (0, 1)⟩)], nint := 1, root := 256,
                     rootValid := true }

/-- The next access fails; seven bits wait in `WBUF`, none in `RBUF`, the tree is a single leaf, and the byte of the input
buffer has a code. -/
def jammed : State :=
  { State.reset with io := [true], wcnt := 7, nm := [(0, ⟨0, none⟩)], rootValid := true, ib := [0], ct := [(0, [false])] }

/-- Every command that can be refused by the state is (R87, R251). -/
theorem refusing_raises {i : Instr} (h : mayRaise i .illegalOperation = true) :
    ∃ t, ruleOf i refusing = .raised .illegalOperation t := by
  cases i with
  | pqPush freq id => exact ⟨_, congrArg noResult (pushKey_full (by simp [refusing]))⟩
  | ftLoad => exact ⟨_, by rw [ruleOf, loadInput_tooLong (by decide), bind_raised]⟩
  | tsSerialize => exact ⟨_, congrArg noResult (withTree_none rfl _)⟩
  | ctDerive => exact ⟨_, congrArg noResult (withTree_none rfl _)⟩
  | encEmit => exact ⟨_, congrArg noResult (emitCodes_unbound rfl [])⟩
  | encCompress => exact ⟨_, by rw [ruleOf, compress_tooLong (by decide), bind_raised]⟩
  | decWalk n => exact ⟨_, by rw [ruleOf, decodeSymbols, withTree_none rfl, promote_raised _ (by decide), noResult_raised]⟩
  | _ => cases h

theorem exhausted_tree : exhausted.tree = some (.node (.leaf 0) (.leaf 1)) := rfl

theorem exhausted_unread : unread exhausted = [] := rfl

/-- A number of symbols to decode that is not 0 leaves a first symbol (R221). -/
theorem exists_toNat_eq_succ {n : Word32} (h : n ≠ 0) : ∃ k, n.toNat = k + 1 :=
  Nat.exists_eq_succ_of_ne_zero fun h0 => h (BitVec.eq_of_toNat_eq h0)

/-- PQ_TOP and PQ_POP find the queue empty (R112, R113). -/
theorem exhausted_underflow {i : Instr} (h : mayRaise i .underflow = true) :
    ∃ t, ruleOf i exhausted = .raised .underflow t := by
  cases i with
  | pqTop => exact ⟨_, topKey_nil (s := exhausted) rfl⟩
  | pqPop => exact ⟨_, congrArg noResult (popKey_nil rfl)⟩
  | _ => cases h

/-- The refill finds no byte (R151). -/
theorem exhausted_endOfStream {i : Instr} (h : mayRaise i .endOfStream = true) :
    ∃ t, ruleOf i exhausted = .raised .endOfStream t := by
  have hbit := getBit_end (s := exhausted) rfl exhausted_unread
  cases i with
  | brGetbit => exact ⟨_, by rw [ruleOf, hbit, bind_raised]⟩
  | brGetbyte => exact ⟨_, by rw [ruleOf, getByte, getBits, hbit, bind_raised, bind_raised]⟩
  | brGetint => exact ⟨_, by rw [ruleOf, getInt, getBits, hbit, bind_raised, bind_raised]⟩
  | _ => cases h

/-- Inside the decode boundary the same refill is CorruptStream (R181, R221, R256). -/
theorem exhausted_corruptStream {i : Instr} (h : mayRaise i .corruptStream = true) (hi : i ≠ .decWalk 0) :
    ∃ t, ruleOf i exhausted = .raised .corruptStream t := by
  cases i with
  | tdDeserialize => exact ⟨_, rfl⟩
  | decDecompress => exact ⟨_, rfl⟩
  | decWalk n =>
    obtain ⟨k, hk⟩ := exists_toNat_eq_succ (n := n) fun h => hi (congrArg _ h)
    have hbit := getBit_end (s := exhausted) rfl exhausted_unread
    refine ⟨exhausted, ?_⟩
    rw [ruleOf, decodeSymbols_some rfl exhausted_tree, hk, walkTree, decodeLoop, walkToLeaf, hbit, bind_raised,
      bind_raised, promote_endOfStream, noResult_raised]
  | _ => cases h

theorem jammed_tree : jammed.tree = some (.leaf 0) := rfl

/-- Every command that uses a channel reaches an access here (R258); DEC_WALK of no symbols makes none. -/
theorem jammed_raises {i : Instr} (h : usesChannel i = true) (hi : i ≠ .decWalk 0) :
    ∃ t, ruleOf i jammed = .raised .ioError t := by
  cases i with
  | bwPutbit b => exact ⟨_, congrArg noResult (putBit_fails rfl b rfl)⟩
  | bwPutbyte b => exact ⟨_, congrArg noResult (putBits_fails rfl _ _ rfl)⟩
  | bwPutint v => exact ⟨_, congrArg noResult (putBits_fails rfl _ _ rfl)⟩
  | bwClose => exact ⟨_, congrArg noResult (closeWriter_fails rfl (by decide))⟩
  | brGetbit => exact ⟨_, by rw [ruleOf, getBit_fails rfl rfl, bind_raised]⟩
  | brGetbyte => exact ⟨_, by rw [ruleOf, getByte, getBits_fails rfl _ rfl, bind_raised]⟩
  | brGetint => exact ⟨_, by rw [ruleOf, getInt, getBits_fails rfl _ rfl, bind_raised]⟩
  | ftLoad => exact ⟨_, by rw [ruleOf, loadInput_fails rfl (by decide), bind_raised]⟩
  | tsSerialize => exact ⟨_, rfl⟩
  | tdDeserialize => exact ⟨_, congrArg noResult (deserializeTree_fails rfl rfl)⟩
  | encEmit => exact ⟨_, rfl⟩
  | encCompress => exact ⟨_, by rw [ruleOf, compress_eq, loadInput_fails rfl (by decide), bind_raised, bind_raised]⟩
  | decWalk n =>
    obtain ⟨k, hk⟩ := exists_toNat_eq_succ (n := n) fun h => hi (congrArg _ h)
    exact ⟨_, by rw [ruleOf, decodeSymbols_some rfl jammed_tree, hk, walkTree, writeRepeated, snkWrite_fails rfl,
      bind_raised, promote_raised _ (by decide), noResult_raised]⟩
  | decDecompress => exact ⟨_, rfl⟩
  | _ => cases h

/-- A command whose rule raises where no error stands takes the error (R252); the two system commands have no rule that
raises. -/
theorem exec_of_raised {i : Instr} {s t : State} {e : ErrorKind} (herr : s.err = none) (h : ruleOf i s = .raised e t) :
    exec i s = .next (takeError e t) := by
  cases i with
  | sysReset | sysRdreg => cases h
  | _ => exact exec_of_rule_raised herr rfl h

/-- Settles O12: a state that refuses, one that is exhausted, and one whose next access fails. -/
theorem listedErrorsCanBeRaised : Obligations.ListedErrorsCanBeRaised := by
  intro i e hlisted hwalk
  have hi (he : e ≠ .illegalOperation) : i ≠ .decWalk 0 := fun hi => (hwalk 0 hi).elim (absurd rfl) he
  suffices h : ∃ s, s.err = none ∧ ∃ t, ruleOf i s = .raised e t by
    obtain ⟨s, herr, t, ht⟩ := h
    exact ⟨s, _, herr, exec_of_raised herr ht, rfl⟩
  rcases hlisted with hmay | ⟨rfl, hch⟩
  · cases e with
    | underflow => exact ⟨exhausted, rfl, exhausted_underflow hmay⟩
    | endOfStream => exact ⟨exhausted, rfl, exhausted_endOfStream hmay⟩
    | corruptStream => exact ⟨exhausted, rfl, exhausted_corruptStream hmay (hi nofun)⟩
    | ioError => exact absurd ((mayRaise_ioError i).symm.trans hmay) nofun
    | illegalOperation => exact ⟨refusing, rfl, refusing_raises hmay⟩
  · exact ⟨jammed, rfl, jammed_raises hch (hi nofun)⟩

end Sys2Proof.Machine
end

section
/-! SUPPORT. The reset state (spec/70_reset_and_hazards.md R280): its values, the hardware reset that reaches it, and the
between-operations invariants, which it meets. -/

namespace Sys2Proof.Machine

/-- Settles O14: no entry is listed in any table of the reset state, and the hardware reset is `resetBlock`. -/
theorem resetValues : Obligations.ResetValues := by
  refine ⟨⟨rfl, rfl, rfl, rfl, rfl, rfl, rfl, rfl, rfl, rfl, fun _ => rfl, fun _ => rfl, fun _ => rfl⟩,
    fun s rest hhost => ?_⟩
  rw [step, hostStep, hhost]
  rfl

/-- The reset state is what a reset of the block leaves of it. -/
theorem resetBlock_reset : resetBlock State.reset = State.reset := rfl

/-- Settles O51: the buffers and the tables are empty, and `IB_CAP` has its default. -/
theorem invariantsHoldAtReset : Obligations.InvariantsHoldAtReset := by
  refine ⟨by decide, queueInv_of_hp_nil rfl, reset_memory_wf, ?_, ?_, ?_⟩
  · exact ⟨by decide, Nat.zero_le _, fun _ _ => rfl⟩
  · rw [← resetBlock_reset]
    exact resetBlock_treeInv _
  · rw [← resetBlock_reset]
    exact resetBlock_codeInv _

end Sys2Proof.Machine
end

section
/-! SUPPORT. The host's plans and the responses it holds have no part in what a command does (spec/30_encoding.md R82, R86,
spec/70_reset_and_hazards.md R282): every rule, and so every command, does the same to the block whatever they are. -/

namespace Sys2Proof.Machine

/-! ### A rule in front of another host -/

/-- The block in front of a host with other plans and other responses received. -/
def State.facing (s : State) (host : List HostEvent) (rsp : List Word64) : State := { s with host := host, rsp := rsp }

/-- The body of a rule, ending in front of another host. -/
def Res.facing {α : Type} (host : List HostEvent) (rsp : List Word64) : Res α → Res α
  | .ok a s => .ok a (s.facing host rsp)
  | .raised e s => .raised e (s.facing host rsp)
  | .broken => .broken

/-- The body does the same in front of every host. -/
def IgnoresHost {α : Type} (f : State → Res α) : Prop :=
  ∀ s host rsp, f (s.facing host rsp) = (f s).facing host rsp

section Ignoring

variable {α β : Type}

theorem ignoresHost_bind {f : State → Res α} {g : α → State → Res β} (hf : IgnoresHost f) (hg : ∀ a, IgnoresHost (g a)) :
    IgnoresHost fun s => (f s).bind g := by
  intro s host rsp
  dsimp only
  rw [hf s host rsp]
  cases f s with
  | ok a t => exact hg a t host rsp
  | raised e t => rfl
  | broken => rfl

theorem ignoresHost_promote {f : State → Res α} (hf : IgnoresHost f) : IgnoresHost fun s => promote (f s) := by
  intro s host rsp
  dsimp only
  rw [hf s host rsp]
  rcases f s with _ | ⟨e, t⟩ | _
  · rfl
  · cases e <;> rfl
  · rfl

theorem ignoresHost_ite {c : State → Prop} [DecidablePred c] {f g : State → Res α}
    (hc : ∀ s host rsp, c (s.facing host rsp) ↔ c s) (hf : IgnoresHost f) (hg : IgnoresHost g) :
    IgnoresHost fun s => if c s then f s else g s := by
  intro s host rsp
  by_cases h : c s
  · simpa only [if_pos h, if_pos ((hc s host rsp).2 h)] using hf s host rsp
  · simpa only [if_neg h, if_neg (mt (hc s host rsp).1 h)] using hg s host rsp

/-- Answering a value computed from the block. -/
theorem ignoresHost_answer {f : State → Res α} (v : α → Value) (hf : IgnoresHost f) :
    IgnoresHost fun s => (f s).bind fun a t => .ok (v a) t :=
  ignoresHost_bind hf fun _ _ _ _ => rfl

theorem withTree_ignoresHost {f : Tree → State → Res α} (hf : ∀ t, IgnoresHost (f t)) :
    IgnoresHost fun s => withTree s fun t => f t s := by
  refine ignoresHost_ite (c := fun s => s.rootValid = true) (fun _ _ _ => .rfl) (fun s host rsp => ?_) fun _ _ _ => rfl
  have htree : (s.facing host rsp).tree = s.tree := rfl
  dsimp only
  rw [htree]
  cases s.tree with
  | some t => exact hf t s host rsp
  | none => rfl

end Ignoring

/-! ### The channels and the bit buffers -/

theorem ioAccess_ignoresHost : IgnoresHost ioAccess := by
  intro s host rsp
  have hio : (s.facing host rsp).io = s.io := rfl
  unfold ioAccess
  rw [hio]
  rcases s.io with _ | ⟨_ | _, rest⟩ <;> rfl

theorem srcRead_ignoresHost : IgnoresHost srcRead := by
  refine ignoresHost_bind ioAccess_ignoresHost fun _ s host rsp => ?_
  have hsrc : (s.facing host rsp).src = s.src := rfl
  rw [hsrc]
  cases s.src <;> rfl

theorem snkWrite_ignoresHost (b : Byte) : IgnoresHost (snkWrite b) :=
  ignoresHost_bind ioAccess_ignoresHost fun _ _ _ _ => rfl

theorem putBit_ignoresHost (bit : Bool) : IgnoresHost (putBit bit) :=
  ignoresHost_ite (c := fun s => s.wcnt + 1 = 8) (fun _ _ _ => .rfl)
    (ignoresHost_bind
      (fun s => snkWrite_ignoresHost (shiftIn s.wbuf bit) { s with wbuf := shiftIn s.wbuf bit, wcnt := s.wcnt + 1 })
      fun _ _ _ _ => rfl)
    fun _ _ _ => rfl

theorem putBits_ignoresHost (bits : List Bool) : IgnoresHost (putBits bits) := by
  induction bits with
  | nil => exact fun _ _ _ => rfl
  | cons b bits ih => exact ignoresHost_bind (putBit_ignoresHost b) fun _ => ih

theorem closeWriter_ignoresHost : IgnoresHost closeWriter :=
  ignoresHost_ite (c := fun s => s.wcnt = 0) (fun _ _ _ => .rfl) (fun _ _ _ => rfl)
    (ignoresHost_bind (fun s => snkWrite_ignoresHost (s.wbuf <<< (8 - s.wcnt.toNat)) s) fun _ _ _ _ => rfl)

theorem refill_ignoresHost : IgnoresHost refill := by
  refine ignoresHost_ite (c := fun s => s.rcnt = 0) (fun _ _ _ => .rfl) (ignoresHost_bind srcRead_ignoresHost fun x => ?_)
    fun _ _ _ => rfl
  cases x <;> exact fun _ _ _ => rfl

theorem getBit_ignoresHost : IgnoresHost getBit := ignoresHost_bind refill_ignoresHost fun _ _ _ _ => rfl

theorem getBits_ignoresHost {w : Nat} (n : Nat) (v : BitVec w) : IgnoresHost (getBits n v) := by
  induction n generalizing v with
  | zero => exact fun _ _ _ => rfl
  | succ n ih => exact ignoresHost_bind getBit_ignoresHost fun b => ih (shiftIn v b)

/-! ### The queue -/

theorem pushKey_ignoresHost (k : Key) : IgnoresHost (pushKey k) :=
  ignoresHost_ite (c := fun s => heapCap ≤ s.hp.length) (fun _ _ _ => .rfl) (fun _ _ _ => rfl) fun _ _ _ => rfl

theorem topKey_ignoresHost : IgnoresHost topKey := by
  intro s host rsp
  cases h : s.hp with
  | nil => rw [topKey_nil h, topKey_nil (s := s.facing host rsp) h]; rfl
  | cons k rest => rw [topKey_cons h, topKey_cons (s := s.facing host rsp) h]; rfl

theorem popKey_ignoresHost : IgnoresHost popKey := by
  intro s host rsp
  cases h : s.hp with
  | nil => rw [popKey_nil h, popKey_nil (s := s.facing host rsp) h]; rfl
  | cons k rest => rw [popKey_cons h, popKey_cons (s := s.facing host rsp) h]; rfl

/-! ### Encoding -/

theorem loadLoop_ignoresHost (fuel : Nat) : IgnoresHost (loadLoop fuel) := by
  induction fuel with
  | zero => exact fun _ _ _ => rfl
  | succ fuel ih =>
    refine ignoresHost_bind srcRead_ignoresHost fun x => ?_
    cases x with
    | none => exact fun _ _ _ => rfl
    | some b =>
      exact fun t => ih { t with ib := t.ib ++ [b], ft := countPut t.ft b.toNat (countGet t.ft b.toNat + 1) }

theorem loadInput_ignoresHost : IgnoresHost loadInput :=
  ignoresHost_ite (c := fun s => s.cfg.ibCap.toNat < s.src.length) (fun _ _ _ => .rfl) (fun _ _ _ => rfl)
    (ignoresHost_bind (fun s => loadLoop_ignoresHost (s.src.length + 1) { s with ib := [], ft := [] }) fun _ _ _ _ => rfl)

theorem buildTree_ignoresHost : IgnoresHost buildTree := by
  intro s host rsp
  rw [buildTree_eq, buildTree_eq]
  rfl

theorem serializeTree_ignoresHost : IgnoresHost serializeTree := by
  refine withTree_ignoresHost fun t s host rsp => ?_
  rw [serialize_eq_putBits, serialize_eq_putBits, putBits_ignoresHost]

theorem deriveCodes_ignoresHost : IgnoresHost deriveCodes := withTree_ignoresHost fun _ _ _ _ => rfl

theorem emitCodes_ignoresHost (bytes : List Byte) : IgnoresHost (emitCodes bytes) := by
  induction bytes with
  | nil => exact fun _ _ _ => rfl
  | cons b bytes ih =>
    exact ignoresHost_ite (c := fun s => codeOf s.ct b = []) (fun _ _ _ => .rfl) (fun _ _ _ => rfl)
      (ignoresHost_bind (fun s => putBits_ignoresHost (codeOf s.ct b) s) fun _ => ih)

theorem emitInput_ignoresHost : IgnoresHost emitInput := fun s => emitCodes_ignoresHost s.ib s

theorem compress_ignoresHost : IgnoresHost compress :=
  ignoresHost_bind (fun s => loadInput_ignoresHost { s with wbuf := 0, wcnt := 0 }) fun _ =>
  ignoresHost_bind buildTree_ignoresHost fun _ =>
  ignoresHost_bind serializeTree_ignoresHost fun _ =>
  ignoresHost_bind (fun s => putBits_ignoresHost (bitsMsb s.ilen) s) fun _ =>
  ignoresHost_bind deriveCodes_ignoresHost fun _ =>
  ignoresHost_bind emitInput_ignoresHost fun _ =>
  ignoresHost_bind closeWriter_ignoresHost fun _ _ _ _ => rfl

/-! ### Decoding -/

theorem readLeaf_ignoresHost : IgnoresHost readLeaf :=
  ignoresHost_bind (getBits_ignoresHost 8 0) fun sym =>
    ignoresHost_ite (c := fun s => (storeGet s.nm sym.toNat).isSome = true) (fun _ _ _ => .rfl) (fun _ _ _ => rfl)
      fun _ _ _ => rfl

theorem deserialize_ignoresHost (levels : Nat) : IgnoresHost (deserialize levels) := by
  induction levels with
  | zero => exact fun _ _ _ => rfl
  | succ levels ih =>
    refine ignoresHost_bind getBit_ignoresHost fun flag => ?_
    cases flag with
    | true => exact readLeaf_ignoresHost
    | false => exact ignoresHost_bind ih fun _ => ignoresHost_bind ih fun _ _ _ _ => rfl

theorem deserializeTree_ignoresHost : IgnoresHost deserializeTree :=
  ignoresHost_promote (ignoresHost_bind (fun s => deserialize_ignoresHost depthMax (clearTree s)) fun _ _ _ _ => rfl)

theorem walkToLeaf_ignoresHost (t : Tree) : IgnoresHost (walkToLeaf t) := by
  induction t with
  | leaf sym => exact fun _ _ _ => rfl
  | node l r ihl ihr =>
    refine ignoresHost_bind getBit_ignoresHost fun b => ?_
    cases b with
    | true => exact ihr
    | false => exact ihl

theorem writeRepeated_ignoresHost (b : Byte) (n : Nat) : IgnoresHost (writeRepeated b n) := by
  induction n with
  | zero => exact fun _ _ _ => rfl
  | succ n ih => exact ignoresHost_bind (snkWrite_ignoresHost b) fun _ => ih

theorem decodeLoop_ignoresHost (t : Tree) (n : Nat) : IgnoresHost (decodeLoop t n) := by
  induction n with
  | zero => exact fun _ _ _ => rfl
  | succ n ih =>
    exact ignoresHost_bind (walkToLeaf_ignoresHost t) fun sym => ignoresHost_bind (snkWrite_ignoresHost sym) fun _ => ih

theorem walkTree_ignoresHost (t : Tree) (n : Nat) : IgnoresHost (walkTree t n) := by
  cases t with
  | leaf sym => exact writeRepeated_ignoresHost sym n
  | node l r => exact decodeLoop_ignoresHost (.node l r) n

theorem decodeSymbols_ignoresHost (n : Word32) : IgnoresHost (decodeSymbols n) :=
  ignoresHost_promote (withTree_ignoresHost fun t => walkTree_ignoresHost t n.toNat)

theorem decompress_ignoresHost : IgnoresHost decompress :=
  ignoresHost_promote <|
    ignoresHost_bind (fun s => deserializeTree_ignoresHost { s with rbuf := 0, rcnt := 0 }) fun _ =>
    ignoresHost_bind (getBits_ignoresHost 32 0) fun n =>
    ignoresHost_bind (decodeSymbols_ignoresHost n) fun _ _ _ _ => rfl

/-! ### Every command -/

/-- No rule reads the host's plans or the responses. -/
theorem ruleOf_ignoresHost (i : Instr) : IgnoresHost (ruleOf i) := by
  cases i with
  | pqPush freq id => exact ignoresHost_answer _ (pushKey_ignoresHost _)
  | pqTop => exact topKey_ignoresHost
  | pqPop => exact ignoresHost_answer _ popKey_ignoresHost
  | pqSize | sysReset | sysRdreg => exact fun _ _ _ => rfl
  | bwPutbit bit => exact ignoresHost_answer _ (putBit_ignoresHost bit)
  | bwPutbyte b => exact ignoresHost_answer _ (putBits_ignoresHost (bitsMsb b))
  | bwPutint v => exact ignoresHost_answer _ (putBits_ignoresHost (bitsMsb v))
  | bwClose => exact ignoresHost_answer _ closeWriter_ignoresHost
  | brGetbit => exact ignoresHost_answer _ getBit_ignoresHost
  | brGetbyte => exact ignoresHost_answer _ (getBits_ignoresHost 8 0)
  | brGetint => exact ignoresHost_answer _ (getBits_ignoresHost 32 0)
  | ftLoad => exact ignoresHost_answer _ loadInput_ignoresHost
  | tbBuild => exact ignoresHost_answer _ buildTree_ignoresHost
  | tsSerialize => exact ignoresHost_answer _ serializeTree_ignoresHost
  | tdDeserialize => exact ignoresHost_answer _ deserializeTree_ignoresHost
  | ctDerive => exact ignoresHost_answer _ deriveCodes_ignoresHost
  | encEmit => exact ignoresHost_answer _ emitInput_ignoresHost
  | encCompress => exact ignoresHost_answer _ compress_ignoresHost
  | decWalk n => exact ignoresHost_answer _ (decodeSymbols_ignoresHost n)
  | decDecompress => exact ignoresHost_answer _ decompress_ignoresHost

/-- A body that ignores the host leaves what the host holds as it is. -/
theorem IgnoresHost.keeps {α : Type} {f : State → Res α} (hf : IgnoresHost f) (s : State) :
    (f s).Ends fun t => t.host = s.host ∧ t.rsp = s.rsp := by
  have hself : f s = (f s).facing s.host s.rsp := hf s s.host s.rsp
  refine ⟨fun a t h => ?_, fun e t h => ?_⟩
  · rw [h] at hself
    obtain ⟨-, ht⟩ := Res.ok.inj hself
    rw [ht]
    exact ⟨rfl, rfl⟩
  · rw [h] at hself
    obtain ⟨-, ht⟩ := Res.raised.inj hself
    rw [ht]
    exact ⟨rfl, rfl⟩

section Command

variable {body : State → Res Value} (hbody : IgnoresHost body) {s t : State}
include hbody

/-- A command whose rule ends with a value, in front of another host. -/
theorem command_facing_ok {v : Value} (herr : s.err = none) (h : body s = .ok v t) (host : List HostEvent)
    (rsp : List Word64) : command body (s.facing host rsp) = .next ((t.facing host rsp).respond v) := by
  rw [command_ok (by exact herr) (by rw [hbody, h, Res.facing])]

/-- A command whose rule ends at a `raise`, in front of another host. -/
theorem command_facing_raised {e : ErrorKind} (herr : s.err = none) (h : body s = .raised e t) (host : List HostEvent)
    (rsp : List Word64) : command body (s.facing host rsp) = .next (takeError e (t.facing host rsp)) := by
  rw [command_raised (by exact herr) (by rw [hbody, h, Res.facing])]

/-- A command leaves the host's plans as they are and answers the same whatever they are. -/
theorem command_host (h : command body s = .next t) (host : List HostEvent) :
    t.host = s.host ∧ command body { s with host := host } = .next { t with host := host } := by
  rcases command_eq_next h with ⟨e, he, rfl⟩ | ⟨he, v, u, hb, rfl⟩ | ⟨he, e, u, hb, rfl⟩
  · exact ⟨rfl, command_ignored he⟩
  · obtain ⟨hhost, hrsp⟩ := (hbody.keeps s).1 v u hb
    refine ⟨hhost, (command_facing_ok hbody he hb host s.rsp).trans ?_⟩
    rw [← hrsp]
    rfl
  · obtain ⟨hhost, hrsp⟩ := (hbody.keeps s).2 e u hb
    refine ⟨hhost, (command_facing_raised hbody he hb host s.rsp).trans ?_⟩
    rw [← hrsp]
    rfl

end Command

theorem illegalWord_host {s u : State} (h : illegalWord s = .next u) (host : List HostEvent) :
    u.host = s.host ∧ illegalWord { s with host := host } = .next { u with host := host } :=
  command_host (body := fun s => .raised .illegalOperation s) (fun _ _ _ => rfl) h host

theorem exec_host {i : Instr} {s u : State} (h : exec i s = .next u) (host : List HostEvent) :
    u.host = s.host ∧ exec i { s with host := host } = .next { u with host := host } := by
  by_cases hi : isSystem i = false
  · rw [exec_eq_command hi] at h ⊢
    exact command_host (ruleOf_ignoresHost i) h host
  cases i with
  | sysReset =>
    cases h
    exact ⟨rfl, rfl⟩
  | sysRdreg idx =>
    cases hv : regMap s idx with
    | some v =>
      rw [exec_sysRdreg_some hv] at h
      cases h
      exact ⟨rfl, exec_sysRdreg_some (s := { s with host := host }) hv⟩
    | none =>
      rw [exec_sysRdreg_none hv] at h
      rw [exec_sysRdreg_none (s := { s with host := host }) hv]
      exact illegalWord_host h host
  | _ => exact absurd rfl hi

/-- What the host plans next has no part in what a word it hands over does (R282). -/
theorem receive_host {cw : Word64} {s u : State} (h : receive cw s = .next u) (host : List HostEvent) :
    u.host = s.host ∧ receive cw { s with host := host } = .next { u with host := host } := by
  unfold receive at h ⊢
  cases hcw : decode cw with
  | ok i =>
    rw [hcw] at h
    exact exec_host h host
  | error e =>
    rw [hcw] at h
    exact illegalWord_host h host

end Sys2Proof.Machine
end

section
/-! SUPPORT. The launch premises of a command (spec/70_reset_and_hazards.md R282): with them the step is the command itself,
from `ERR = 0` or from the reset that clears it. -/

namespace Sys2Proof.Machine

/-- A host that hands over the word of a command has the command performed. -/
theorem step_of_handsOver {i : Instr} {s : State} (hwf : i.wf = true) (h : HandsOver (encode i) s) :
    step s = exec i { s with host := s.host.tail } := by
  rw [step, hostStep, host_of_handsOver h]
  simp only [receive, decode_eq_ok_iff.2 ⟨hwf, rfl⟩, List.tail_cons]

/-- Settles O50: the host's plans have no part in a command, a launched command starts from `ERR = 0`, where the stream
round trip holds, and the reset it plans after an error clears it. -/
theorem launchPremisesSuffice : Obligations.LaunchPremisesSuffice := by
  refine ⟨fun s t cw rest rest' h => ?_, fun s input hio ⟨hsrc, hover, hreset, hfits⟩ => ?_, fun s herr hreset hhost => ?_⟩
  · exact receive_host (s := { s with host := rest }) h rest'
  · have herr : s.err = none := err_none_of_handsOver hreset hover (by decide)
    obtain ⟨t, z, hexec, hterr, hsnk, hround⟩ :=
      decompressInvertsCompress { s with host := s.host.tail } herr hio (hfits rfl)
    refine ⟨t, z, (step_of_handsOver rfl hover).trans hexec, hterr, hsnk, ?_⟩
    intro r more hrio ⟨hrsrc, hrover, hrreset, _⟩
    have hrerr : r.err = none := err_none_of_handsOver hrreset hrover (by decide)
    obtain ⟨u, hdec, huerr, husnk⟩ := hround { r with host := r.host.tail } more hrerr hrio hrsrc
    exact ⟨u, (step_of_handsOver rfl hrover).trans hdec, huerr, hsrc ▸ husnk⟩
  · have hover : HandsOver (encode .sysReset) s := (hreset herr).resolve_left hhost
    refine ⟨_, (step_of_handsOver rfl hover).trans (exec_sysReset _), rfl, rfl, rfl, ?_⟩
    rw [respond_rsp, resetBlock_err, responseWord_none_zero, resetBlock_rsp]

end Sys2Proof.Machine
end

section
/-! SUPPORT. The pipelines and their unit-level steps (spec/70_reset_and_hazards.md R283): a list of commands ends where the
rules of its commands, one after another, end. -/

namespace Sys2Proof.Machine

/-! ### Runs of commands -/

section Ruled

variable {s t : State} (herr : s.err = none) {i : Instr} (hi : isSystem i = false)
include herr hi

/-- A command whose rule ends with a value, whatever responses the host has received. -/
theorem exec_withRsp_ok {v : Value} (h : ruleOf i s = .ok v t) (rsp : List Word64) :
    exec i { s with rsp := rsp } = .next { t with rsp := rsp ++ [responseWord none v] } := by
  obtain ⟨hhost, -⟩ := ((ruleOf_ignoresHost i).keeps s).1 v t h
  obtain ⟨hterr, -⟩ := (ruleOf_sameAnswers i s).1 v t h
  refine (exec_eq_command hi _).trans ((command_facing_ok (ruleOf_ignoresHost i) herr h s.host rsp).trans ?_)
  rw [← hhost, State.respond, ← hterr.trans herr]
  rfl

/-- A command whose rule ends at a `raise`, whatever responses the host has received. -/
theorem exec_withRsp_raised {e : ErrorKind} (h : ruleOf i s = .raised e t) (rsp : List Word64) :
    exec i { s with rsp := rsp } = .next { t with err := some e, rsp := rsp ++ [responseWord (some e) 0] } := by
  obtain ⟨hhost, -⟩ := ((ruleOf_ignoresHost i).keeps s).2 e t h
  refine (exec_eq_command hi _).trans ((command_facing_raised (ruleOf_ignoresHost i) herr h s.host rsp).trans ?_)
  rw [← hhost]
  rfl

theorem execAll_cons_ok {v : Value} (h : ruleOf i s = .ok v t) (rsp : List Word64) (is : List Instr) :
    execAll (i :: is) { s with rsp := rsp } = execAll is { t with rsp := rsp ++ [responseWord none v] } := by
  rw [execAll, exec_withRsp_ok herr hi h]

/-- From `ERR = 0` a command that answers has performed its rule to a value or to a `raise` (R86, R252). -/
theorem rule_of_exec (h : exec i s = .next t) :
    (∃ v u, ruleOf i s = .ok v u ∧ t = u.respond v) ∨ ∃ e u, ruleOf i s = .raised e u ∧ t = takeError e u := by
  rw [exec_eq_command hi] at h
  rcases command_eq_next h with ⟨e, he, -⟩ | ⟨-, hok⟩ | ⟨-, hraised⟩
  · exact absurd (herr.symm.trans he) nofun
  · exact .inl hok
  · exact .inr hraised

end Ruled

theorem execAll_cons {i : Instr} {s t : State} (h : exec i s = .next t) (is : List Instr) :
    execAll (i :: is) s = execAll is t := by
  rw [execAll, h]

/-- Commands other than the two system commands leave an error state as it is, the responses apart (R254). -/
theorem execAll_ignored {is : List Instr} (his : is.any isSystem = false) {s : State} {e : ErrorKind}
    (herr : s.err = some e) : ∃ rsp, execAll is s = .next { s with rsp := rsp } := by
  induction is generalizing s with
  | nil => exact ⟨s.rsp, rfl⟩
  | cons i is ih =>
    obtain ⟨hi, his⟩ := Bool.or_eq_false_iff.1 his
    obtain ⟨rsp, hrun⟩ := ih his (s := s.respond 0) herr
    exact ⟨rsp, (execAll_cons ((exec_eq_command hi s).trans (command_ignored herr)) is).trans hrun⟩

/-- The commands, one after another, end where the body ends, the responses apart and whatever they were. -/
def RunsAs {α : Type} (is : List Instr) (s : State) (r : Res α) : Prop :=
  ∀ rsp,
    (∀ a t, r = .ok a t → ∃ rsp', execAll is { s with rsp := rsp } = .next { t with rsp := rsp' }) ∧
    ∀ e t, r = .raised e t → ∃ rsp', execAll is { s with rsp := rsp } = .next { t with err := some e, rsp := rsp' }

theorem runsAs_nil {α : Type} (a : α) (s : State) : RunsAs [] s (.ok a s) := fun rsp =>
  ⟨fun _ _ h => (by cases h; exact ⟨rsp, rfl⟩), nofun⟩

/-- A command whose rule is the first part of the body, before the commands that run as the rest. -/
theorem runsAs_cons {α β : Type} {i : Instr} {is : List Instr} (his : (i :: is).any isSystem = false) {s : State}
    (herr : s.err = none) {r : Res α} {v : α → Value} (hrule : ruleOf i s = r.bind fun a t => .ok (v a) t)
    {f : α → State → Res β} (hrest : ∀ a t, r = .ok a t → t.err = none → RunsAs is t (f a t)) :
    RunsAs (i :: is) s (r.bind f) := by
  obtain ⟨hi, his⟩ := Bool.or_eq_false_iff.1 his
  intro rsp
  cases r with
  | ok a t =>
    have hterr : t.err = none := ((ruleOf_sameAnswers i s).1 (v a) t hrule).1.trans herr
    rw [execAll_cons_ok herr hi hrule]
    exact hrest a t rfl hterr _
  | raised e t =>
    rw [execAll, exec_withRsp_raised herr hi hrule]
    refine ⟨nofun, fun _ _ h => ?_⟩
    cases h
    exact execAll_ignored his rfl
  | broken => exact ⟨nofun, nofun⟩

/-- A body that commands run as is what a command with that rule does, the responses apart. -/
theorem RunsAs.execAll_of_exec {α : Type} {is : List Instr} {s : State} {r : Res α} (h : RunsAs is s r) {i : Instr}
    {v : α → Value} (herr : s.err = none) (hi : isSystem i = false) (hrule : ruleOf i s = r.bind fun a t => .ok (v a) t)
    {u : State} (hexec : exec i s = .next u) : ∃ rsp, execAll is s = .next { u with rsp := rsp } := by
  rcases rule_of_exec herr hi hexec with ⟨w, t, hr, rfl⟩ | ⟨e, t, hr, rfl⟩
  · obtain ⟨a, _, hr, hanswer⟩ := bind_eq_ok_iff.1 (hrule ▸ hr)
    cases hanswer
    exact (h s.rsp).1 a t hr
  · rcases bind_eq_raised_iff.1 (hrule ▸ hr) with hr | ⟨_, _, -, hanswer⟩
    · exact (h s.rsp).2 e t hr
    · cases hanswer

/-! ### ENC_COMPRESS -/

theorem serializeTree_ilen {s t : State} {u : Unit} (h : serializeTree s = .ok u t) : t.ilen = s.ilen := by
  have hframe := (serializeTree_frame s).1 u t h
  unfold Frame at hframe
  rw [hframe]
  rfl

/-- From an empty buffer the unit-level steps are the parts of the compress pipeline (R203, R283). -/
theorem compress_runsAs {s : State} (herr : s.err = none) (hcnt : s.wcnt = 0) (hbuf : s.wbuf = 0) :
    RunsAs [.ftLoad, .tbBuild, .tsSerialize, .bwPutint (BitVec.ofNat 32 s.src.length), .ctDerive, .encEmit, .bwClose] s
      (compress s) := by
  have hstart : { s with wbuf := 0, wcnt := 0 } = s := by rw [← hcnt, ← hbuf]
  rw [compress, hstart]
  refine runsAs_cons rfl herr rfl fun n t hload herr => ?_
  obtain ⟨-, io, ht⟩ := loadInput_ok hload
  have hcount : BitVec.ofNat 32 s.src.length = t.ilen := by rw [ht, State.ilen]
  rw [hcount]
  refine runsAs_cons rfl herr rfl fun _ u hbuild herr => ?_
  obtain ⟨-, rfl⟩ := Res.ok.inj ((buildTree_eq t).symm.trans hbuild)
  refine runsAs_cons rfl herr rfl fun _ u hserialize herr => ?_
  rw [show t.ilen = u.ilen from (serializeTree_ilen hserialize).symm]
  exact
    runsAs_cons rfl herr rfl fun _ _ _ herr =>
    runsAs_cons rfl herr rfl fun _ _ _ herr =>
    runsAs_cons rfl herr rfl fun _ _ _ herr =>
    runsAs_cons rfl herr rfl fun _ _ _ _ => runsAs_nil _ _

/-- Settles O42: every step performs the rule of the pipeline's next part, and none follows a part that raises. -/
theorem compressIsItsUnitSteps : Obligations.CompressIsItsUnitSteps := fun _ _ herr hcnt hbuf hexec =>
  (compress_runsAs herr hcnt hbuf).execAll_of_exec herr rfl rfl hexec

/-! ### DEC_DECOMPRESS -/

/-- With no bit left, a refill that goes through replaces `RBUF`: the answer of the environment and the head of `src` decide
it (R151). -/
theorem refill_ok_of_rcnt_zero {s t : State} (hcnt : s.rcnt = 0) (rbuf : Byte)
    (h : refill { s with rbuf := rbuf } = .ok () t) : refill s = .ok () t := by
  rcases hio : s.io with _ | ⟨_ | _, io⟩ <;> rcases hsrc : s.src with _ | ⟨b, rest⟩ <;>
    simp_all [refill, srcRead, ioAccess]

/-- With no bit left, a bit that is read is read whatever `RBUF` holds (R151). -/
theorem getBit_ok_of_rcnt_zero {s t : State} {bit : Bool} (hcnt : s.rcnt = 0) (rbuf : Byte)
    (h : getBit { s with rbuf := rbuf } = .ok bit t) : getBit s = .ok bit t := by
  obtain ⟨_, u, hrefill, h⟩ := bind_eq_ok_iff.1 h
  exact bind_eq_ok_iff.2 ⟨(), u, refill_ok_of_rcnt_zero hcnt rbuf hrefill, h⟩

/-- With no bit left, a tree that is read is read whatever `RBUF` holds (R181). -/
theorem deserializeTree_ok_of_rcnt_zero {s t : State} (hcnt : s.rcnt = 0) (rbuf : Byte)
    (h : deserializeTree { s with rbuf := rbuf } = .ok () t) : deserializeTree s = .ok () t := by
  rw [deserializeTree, promote_eq_ok_iff] at h ⊢
  obtain ⟨r, u, hdes, h⟩ := bind_eq_ok_iff.1 h
  rw [depthMax, deserialize] at hdes
  obtain ⟨flag, v, hbit, hdes⟩ := bind_eq_ok_iff.1 hdes
  refine bind_eq_ok_iff.2 ⟨r, u, ?_, h⟩
  rw [depthMax, deserialize]
  exact bind_eq_ok_iff.2 ⟨flag, v, getBit_ok_of_rcnt_zero (s := clearTree s) hcnt rbuf hbit, hdes⟩

theorem responseWord_none_injective {v w : Value} (h : responseWord none v = responseWord none w) : v = w := by
  obtain ⟨-, -, hv⟩ := responseWord_fields none v
  obtain ⟨-, -, hw⟩ := responseWord_fields none w
  rw [← hv, h, hw]

/-- The decode boundary around a sequence is the boundary around each part (R256). -/
theorem promote_bind {α β : Type} (r : Res α) (f : α → State → Res β) :
    promote (r.bind f) = (promote r).bind fun a s => promote (f a s) := by
  rcases r with ⟨a, s⟩ | ⟨e, s⟩ | _
  · rfl
  · cases e <;> rfl
  · rfl

/-- The decode boundary inside the decode boundary has no effect (R256). -/
theorem promote_promote {α : Type} (r : Res α) : promote (promote r) = promote r := by
  rcases r with ⟨a, s⟩ | ⟨e, s⟩ | _
  · rfl
  · cases e <;> rfl
  · rfl

/-- DEC_DECOMPRESS part by part, with the decode boundary left around the count alone (R222, R256). -/
theorem decompress_parts (s : State) :
    decompress s = (deserializeTree { s with rbuf := 0, rcnt := 0 }).bind fun _ t =>
      (promote (getInt t)).bind fun n u => (decodeSymbols n u).bind fun _ v => .ok n v := by
  simp only [decompress, deserializeTree, decodeSymbols, promote_bind, promote_promote, promote_ok]

section Steps

variable {s t u : State} (herr : s.err = none)
include herr

variable (htree : deserializeTree s = .ok () t)
include htree

theorem err_of_treeRead : t.err = none := (deserializeTree_sameAnswers s).1 () t htree |>.1.trans herr

/-- TD_DESERIALIZE over a source whose tree is read (R181). -/
theorem execAll_treeRead (is : List Instr) :
    execAll (.tdDeserialize :: is) s = execAll is { t with rsp := s.rsp ++ [0] } := by
  refine (execAll_cons_ok herr rfl (by rw [ruleOf, htree, noResult_ok]) s.rsp _).trans ?_
  rw [responseWord_none_zero]

variable {n : Word32} (hcount : getInt t = .ok n u)
include hcount

theorem err_of_counted : u.err = none :=
  (reader_sameAnswers (getBits_frame 32 0 t)).1 n u hcount |>.1.trans (err_of_treeRead herr htree)

/-- TD_DESERIALIZE and BR_GETINT over a source whose tree and count are read (R153, R181). -/
theorem execAll_counted (is : List Instr) :
    execAll (.tdDeserialize :: .brGetint :: is) s =
      execAll is { u with rsp := s.rsp ++ [0] ++ [responseWord none (n.setWidth 41)] } :=
  (execAll_treeRead herr htree _).trans
    (execAll_cons_ok (err_of_treeRead herr htree) rfl (by rw [ruleOf, hcount, bind_ok]) _ _)

end Steps

/-- From a cleared bit reader the parts are the unit-level rules, but for the decode boundary around the count (R256). -/
theorem ruleOf_decDecompress {s : State} (hclear : { s with rbuf := 0, rcnt := 0 } = s) :
    ruleOf .decDecompress s = (deserializeTree s).bind fun _ t =>
      (promote (getInt t)).bind fun n u => (decodeSymbols n u).bind fun _ v => .ok (n.setWidth 41) v := by
  rw [ruleOf, decompress_parts, hclear]
  simp only [bind_assoc, bind_ok]

/-- TD_DESERIALIZE, BR_GETINT and DEC_WALK from `s` end as DEC_DECOMPRESS does that answers `t` (R283). -/
def UnitsAgree (s t : State) : Prop :=
  ∃ m : State, execAll [.tdDeserialize, .brGetint] s = .next m ∧
    (m.err ≠ none →
      m = { t with err := m.err, rsp := m.rsp } ∧
      (m.err = t.err ∨ (m.err = some .endOfStream ∧ t.err = some .corruptStream ∧ t.rootValid = true))) ∧
    (m.err = none →
      ∃ (n : Word32) (u : State), m.rsp = s.rsp ++ [0, responseWord none (n.setWidth 41)] ∧
        exec (.decWalk n) m = .next u ∧ u = { t with rsp := u.rsp })

section Units

variable {s t u v : State} (herr : s.err = none)
include herr

/-- The tree is refused: BR_GETINT is ignored. -/
theorem unitsAgree_of_treeRefused {e : ErrorKind} (htree : deserializeTree s = .raised e u) :
    UnitsAgree s (takeError e u) := by
  have hrefused : exec .tdDeserialize s = .next (takeError e u) :=
    exec_of_rule_raised herr rfl (by rw [ruleOf, htree, noResult_raised])
  have hignored : exec .brGetint (takeError e u) = .next ((takeError e u).respond 0) := exec_ignored rfl nofun nofun
  exact ⟨_, (execAll_cons hrefused _).trans (execAll_cons hignored []), fun _ => ⟨rfl, .inl rfl⟩, nofun⟩

variable (htree : deserializeTree s = .ok () u)
include htree

/-- The count is refused: BR_GETINT ends at the error raised, and the tree stays the current tree. -/
theorem unitsAgree_of_countRefused {e k : ErrorKind} (hcount : getInt u = .raised e v)
    (hk : k = e ∨ (e = .endOfStream ∧ k = .corruptStream)) : UnitsAgree s (takeError k v) := by
  have hrefused := exec_withRsp_raised (i := .brGetint) (err_of_treeRead herr htree) rfl
    (by rw [ruleOf, hcount, bind_raised]) (s.rsp ++ [0])
  have hcurrent : v.rootValid = true :=
    ((deserializeTree_current htree).of_reader ((getBits_frame 32 0 u).2 e v hcount)).1
  refine ⟨_, (execAll_treeRead herr htree _).trans (execAll_cons hrefused []), fun _ => ⟨rfl, ?_⟩, nofun⟩
  rcases hk with rfl | ⟨rfl, rfl⟩
  · exact .inl rfl
  · exact .inr ⟨rfl, rfl, hcurrent⟩

/-- The count is read: DEC_WALK of it decides. -/
theorem unitsAgree_of_counted {n : Word32} (hcount : getInt u = .ok n v)
    (hwalk : ∀ rsp, ∃ rsp', exec (.decWalk n) { v with rsp := rsp } = .next { t with rsp := rsp' }) : UnitsAgree s t := by
  obtain ⟨rsp, hwalk⟩ := hwalk (s.rsp ++ [0] ++ [responseWord none (n.setWidth 41)])
  have hverr := err_of_counted herr htree hcount
  exact ⟨_, execAll_counted herr htree hcount [], fun h => absurd hverr h,
    fun _ => ⟨n, _, List.append_assoc .., hwalk, rfl⟩⟩

end Units

/-- From a cleared bit reader, wherever DEC_DECOMPRESS ends, its unit-level steps end there (R283). -/
theorem unitsAgree_of_exec {s t : State} (herr : s.err = none) (hclear : { s with rbuf := 0, rcnt := 0 } = s)
    (hexec : exec .decDecompress s = .next t) : UnitsAgree s t := by
  rcases rule_of_exec herr rfl hexec with ⟨w, v, hrule, rfl⟩ | ⟨e, v, hrule, rfl⟩
  all_goals rw [ruleOf_decDecompress hclear] at hrule
  · obtain ⟨_, a, htree, hrule⟩ := bind_eq_ok_iff.1 hrule
    obtain ⟨n, b, hcount, hrule⟩ := bind_eq_ok_iff.1 hrule
    obtain ⟨_, _, hwalk, hanswer⟩ := bind_eq_ok_iff.1 hrule
    cases hanswer
    rw [promote_eq_ok_iff] at hcount
    have hverr := err_of_counted herr htree hcount
    have hunit := exec_withRsp_ok (i := .decWalk n) hverr rfl (by rw [ruleOf, hwalk, noResult_ok])
    exact unitsAgree_of_counted herr htree hcount fun rsp => ⟨_, hunit rsp⟩
  · rcases bind_eq_raised_iff.1 hrule with htree | ⟨_, a, htree, hrule⟩
    · exact unitsAgree_of_treeRefused herr htree
    rcases bind_eq_raised_iff.1 hrule with hcount | ⟨n, b, hcount, hrule⟩
    · rcases promote_eq_raised_iff.1 hcount with ⟨hrefused, -⟩ | ⟨hended, rfl⟩
      · exact unitsAgree_of_countRefused herr htree hrefused (.inl rfl)
      · exact unitsAgree_of_countRefused herr htree hended (.inr ⟨rfl, rfl⟩)
    rcases bind_eq_raised_iff.1 hrule with hwalk | ⟨_, _, -, hanswer⟩
    · rw [promote_eq_ok_iff] at hcount
      have hunit := exec_withRsp_raised (i := .decWalk n) (err_of_counted herr htree hcount) rfl
        (by rw [ruleOf, hwalk, noResult_raised])
      exact unitsAgree_of_counted herr htree hcount fun rsp => ⟨_, hunit rsp⟩
    · cases hanswer

/-- A decompress that goes through from `RCNT = 0` reads the tree, the count and the symbols (R222). -/
theorem decompress_ok_parts {s v : State} {n : Word32} (hcnt : s.rcnt = 0) (h : decompress s = .ok n v) :
    ∃ t u, deserializeTree s = .ok () t ∧ getInt t = .ok n u ∧ decodeSymbols n u = .ok () v := by
  rw [decompress_parts, ← hcnt] at h
  obtain ⟨_, t, htree, h⟩ := bind_eq_ok_iff.1 h
  obtain ⟨_, u, hcount, h⟩ := bind_eq_ok_iff.1 h
  obtain ⟨_, _, hwalk, h⟩ := bind_eq_ok_iff.1 h
  cases h
  exact ⟨t, u, deserializeTree_ok_of_rcnt_zero hcnt 0 htree, promote_eq_ok_iff.1 hcount, hwalk⟩

/-- What DEC_DECOMPRESS answers without an error is the count (R222). -/
theorem decompress_of_answered {s t : State} {n : Word32} (herr : s.err = none)
    (hexec : exec .decDecompress s = .next t) (hterr : t.err = none)
    (hrsp : t.rsp = s.rsp ++ [responseWord none (n.setWidth 41)]) :
    ∃ v, decompress s = .ok n v ∧ t = v.respond (n.setWidth 41) := by
  rcases rule_of_exec herr rfl hexec with ⟨w, v, hrule, rfl⟩ | ⟨e, v, -, rfl⟩
  · obtain ⟨-, hvrsp⟩ := (ruleOf_sameAnswers .decDecompress s).1 w v hrule
    rw [respond_err] at hterr
    rw [respond_rsp, hvrsp, hterr] at hrsp
    have hw : w = n.setWidth 41 := responseWord_none_injective (List.singleton_inj.1 (List.append_cancel_left hrsp))
    obtain ⟨m, _, hdec, h⟩ := bind_eq_ok_iff.1 hrule
    obtain ⟨hm, rfl⟩ := Res.ok.inj h
    have hmn := congrArg BitVec.toNat (hm.trans hw)
    rw [BitVec.toNat_setWidth_of_le (by decide), BitVec.toNat_setWidth_of_le (by decide)] at hmn
    exact ⟨_, BitVec.eq_of_toNat_eq hmn ▸ hdec, by rw [hw]⟩
  · cases hterr

/-- Settles O48: the two differ in the boundary around the count alone, and a tree that is read from `RCNT = 0` is read
whatever `RBUF` holds. -/
theorem decompressIsItsUnitSteps : Obligations.DecompressIsItsUnitSteps := by
  refine ⟨fun s t n herr hcnt hexec hterr hrsp => ?_, fun s t herr hcnt hbuf hexec => ?_⟩
  · obtain ⟨v, hdec, rfl⟩ := decompress_of_answered herr hexec hterr hrsp
    obtain ⟨t, u, htree, hcount, hwalk⟩ := decompress_ok_parts hcnt hdec
    have hrun := execAll_cons_ok (i := .decWalk n) (err_of_counted herr htree hcount) rfl
      (by rw [ruleOf, hwalk, noResult_ok])
    exact ⟨_, (execAll_counted herr htree hcount [.decWalk n]).trans (hrun _ [])⟩
  · exact unitsAgree_of_exec herr (by rw [← hcnt, ← hbuf]) hexec

end Sys2Proof.Machine
end

section
/-! SUPPORT. That every step keeps the sparse tables canonical and inside their memories (spec/10_state.md R33, R36, R38): node
memory by the tree invariants a build or a read-back leaves, `FT` count by count and `CT` code by code. -/

namespace Sys2Proof.Machine

/-! ### The rules that write a table -/

/-- The load loop writes `FT` byte by byte, each byte a symbol (R171). -/
theorem loadLoop_memory_wf (fuel : Nat) {s : State} (h : Memory.wf s) : (loadLoop fuel s).Ends Memory.wf := by
  induction fuel generalizing s with
  | zero => exact ends_ok h
  | succ fuel ih =>
    unfold loadLoop
    rcases srcRead_cases s with ⟨io, hr, _⟩ | ⟨io, b, rest, hr, _⟩ | ⟨io, hr, _⟩
    · rw [hr]; exact ends_ok h
    · have hput := memory_wf_putCount h b.isLt (countGet s.ft b.toNat + 1)
      rw [hr]
      exact ih hput
    · rw [hr]; exact ends_raised h

theorem loadInput_memory_wf {s : State} (h : Memory.wf s) : (loadInput s).Ends Memory.wf := by
  unfold loadInput
  split
  · exact ends_raised h
  · have hclear : Memory.wf { s with ib := [], ft := [] } := memory_wf_clearCounts h
    exact ends_bind (loadLoop_memory_wf _ hclear) (fun _ ht => ht) fun _ _ ht => ends_ok ht

/-- A walk that has gone down an edge binds codes that are not empty (R201). -/
theorem walkCodes_memory_wf (t : Tree) {path : List Bool} (hpath : path ≠ []) {s : State} (h : Memory.wf s) :
    Memory.wf { s with ct := walkCodes t path s.ct } := by
  induction t generalizing path s with
  | leaf sym => exact memory_wf_putCode h sym.isLt hpath
  | node l r ihl ihr =>
    have hleft := ihl (path := path ++ [false]) (by simp) h
    exact ihr (path := path ++ [true]) (by simp) hleft

/-- The codes of a tree: the code "0" of a single leaf, or those of the two subtrees, each one edge down (R201). -/
theorem codesOf_memory_wf (t : Tree) {s : State} (h : Memory.wf s) : Memory.wf { s with ct := codesOf t } := by
  have hclear := memory_wf_clearCodes h
  cases t with
  | leaf sym => exact memory_wf_putCode hclear sym.isLt (List.cons_ne_nil _ _)
  | node l r =>
    have hleft := walkCodes_memory_wf l (List.cons_ne_nil false []) hclear
    exact walkCodes_memory_wf r (List.cons_ne_nil true []) hleft

theorem deriveCodes_memory_wf {s : State} (h : Memory.wf s) : (deriveCodes s).Ends Memory.wf :=
  withTree_ends h fun t _ _ => ends_ok (codesOf_memory_wf t h)

/-- A command that makes a tree leaves node memory as the tree invariants have it, and the other two tables by its frame. -/
theorem memory_wf_of_treeInv {i : Instr} (hi : i ∈ [.tbBuild, .tdDeserialize, .decDecompress]) {s t : State}
    (hf : Frame i s t) (ht : TreeInv t) (h : Memory.wf s) : Memory.wf t := by
  obtain ⟨⟨hsorted, -, hentries, -⟩, -⟩ := ht
  have hothers : t.ft = s.ft ∧ t.ct = s.ct := by
    simp only [List.mem_cons, List.not_mem_nil, or_false] at hi
    rcases hi with rfl | rfl | rfl <;> (unfold Frame at hf; rw [hf]; exact ⟨rfl, rfl⟩)
  refine ⟨⟨hsorted, fun e he => (hentries e he).1⟩, ?_⟩
  rw [hothers.1, hothers.2]
  exact h.2

/-- A rule of such a command that meets the tree invariants wherever it ends keeps the form of the tables. -/
theorem ends_memory_wf_of_treeInv {α : Type} {i : Instr} (hi : i ∈ [.tbBuild, .tdDeserialize, .decDecompress]) {s : State}
    {r : Res α} (hf : r.Ends (Frame i s)) (ht : r.Ends TreeInv) (h : Memory.wf s) : r.Ends Memory.wf :=
  ends_mono (ends_and hf ht) fun _ ⟨hf, ht⟩ => memory_wf_of_treeInv hi hf ht h

theorem buildTree_memory_wf {s : State} (h : Memory.wf s) : (buildTree s).Ends Memory.wf :=
  ends_memory_wf_of_treeInv (by decide) (buildTree_frame s) (buildTree_treeInv s) h

/-! ### Every rule and every step -/

/-- The commands that write `NM`, `FT` or `CT` (R33, R36, R38). -/
def writesTables : Instr → Bool
  | .ftLoad | .tbBuild | .tdDeserialize | .ctDerive | .encCompress | .decDecompress | .sysReset => true
  | _ => false

/-- A command that writes no table keeps their form by its frame. -/
theorem memory_wf_of_frame {i : Instr} (hi : writesTables i = false) {s t : State} (hf : Frame i s t)
    (h : Memory.wf s) : Memory.wf t := by
  cases i with
  | ftLoad | tbBuild | tdDeserialize | ctDerive | encCompress | decDecompress | sysReset => cases hi
  | _ =>
    unfold Frame at hf
    exact memory_wf_congr (by rw [hf]) (by rw [hf]) (by rw [hf]) h

theorem resetBlock_memory_wf (s : State) : Memory.wf (resetBlock s) :=
  memory_wf_congr rfl rfl rfl reset_memory_wf

/-- Every rule keeps the form of the tables: those that write one entry by entry or tree by tree, every other by its
frame. -/
theorem ruleOf_keeps_memory_wf {i : Instr} {s : State} (hi : isSystem i = false) (h : Memory.wf s) :
    (ruleOf i s).Ends Memory.wf := by
  by_cases hw : writesTables i = false
  · exact ends_mono (ruleOf_frame hi s) fun _ ht => memory_wf_of_frame hw ht h
  cases i with
  | ftLoad => exact answer_ends _ (loadInput_memory_wf h)
  | tbBuild => exact noResult_ends (buildTree_memory_wf h)
  | tdDeserialize =>
    exact noResult_ends (ends_memory_wf_of_treeInv (by decide) (deserializeTree_frame s) (deserializeTree_treeInv s) h)
  | ctDerive => exact noResult_ends (deriveCodes_memory_wf h)
  | encCompress =>
    exact answer_ends _ (compress_keeps (fun _ => loadInput_memory_wf) (fun _ => buildTree_memory_wf)
      (fun _ => deriveCodes_memory_wf) (fun _ _ hf hs => memory_wf_of_frame (i := .encEmit) rfl hf hs) h)
  | decDecompress =>
    exact answer_ends _ (ends_memory_wf_of_treeInv (by decide) (decompress_frame s) (decompress_treeInv s) h)
  | sysReset => cases hi
  | _ => exact absurd rfl hw

/-- Settles O54: a count and a code are listed under a symbol and are not 0 or empty, and node memory is written by the
growth of a forest alone, whose nodes are in range. -/
theorem stepKeepsTheTablesCanonical : Obligations.StepKeepsTheTablesCanonical := by
  intro s t hs h
  refine step_keeps (P := Memory.wf) (fun s t hb hs => ?_) (fun s _ => resetBlock_memory_wf s)
    (fun _ _ => ruleOf_keeps_memory_wf) hs h
  unfold SameBlock at hb
  exact memory_wf_congr (by rw [hb]) (by rw [hb]) (by rw [hb]) hs

end Sys2Proof.Machine
end

section
/-! SUPPORT. The words the spec prints (spec/95_test_vectors.md), and what the host does in one step: it hands over a word
(spec/30_encoding.md R86), or acts between two commands (spec/10_state.md R40, R41, spec/70_reset_and_hazards.md R280). -/

namespace Sys2Proof.Machine

/-- Settles O4: a legal word is the encoding of its command, and each refused word fails the check of R85 named with it. -/
theorem printedWordsDecode : Obligations.PrintedWordsDecode :=
  have legal {cw : Word64} {i : Instr} (hwf : i.wf = true) (hcw : encode i = cw) : decode cw = .ok i :=
    decode_eq_ok_iff.2 ⟨hwf, hcw⟩
  ⟨legal rfl rfl, legal rfl rfl, legal rfl rfl, legal rfl rfl, legal rfl rfl, legal rfl rfl, legal rfl rfl, legal rfl rfl,
    rfl, rfl, rfl, rfl⟩

/-- Settles O6: the step takes the word off the plans and the block receives it. -/
theorem stepRunsTheDecodedCommand : Obligations.StepRunsTheDecodedCommand := by
  intro s cw rest i hhost hcw
  simp only [step, hostStep, hhost, receive, hcw]

/-- Settles O8: the host's step by its next act; the hardware reset is `resetBlock`. -/
theorem hostActsBetweenCommands : Obligations.HostActsBetweenCommands := by
  intro s rest bytes
  refine ⟨fun hidle => ?_, fun hsrc => ?_, fun hsnk => ?_, fun hreset => ?_⟩
  · simp only [step, hostStep, hidle]
  · simp only [step, hostStep, hsrc]
  · simp only [step, hostStep, hsnk]
  · simp only [step, hostStep, hreset, resetBlock]

end Sys2Proof.Machine
end
